-- ==== Sys2Proof/Word.lean ====
section
/-! DEFINITION. The units of the block: the byte, the byte list and the 128-bit command word
(20_memory.md R60, 00_scope.md R9, 30_encoding.md R80). -/

namespace Sys2Proof

/-- A byte: 8 bits, bit 7 the most significant (R9, R60). -/
abbrev Byte := BitVec 8

/-- A byte string, its first element at the lowest offset (R9). -/
abbrev Bytes := List Byte

/-- A command word `W` (R80). -/
abbrev Word := BitVec 128

end Sys2Proof
end

