-- ==== Sys2Proof/Syntax.lean ====
section
/-! DEFINITION. The commands of the block, one constructor per row of spec/opcode_table.json, and the
vocabulary of the MAC PDU frame that commands and state share (30_encoding.md, 10_state.md). -/

namespace Sys2Proof

/-- Direction of a PDU: UL (code 0) or DL (code 1) (R22). -/
inductive Dir where
  | ul
  | dl
  deriving DecidableEq, Repr, Inhabited

/-- `FMT` of SET_BSR: 0 SHORT, 1 LONG, 2 TRUNC, 3 reserved (R82). The reserved value decodes, and the
command then fails with `E_ARG` (R84, R128). -/
inductive BsrFmt where
  | short
  | long
  | trunc
  | reserved
  deriving DecidableEq, Repr, Inhabited

/-- Control-element types, in the order of their codes 0..7 (R26, R33). `drx` is decode only. -/
inductive CeType where
  | shortBsr
  | longBsr
  | truncBsr
  | phr
  | crnti
  | conres
  | ta
  | drx
  deriving DecidableEq, Repr, Inhabited

/-- One record of the encoder's table `ENC.SUB` (R26). The constructor is `KIND`. An SDU record has no
`CETYPE` and no `PAY`: the rule gives them a meaning in CE records only. -/
inductive SubRec where
  | sdu (lcid : BitVec 5) (len : BitVec 15)
  | ce (cetype : CeType) (lcid : BitVec 5) (len : BitVec 15) (pay : Bytes)
  deriving DecidableEq, Repr, Inhabited

/-- `CLS` of a decoded record, with the `CETYPE` of a CE (R33). -/
inductive DecCls where
  | sdu
  | ce (cetype : CeType)
  | pad
  deriving DecidableEq, Repr, Inhabited

/-- One record of the decoder's table `DEC.REC` (R33). -/
structure DecRec where
  cls : DecCls
  lcid : BitVec 5
  len : BitVec 16
  off : BitVec 16
  deriving DecidableEq, Repr, Inhabited

/-- An answer `(k, bytes)` of `SRC.read_pdu` (R12): a draw, not yet checked. -/
structure ReadAnswer where
  k : Int
  bytes : Bytes
  deriving DecidableEq, Repr, Inhabited

/-- One command as the host issues it: the word and the data-in list `DIN` that travels with it (R81). -/
structure Command where
  word : Word
  din : Bytes
  deriving DecidableEq, Repr, Inhabited

/-- The 24 commands of rule R82. Counts and LCIDs are numbers (R10), bounded by WellFormed to the field
that carries them. `PH` is the signed operand in units of 1/256 dB (R85). Bit strings are bit vectors. -/
inductive Instr where
  | initTx (dir : Dir) (n : Nat)
  | newSubh
  | setSdu (lcid req : Nat)
  | setBsr (fmt : BsrFmt) (lcg : BitVec 2) (b0 b1 b2 b3 : Nat)
  | setPhr (ph : Int)
  | setCrnti (rnti : BitVec 16)
  | setConres (id : BitVec 48)
  | setTa (ta : BitVec 6)
  | hasSpaceSdu (nb : Nat)
  | hasSpaceCe (nb : Nat)
  | sduSpace
  | remSize
  | write
  | read (dir : Dir) (n : Nat)
  | bsrLevel (b : Nat)
  | phrLevel (ph : Int)
  | addBearer (lcid : Nat)
  | setPriority (lcid : Nat) (prio : BitVec 8) (pbr bsd : BitVec 32)
  | setLcg (lcid : Nat) (lcg : BitVec 2)
  | resetBearers
  | ttiTick (tti : BitVec 32)
  | ulGrant (n : Nat) (msg3 retx crntiInc bsrTrig phrTrig : Bool) (rnti : BitVec 16) (ph : Int)
  | dlTb (n : Nat)
  | softReset
  deriving DecidableEq, Repr, Inhabited

end Sys2Proof
end

