-- ==== Sys2Proof/Config.lean ====
section
/-! DEFINITION. What one instance of the block fixes: the parameters of 00_scope.md R7 with their
default values, the fixed values of the spec, and the free values (opaque: nothing can be proved of
them). -/

namespace Sys2Proof.Config

/-- `LCID_SDU_MAX` (R7): the largest LCID that carries an SDU. -/
def lcidSduMax : Nat := 10

/-- `SAT_COUNT` = 2^18 - 1 (R7): the saturation value of a raw buffer count. -/
def satCount : Nat := 262143

/-- `PBR_INF` (R7): the "unlimited" prioritized bit rate. -/
def pbrInf : BitVec 32 := 0xFFFFFFFF

/-- The parameters of rule R7 that a configuration may set, and the OPEN parameter `BLOCK_BASE` (R76,
D3), which no rule reads. -/
structure Params where
  maxSubh : Nat
  maxTbBytes : Nat
  hdrReserve : Nat
  maxSubhRx : Nat
  bsrThresh : List Nat
  blockBase : Nat
  deriving DecidableEq, Repr, Inhabited

/-- Entries 0..29 of the default `BSR_THRESH` (R231). -/
def bsrThreshLow : List Nat :=
  [10, 12, 14, 17, 19, 22, 26, 31, 36, 42,
   49, 57, 67, 78, 91, 107, 125, 146, 171, 200,
   234, 274, 321, 376, 440, 515, 603, 706, 826, 967]

/-- Entries 30..61 of the default `BSR_THRESH` (R231). -/
def bsrThreshHigh : List Nat :=
  [1132, 1326, 1552, 1817, 2127, 2490, 2915, 3413, 3995, 4677,
   5476, 6411, 7505, 8787, 10287, 12043, 14099, 16507, 19325, 22624,
   26487, 31009, 36304, 42502, 49759, 58255, 68201, 79846, 93479, 109439,
   128125, 150000]

/-- The values rule R7 assumes unless a configuration says otherwise. -/
def Params.standard : Params where
  maxSubh := 20
  maxTbBytes := 32767
  hdrReserve := 7 * 20 + 2
  maxSubhRx := 20 + 3
  bsrThresh := bsrThreshLow ++ bsrThreshHigh
  blockBase := 0

/-- A threshold table is legal: 62 strictly increasing positive entries, the last below `SAT_COUNT`
(R230). -/
def legalThresh (t : List Nat) : Bool :=
  decide (t.length = 62 ∧ (0 :: t).Pairwise (· < ·) ∧ ∀ x ∈ t, x < satCount)

/-- The legal ranges of rule R7 and of 93_implementation_defined.md K1-K5. `MAX_SUBH_RX` is at most 63
because `DEC.NREC` has 6 bits (R33) (DEDUCED, log entry 3). -/
def Params.legal (p : Params) : Bool :=
  decide (1 ≤ p.maxSubh ∧ p.maxSubh ≤ 31) && decide (3 ≤ p.maxTbBytes ∧ p.maxTbBytes ≤ 32767)
    && decide (p.maxSubh + 2 ≤ p.maxSubhRx ∧ p.maxSubhRx ≤ 63) && legalThresh p.bsrThresh

/-- Answer of `SRC.read_pdu(lcid, req)` at free draw number `draw`, where no answer is scripted (R12):
any value. -/
opaque freeReadPdu (draw lcid req : Nat) : ReadAnswer

/-- Answer of `SRC.buffer_state(lcid)` at free draw number `draw`, where no answer is scripted (R12):
any non-negative count. -/
opaque freeBufferState (draw lcid : Nat) : Nat

/-- The buffers and tables whose reset value rule R39 leaves unspecified. -/
structure Contents where
  sub : Vector SubRec 32
  tbOut : Bytes
  decData : Bytes
  decRec : List DecRec
  msg3Bytes : Bytes
  deriving DecidableEq, Repr, Inhabited

/-- What SOFT_RESET leaves in the contents that rule R39 calls unspecified, at free draw `draw`. -/
opaque freeContents (draw : Nat) : Contents

/-- A host read of `TB_OUT` while `TB_VALID = 0` (R29, 93_implementation_defined.md U16). -/
opaque freeTbOutRead (draw pos : Nat) : Bytes

/-- A host read of `DEC.REC[j]` that names no record (R34, R355, U17, U18). -/
opaque freeDecRecRead (draw pos j : Nat) : DecRec

/-- A host read of `DEC.DATA` while `DEC.VALID = 0` (R34, R355, U17). -/
opaque freeDecDataRead (draw pos : Nat) : Bytes

end Sys2Proof.Config
end

