-- ==== Sys2Proof/WellFormed.lean ====
section
/-! DEFINITION. Which commands the encoding can carry: every operand fits its field of rule R82 (the
refusals of the assembler, R105). Operands typed as bit vectors fit by their type. -/

namespace Sys2Proof

/-- A number fits an unsigned field of `w` bits. -/
def fitsU (w n : Nat) : Bool := decide (n < 2 ^ w)

/-- `PH` fits its signed 16-bit field: -128 dB to below 128 dB (R85, R105). -/
def fitsPh (ph : Int) : Bool := decide (-32768 ≤ ph ∧ ph < 32768)

/-- Every operand fits its field of rule R82. -/
def Instr.wellFormed : Instr → Bool
  | .initTx _ n => fitsU 16 n
  | .newSubh => true
  | .setSdu lcid req => fitsU 5 lcid && fitsU 16 req
  | .setBsr _ _ b0 b1 b2 b3 => fitsU 18 b0 && fitsU 18 b1 && fitsU 18 b2 && fitsU 18 b3
  | .setPhr ph => fitsPh ph
  | .setCrnti _ => true
  | .setConres _ => true
  | .setTa _ => true
  | .hasSpaceSdu nb => fitsU 16 nb
  | .hasSpaceCe nb => fitsU 16 nb
  | .sduSpace => true
  | .remSize => true
  | .write => true
  | .read _ n => fitsU 16 n
  | .bsrLevel b => fitsU 18 b
  | .phrLevel ph => fitsPh ph
  | .addBearer lcid => fitsU 5 lcid
  | .setPriority lcid _ _ _ => fitsU 5 lcid
  | .setLcg lcid _ => fitsU 5 lcid
  | .resetBearers => true
  | .ttiTick _ => true
  | .ulGrant n _ _ _ _ _ _ ph => fitsU 16 n && fitsPh ph
  | .dlTb n => fitsU 16 n
  | .softReset => true

/-- The `N` field of a command that carries data-in (READ and DL_TB, R81); `none` for every other
command. -/
def Instr.dinField : Instr → Option Nat
  | .initTx _ _ => none
  | .newSubh => none
  | .setSdu _ _ => none
  | .setBsr _ _ _ _ _ _ => none
  | .setPhr _ => none
  | .setCrnti _ => none
  | .setConres _ => none
  | .setTa _ => none
  | .hasSpaceSdu _ => none
  | .hasSpaceCe _ => none
  | .sduSpace => none
  | .remSize => none
  | .write => none
  | .read _ n => some n
  | .bsrLevel _ => none
  | .phrLevel _ => none
  | .addBearer _ => none
  | .setPriority _ _ _ _ => none
  | .setLcg _ _ => none
  | .resetBearers => none
  | .ttiTick _ => none
  | .ulGrant _ _ _ _ _ _ _ _ => none
  | .dlTb n => some n
  | .softReset => none

/-- The data-in list a command carries has the length its `N` field says (R81, R105). A command without
data-in carries none. -/
def Instr.dinFits (i : Instr) (din : Bytes) : Bool :=
  match i.dinField with
  | some n => decide (din.length = n)
  | none => decide (din.length = 0)

end Sys2Proof
end

