-- ==== Sys2Proof/Decode.lean ====
section
/-! DEFINITION. The decoder of the 128-bit command word, total and rejecting unassigned opcodes by name, and
the encoder, both from the opcode map (30_encoding.md R80-R85). -/

namespace Sys2Proof

/-- Why a word is no command (R83). -/
inductive DecodeError where
  | illegalOpcode (op : BitVec 8)
  deriving DecidableEq, Repr, Inhabited

/-- `OP` = W[127:120] (R80). -/
def opcode (w : Word) : BitVec 8 := w.extractLsb 127 120

/-- The `DIR` bit: 0 UL, 1 DL (R82). -/
def decodeDir (b : Bool) : Dir := if b then .dl else .ul

/-- The `FMT` field of SET_BSR (R82). -/
def decodeFmt (f : BitVec 2) : BsrFmt :=
  match f.toNat with
  | 0 => .short
  | 1 => .long
  | 2 => .trunc
  | _ => .reserved

/-- The LCID field, W[116:112] (R82). -/
def lcidField (w : Word) : Nat := (w.extractLsb 116 112).toNat

/-- The 16-bit count in W[15:0], named `N`, `REQ` or `NB` (R82). -/
def countField (w : Word) : Nat := (w.extractLsb 15 0).toNat

/-- The signed `PH` of SET_PHR and PHR_LEVEL: `sext_16(W[15:0])` (R85). -/
def phLow (w : Word) : Int := (w.extractLsb 15 0).toInt

/-- The signed `PH` of UL_GRANT: `sext_16(W[79:64])` (R85). -/
def phHigh (w : Word) : Int := (w.extractLsb 79 64).toInt

/-- The command a word stands for (R82). Bits no field names are ignored (R84); an unassigned opcode is
rejected by name (R83). -/
def decode (w : Word) : Except DecodeError Instr :=
  match (opcode w).toNat with
  | 0x01 => .ok (.initTx (decodeDir (w.getLsbD 119)) (countField w))
  | 0x02 => .ok .newSubh
  | 0x03 => .ok (.setSdu (lcidField w) (countField w))
  | 0x04 => .ok (.setBsr (decodeFmt (w.extractLsb 109 108)) (w.extractLsb 105 104)
      (w.extractLsb 71 54).toNat (w.extractLsb 53 36).toNat (w.extractLsb 35 18).toNat
      (w.extractLsb 17 0).toNat)
  | 0x05 => .ok (.setPhr (phLow w))
  | 0x06 => .ok (.setCrnti (w.extractLsb 15 0))
  | 0x07 => .ok (.setConres (w.extractLsb 47 0))
  | 0x08 => .ok (.setTa (w.extractLsb 5 0))
  | 0x09 => .ok (.hasSpaceSdu (countField w))
  | 0x0A => .ok (.hasSpaceCe (countField w))
  | 0x0B => .ok .sduSpace
  | 0x0C => .ok .remSize
  | 0x0D => .ok .write
  | 0x0E => .ok (.read (decodeDir (w.getLsbD 119)) (countField w))
  | 0x0F => .ok (.bsrLevel (w.extractLsb 17 0).toNat)
  | 0x10 => .ok (.phrLevel (phLow w))
  | 0x20 => .ok (.addBearer (lcidField w))
  | 0x21 => .ok (.setPriority (lcidField w) (w.extractLsb 103 96) (w.extractLsb 63 32)
      (w.extractLsb 31 0))
  | 0x22 => .ok (.setLcg (lcidField w) (w.extractLsb 105 104))
  | 0x23 => .ok .resetBearers
  | 0x30 => .ok (.ttiTick (w.extractLsb 31 0))
  | 0x31 => .ok (.ulGrant (countField w) (w.getLsbD 16) (w.getLsbD 17) (w.getLsbD 18) (w.getLsbD 19)
      (w.getLsbD 20) (w.extractLsb 47 32) (phHigh w))
  | 0x40 => .ok (.dlTb (countField w))
  | 0x7F => .ok .softReset
  | _ => .error (.illegalOpcode (opcode w))

/-- The host's entry: the command whose table bits are `w`, every bit above `nbits` 0. The table's rows are
one 128-bit word, so its numbering is the word's own (R80). -/
def decodeTableWord (nbits w : Nat) : Option Instr :=
  match decode (BitVec.ofNat 128 (w % 2 ^ nbits)) with
  | .ok i => some i
  | .error _ => none

/-- Bits `hi` down to `lo` set, as a number (R9). -/
def fieldMask (hi lo : Nat) : Nat := (2 ^ (hi + 1 - lo) - 1) * 2 ^ lo

/-- The bits of W[119:0] that the row of an opcode names (R82); every other bit is reserved (R84). -/
def operandMask (op : Nat) : Nat :=
  match op with
  | 0x01 => fieldMask 119 119 + fieldMask 15 0
  | 0x03 => fieldMask 116 112 + fieldMask 15 0
  | 0x04 => fieldMask 109 108 + fieldMask 105 104 + fieldMask 71 54 + fieldMask 53 36
      + fieldMask 35 18 + fieldMask 17 0
  | 0x05 => fieldMask 15 0
  | 0x06 => fieldMask 15 0
  | 0x07 => fieldMask 47 0
  | 0x08 => fieldMask 5 0
  | 0x09 => fieldMask 15 0
  | 0x0A => fieldMask 15 0
  | 0x0E => fieldMask 119 119 + fieldMask 15 0
  | 0x0F => fieldMask 17 0
  | 0x10 => fieldMask 15 0
  | 0x20 => fieldMask 116 112
  | 0x21 => fieldMask 116 112 + fieldMask 103 96 + fieldMask 63 32 + fieldMask 31 0
  | 0x22 => fieldMask 116 112 + fieldMask 105 104
  | 0x30 => fieldMask 31 0
  | 0x31 => fieldMask 79 64 + fieldMask 47 32 + fieldMask 20 16 + fieldMask 15 0
  | 0x40 => fieldMask 15 0
  | _ => 0

/-- A word with its reserved operand bits cleared (R84). -/
def clearReserved (w : Word) : Word :=
  w &&& BitVec.ofNat 128 (fieldMask 127 120 + operandMask (opcode w).toNat)

/-- The value of the `DIR` bit (R22, R82). -/
def encodeDir : Dir → Nat
  | .ul => 0
  | .dl => 1

/-- The value of the `FMT` field (R82). -/
def encodeFmt : BsrFmt → Nat
  | .short => 0
  | .long => 1
  | .trunc => 2
  | .reserved => 3

/-- `PH` in two's complement, 16 bits (R82). -/
def encodePh (ph : Int) : Nat := (BitVec.ofInt 16 ph).toNat

/-- The opcode of a command (R82). -/
def Instr.opcode : Instr → Nat
  | .initTx _ _ => 0x01
  | .newSubh => 0x02
  | .setSdu _ _ => 0x03
  | .setBsr _ _ _ _ _ _ => 0x04
  | .setPhr _ => 0x05
  | .setCrnti _ => 0x06
  | .setConres _ => 0x07
  | .setTa _ => 0x08
  | .hasSpaceSdu _ => 0x09
  | .hasSpaceCe _ => 0x0A
  | .sduSpace => 0x0B
  | .remSize => 0x0C
  | .write => 0x0D
  | .read _ _ => 0x0E
  | .bsrLevel _ => 0x0F
  | .phrLevel _ => 0x10
  | .addBearer _ => 0x20
  | .setPriority _ _ _ _ => 0x21
  | .setLcg _ _ => 0x22
  | .resetBearers => 0x23
  | .ttiTick _ => 0x30
  | .ulGrant _ _ _ _ _ _ _ _ => 0x31
  | .dlTb _ => 0x40
  | .softReset => 0x7F

/-- The operand bits W[119:0] of a command: each operand at its field's position (R82), reserved bits 0
(R105). -/
def Instr.operandBits : Instr → Nat
  | .initTx dir n => encodeDir dir * 2 ^ 119 + n
  | .newSubh => 0
  | .setSdu lcid req => lcid * 2 ^ 112 + req
  | .setBsr fmt lcg b0 b1 b2 b3 =>
      encodeFmt fmt * 2 ^ 108 + lcg.toNat * 2 ^ 104 + b0 * 2 ^ 54 + b1 * 2 ^ 36 + b2 * 2 ^ 18 + b3
  | .setPhr ph => encodePh ph
  | .setCrnti rnti => rnti.toNat
  | .setConres id => id.toNat
  | .setTa ta => ta.toNat
  | .hasSpaceSdu nb => nb
  | .hasSpaceCe nb => nb
  | .sduSpace => 0
  | .remSize => 0
  | .write => 0
  | .read dir n => encodeDir dir * 2 ^ 119 + n
  | .bsrLevel b => b
  | .phrLevel ph => encodePh ph
  | .addBearer lcid => lcid * 2 ^ 112
  | .setPriority lcid prio pbr bsd =>
      lcid * 2 ^ 112 + prio.toNat * 2 ^ 96 + pbr.toNat * 2 ^ 32 + bsd.toNat
  | .setLcg lcid lcg => lcid * 2 ^ 112 + lcg.toNat * 2 ^ 104
  | .resetBearers => 0
  | .ttiTick tti => tti.toNat
  | .ulGrant n msg3 retx crntiInc bsrTrig phrTrig rnti ph =>
      encodePh ph * 2 ^ 64 + rnti.toNat * 2 ^ 32 + phrTrig.toNat * 2 ^ 20 + bsrTrig.toNat * 2 ^ 19
        + crntiInc.toNat * 2 ^ 18 + retx.toNat * 2 ^ 17 + msg3.toNat * 2 ^ 16 + n
  | .dlTb n => n
  | .softReset => 0

/-- The word of a well-formed command (R80, R82). -/
def encode (i : Instr) : Word := BitVec.ofNat 128 (i.opcode * 2 ^ 120 + i.operandBits)

end Sys2Proof
end

