-- ==== Sys2Proof/Machine/State.lean ====
section
/-! DEFINITION. The architectural state of the block (10_state.md), the model's own fields for what stands
outside the block (the host's command list, the answers of the external agents, the observation), and
the state after power-on RESET (R39, R350). -/

namespace Sys2Proof.Machine

open Sys2Proof.Config

/-- `ENC.MODE` (R21): IDLE 0, BUILD 1, DONE 2. Value 3 is never held. -/
inductive Mode where
  | idle
  | build
  | done
  deriving DecidableEq, Repr, Inhabited

/-- The values of `ERR` and `DEC.ERR`, in the order of the table of rule R321. Every other code is
reserved and never written. -/
inductive ErrCode where
  | ok
  | illegal
  | state
  | tbSize
  | noSubh
  | noSlot
  | space
  | src
  | arg
  | dir
  | size
  | hdrReserve
  | pTrunc
  | pLcid
  | pLen
  | pTooMany
  | msg3None
  | msg3Size
  deriving DecidableEq, Repr, Inhabited

/-- The encoder `ENC` (R21-R29). `lastSdu` is `LAST_SDU`, `none` for -1. `sub` has the 32 slots a 5-bit
index can name; the records are the slots below `nsub` (R26). -/
structure Enc where
  mode : Mode
  dir : Dir
  n : BitVec 16
  rem : BitVec 16
  nsub : BitVec 5
  isOpen : Bool
  sub : Vector SubRec 32
  lastSdu : Option (BitVec 5)
  sduData : Bytes
  tbOut : Bytes
  tbValid : Bool
  deriving DecidableEq, Repr, Inhabited

/-- The decoder `DEC` (R33). -/
structure Dec where
  valid : Bool
  dir : Dir
  n : BitVec 16
  data : Bytes
  nrec : BitVec 6
  recs : List DecRec
  err : ErrCode
  deriving DecidableEq, Repr, Inhabited

/-- One logical channel `CFG.LCH[l]` (R35). -/
structure Lch where
  active : Bool
  prio : BitVec 8
  pbr : BitVec 32
  bsd : BitVec 32
  lcg : BitVec 2
  deriving DecidableEq, Repr, Inhabited

/-- `MUX.MSG3` (R37). -/
structure Msg3 where
  valid : Bool
  len : BitVec 16
  bytes : Bytes
  deriving DecidableEq, Repr, Inhabited

/-- The multiplexer state `MUX`: the token counters, 32 bits two's complement (R36), and the Msg3 buffer. -/
structure Mux where
  tok : Vector (BitVec 32) 11
  msg3 : Msg3
  deriving DecidableEq, Repr, Inhabited

/-- One item of the observation of a run (R17), in the order it happens: a request to an external agent
with its arguments (R12), an event word of the demultiplexer (R303), a `TB_OUT` produced, the
`(RES, ERR)` pair of a command. -/
inductive Obs where
  | readPdu (lcid req : Nat)
  | bufferState (lcid : Nat)
  | writePdu (lcid : Nat) (bytes : Bytes)
  | event (ev : BitVec 64)
  | tbOut (bytes : Bytes)
  | result (res : BitVec 32) (err : ErrCode)
  deriving DecidableEq, Repr, Inhabited

/-- The answers of the channel-data sources (R12), the model's own state. The lists hold answers already
drawn, the next one first. Past their end an answer is a free value of Config, at number `draws`. -/
structure Agents where
  pduAnswers : List ReadAnswer
  countAnswers : List Nat
  draws : Nat
  deriving DecidableEq, Repr, Inhabited

/-- The host's side of the command port (R5, R17, R40), the model's own state: the commands not yet
accepted, the data-in list of the command being executed, and the program's position. -/
structure HostPort where
  cmds : List Command
  din : Bytes
  pos : Nat
  deriving DecidableEq, Repr, Inhabited

/-- The machine. `params` is the instance's configuration (R7): no command changes it. `enc`, `dec`,
`cfg`, `mux`, `res`, `err` and `fault` are the state of 10_state.md; `STATUS` and `DEC_STATUS` are
views of them (Machine/Flags.lean). `agents`, `host` and `trace` are the model's own. -/
structure State where
  params : Params
  enc : Enc
  dec : Dec
  cfg : Vector Lch 11
  mux : Mux
  res : BitVec 32
  err : ErrCode
  fault : Bool
  agents : Agents
  host : HostPort
  trace : List Obs
  deriving DecidableEq, Repr, Inhabited

/-- Why the machine stops with no next state. -/
inductive Fault where
  /-- Raised by `step` alone, where no command is pending: "A run ends when the command list is exhausted"
  (R17). No meaning raises it. Safe: the model stops where the block would wait for its host. -/
  | commandListEnded
  deriving DecidableEq, Repr, Inhabited

/-- Why the model gives a command no meaning. -/
inductive Refusal where
  /-- Raised by `exec` for a command without a meaning. No arm raises it: every command is modelled. Safe. -/
  | notModelled (mnemonic : String)
  deriving DecidableEq, Repr, Inhabited

/-- The encoder after reset (R39). `SUB` and the contents of `TB_OUT` have no reset value in the spec: the
values here are the model's (DESIGN CHOICE, log entry 4). -/
def Enc.reset : Enc where
  mode := .idle
  dir := .ul
  n := 0
  rem := 0
  nsub := 0
  isOpen := false
  sub := Vector.replicate 32 (.sdu 0 0)
  lastSdu := none
  sduData := []
  tbOut := []
  tbValid := false

/-- The decoder after reset (R33, R39). `DATA` and `REC` have no reset value in the spec (DESIGN CHOICE,
log entry 4). -/
def Dec.reset : Dec where
  valid := false
  dir := .ul
  n := 0
  data := []
  nrec := 0
  recs := []
  err := .ok

/-- `CFG.LCH[0]` after reset (R35, R39). -/
def Lch.resetCcch : Lch where
  active := true
  prio := 255
  pbr := pbrInf
  bsd := 0
  lcg := 0

/-- `CFG.LCH[l]`, `l` in 1..10, after reset (R35, R39). -/
def Lch.resetData : Lch where
  active := false
  prio := 255
  pbr := 0
  bsd := 0
  lcg := 0

/-- `CFG` after reset and after RESET_BEARERS (R39, R254). -/
def resetCfg : Vector Lch 11 := (Vector.replicate 11 Lch.resetData).set 0 Lch.resetCcch

/-- `MUX` after reset (R36, R37, R39). `MSG3.BYTES` has no reset value in the spec (DESIGN CHOICE, log
entry 4). -/
def Mux.reset : Mux where
  tok := Vector.replicate 11 0
  msg3 := { valid := false, len := 0, bytes := [] }

/-- The machine right after power-on RESET (R39, R350), with the standard parameters of rule R7, no
command issued, no answer scripted and nothing observed. -/
def State.reset : State where
  params := Params.standard
  enc := Enc.reset
  dec := Dec.reset
  cfg := resetCfg
  mux := Mux.reset
  res := 0
  err := .ok
  fault := false
  agents := { pduAnswers := [], countAnswers := [], draws := 0 }
  host := { cmds := [], din := [], pos := 0 }
  trace := []

end Sys2Proof.Machine
end

