-- ==== Sys2Proof/Machine/Operands.lean ====
section
/-! DEFINITION. The arithmetic of operands and of the frame format: saturation, header sizes, the LCID
maps, the level functions, the control-element payloads, the subheader bytes and the event words
(00_scope.md R10, R14; 30_encoding.md R87-R104; 43_level_tables.md; 45_demux.md R303). -/

namespace Sys2Proof.Machine

open Sys2Proof.Config

/-- `sat32` (R10). -/
def sat32 (v : Int) : Int := max (-2147483648) (min 2147483647 v)

/-- `H(n)`: the size of the full header of a non-last SDU subheader (R14, R90). -/
def hdrSize (n : Nat) : Nat := if n < 128 then 2 else 3

/-- The code of a CE type in `CETYPE` (R26, R33). -/
def ceCode : CeType → BitVec 3
  | .shortBsr => 0
  | .longBsr => 1
  | .truncBsr => 2
  | .phr => 3
  | .crnti => 4
  | .conres => 5
  | .ta => 6
  | .drx => 7

/-- The payload size `Z` of a CE (R93, R94, R200). -/
def ceSize : CeType → Nat
  | .shortBsr => 1
  | .longBsr => 3
  | .truncBsr => 1
  | .phr => 1
  | .crnti => 2
  | .conres => 6
  | .ta => 1
  | .drx => 0

/-- `Allowed(dir)`: the CE types a PDU of the direction may carry (R127). -/
def allowed : Dir → CeType → Bool
  | .ul, .shortBsr => true
  | .ul, .longBsr => true
  | .ul, .truncBsr => true
  | .ul, .phr => true
  | .ul, .crnti => true
  | .ul, .conres => false
  | .ul, .ta => false
  | .ul, .drx => false
  | .dl, .conres => true
  | .dl, .ta => true
  | .dl, .shortBsr => false
  | .dl, .longBsr => false
  | .dl, .truncBsr => false
  | .dl, .phr => false
  | .dl, .crnti => false
  | .dl, .drx => false

/-- `LcidOf`: the LCID of a CE type in its direction's map (R93, R94, R127). No type stands in both maps. -/
def ceLcid : CeType → BitVec 5
  | .phr => 26
  | .crnti => 27
  | .truncBsr => 28
  | .shortBsr => 29
  | .longBsr => 30
  | .conres => 28
  | .ta => 29
  | .drx => 30

/-- `Class(dir, lcid)` (R200); `none` for a RESERVED kind. -/
def classOf (dir : Dir) (lcid : BitVec 5) : Option DecCls :=
  if lcid.toNat ≤ lcidSduMax then some .sdu
  else match dir, lcid.toNat with
    | .ul, 26 => some (.ce .phr)
    | .ul, 27 => some (.ce .crnti)
    | .ul, 28 => some (.ce .truncBsr)
    | .ul, 29 => some (.ce .shortBsr)
    | .ul, 30 => some (.ce .longBsr)
    | .dl, 28 => some (.ce .conres)
    | .dl, 29 => some (.ce .ta)
    | .dl, 30 => some (.ce .drx)
    | _, 31 => some .pad
    | _, _ => none

/-- `BsrLevel(n)` over the instance's thresholds (R232). -/
def bsrLevelOf (thresh : List Nat) (n : Nat) : Nat :=
  if n = 0 then 0
  else if n > thresh.getD 61 0 then 63
  else 1 + (thresh.filter (fun t => decide (t < n))).length

/-- `PhrLevel(ph)`, `ph` in units of 1/256 dB (R234): clamp to [-23, 40] dB, add 23, floor. -/
def phrLevelOf (ph : Int) : Nat := ((max (-5888) (min 10240 ph) + 5888) / 256).toNat

/-- SHORT_BSR and TRUNC_BSR payload: `LCG` in bits 7..6, the level in bits 5..0 (R95). -/
def shortBsrBytes (lcg : BitVec 2) (level : BitVec 6) : Bytes := [lcg ++ level]

/-- LONG_BSR payload: the 24-bit big-endian value `{BS0, BS1, BS2, BS3}` (R96). -/
def longBsrBytes (l0 l1 l2 l3 : BitVec 6) : Bytes :=
  let v : BitVec 24 := l0 ++ l1 ++ l2 ++ l3
  [v.extractLsb 23 16, v.extractLsb 15 8, v.extractLsb 7 0]

/-- PHR payload: bits 7..6 zero, the level in bits 5..0 (R97). -/
def phrBytes (level : BitVec 6) : Bytes := [(0 : BitVec 2) ++ level]

/-- CRNTI payload, most significant byte first (R98). -/
def crntiBytes (rnti : BitVec 16) : Bytes := [rnti.extractLsb 15 8, rnti.extractLsb 7 0]

/-- CONRES payload, most significant byte first (R99). -/
def conresBytes (id : BitVec 48) : Bytes :=
  [id.extractLsb 47 40, id.extractLsb 39 32, id.extractLsb 31 24, id.extractLsb 23 16,
   id.extractLsb 15 8, id.extractLsb 7 0]

/-- TA payload: bits 7..6 zero, the command in bits 5..0 (R100). -/
def taBytes (ta : BitVec 6) : Bytes := [(0 : BitVec 2) ++ ta]

/-- `LEN` of an encoder record (R26). -/
def recLen : SubRec → Nat
  | .sdu _ len => len.toNat
  | .ce _ _ len _ => len.toNat

/-- The record is an SDU record: `KIND` = 0 (R26). -/
def recIsSdu : SubRec → Bool
  | .sdu _ _ => true
  | .ce _ _ _ _ => false

/-- `PAY` of an encoder record: the CE payload bytes (R26); an SDU record has none. -/
def recPay : SubRec → Bytes
  | .sdu _ _ => []
  | .ce _ _ _ pay => pay

/-- One element of the header layout of WRITE: a padding subheader or a record (R172). -/
inductive LayoutItem where
  | pad
  | entry (r : SubRec)
  deriving DecidableEq, Repr, Inhabited

/-- The first byte of a subheader: `R R E LCID`, the R bits 0 (R87). -/
def sh1 (e : Bool) (lcid : BitVec 5) : Byte := (0 : BitVec 2) ++ BitVec.ofBool e ++ lcid

/-- The bytes of one subheader, the last one or not (R87-R92, R102, R173). -/
def subheader (last : Bool) : LayoutItem → Bytes
  | .pad => [sh1 (!last) 31]
  | .entry (.ce _ lcid _ _) => [sh1 (!last) lcid]
  | .entry (.sdu lcid len) =>
      if last then [sh1 false lcid]
      else if len.toNat < 128 then [sh1 true lcid, (0 : BitVec 1) ++ len.extractLsb 6 0]
      else [sh1 true lcid, (1 : BitVec 1) ++ len.extractLsb 14 8, len.extractLsb 7 0]

/-- `SubheaderBytes(L)`: the subheaders in order; the last element is the last subheader (R173). -/
def subheaderBytes : List LayoutItem → Bytes
  | [] => []
  | [x] => subheader true x
  | x :: y :: rest => subheader false x ++ subheaderBytes (y :: rest)

/-- The events of the demultiplexer (R303). -/
inductive Event where
  | sdu (lcid : BitVec 5) (len : BitVec 16)
  | conres (id : BitVec 48)
  | ta (cmd : BitVec 6)
  | drx
  | diagParse (code : BitVec 8)
  | diagUnknownLcid (lcid : BitVec 5)
  | diagEmptySdu (lcid : BitVec 5)
  deriving DecidableEq, Repr, Inhabited

/-- The 64-bit word of an event: type, sub-code, argument (R303). -/
def Event.word : Event → BitVec 64
  | .sdu lcid len => (0x01 : BitVec 8) ++ (0 : BitVec 8) ++ (0 : BitVec 27) ++ lcid ++ len
  | .conres id => (0x02 : BitVec 8) ++ (0 : BitVec 8) ++ id
  | .ta cmd => (0x03 : BitVec 8) ++ (0 : BitVec 8) ++ (0 : BitVec 42) ++ cmd
  | .drx => (0x04 : BitVec 8) ++ (0 : BitVec 8) ++ (0 : BitVec 48)
  | .diagParse code => (0x80 : BitVec 8) ++ (0x01 : BitVec 8) ++ (0 : BitVec 40) ++ code
  | .diagUnknownLcid lcid => (0x80 : BitVec 8) ++ (0x02 : BitVec 8) ++ (0 : BitVec 43) ++ lcid
  | .diagEmptySdu lcid => (0x80 : BitVec 8) ++ (0x03 : BitVec 8) ++ (0 : BitVec 43) ++ lcid

/-- The 48-bit identity of a CONRES payload, first byte most significant (R99, R302). The parser
delimits the payload to 6 bytes (R203), so the second line is never met. -/
def conresId : Bytes → BitVec 48
  | b0 :: b1 :: b2 :: b3 :: b4 :: b5 :: _ => b0 ++ b1 ++ b2 ++ b3 ++ b4 ++ b5
  | _ => 0

/-- `P[0][5:0]` of a TA payload (R302). The parser delimits the payload to 1 byte (R203), so the second
line is never met. -/
def taValue : Bytes → BitVec 6
  | b :: _ => b.extractLsb 5 0
  | [] => 0

end Sys2Proof.Machine
end

