-- ==== Sys2Proof/Machine/Ops.lean ====
section
/-! DEFINITION. The named operations the commands share: ending a command with success or with an error
(R13, R320), the requests to the external agents (R12), the observation (R17), the channel table, the
record table and the space accounting (R121, R122, R125-R127), the power-on signal (R350), and taking the
next command from the host (R5, R40). -/

namespace Sys2Proof.Machine

open Sys2Proof.Config

/-- The pair `(E, r)` a command rule returns: the error code and the result, an integer (R13, R258). -/
structure Ret where
  err : ErrCode
  res : Int
  deriving DecidableEq, Repr, Inhabited

/-- `ok(r)` (R13): success, no further write. -/
def ok (r : Int) (s : State) : State × Ret := (s, { err := .ok, res := r })

/-- `fail E_X(r)` (R13), the block's one form of an error: the writes made so far stand, nothing else is
written, no control is transferred (R320, R325). -/
def fail (e : ErrCode) (r : Int) (s : State) : State × Ret := (s, { err := e, res := r })

/-- The end of a command: `RES` and `ERR` are written, by every command (R13, R30, R31). -/
def finish (p : State × Ret) : State := { p.1 with res := BitVec.ofInt 32 p.2.res, err := p.2.err }

/-- A command's meaning from its body. Every command ends in a next state (R320). -/
def complete (p : State × Ret) : Host.Outcome State Fault Refusal := .next (finish p)

/-- The command with an unassigned opcode: `E_ILLEGAL`, `RES` = -1, no other state change (R83). -/
def illegalBody (s : State) : State × Ret := fail .illegal (-1) s

/-- The meaning of a word with an unassigned opcode (R83). -/
def execIllegal (s : State) : Host.Outcome State Fault Refusal := complete (illegalBody s)

/-- Append one item to the observation (R17, R70). -/
def emit (o : Obs) (s : State) : State := { s with trace := s.trace ++ [o] }

/-- `emit EV(...)` (R12, R303). -/
def emitEvent (e : Event) (s : State) : State := emit (.event e.word) s

/-- The next answer of a channel-data source to `read_pdu(lcid, req)`: the next scripted one, or a free
draw (R12). -/
def nextPduAnswer (lcid req : Nat) (a : Agents) : ReadAnswer × Agents :=
  match a.pduAnswers with
  | x :: rest => (x, { a with pduAnswers := rest })
  | [] => (freeReadPdu a.draws lcid req, { a with draws := a.draws + 1 })

/-- The next answer to `buffer_state(lcid)`: the next scripted one, or a free draw (R12). -/
def nextCountAnswer (lcid : Nat) (a : Agents) : Nat × Agents :=
  match a.countAnswers with
  | x :: rest => (x, { a with countAnswers := rest })
  | [] => (freeBufferState a.draws lcid, { a with draws := a.draws + 1 })

/-- `SRC.read_pdu(lcid, req)` (R12): the request is observed and answered within the command. -/
def srcReadPdu (lcid req : Nat) (s : State) : ReadAnswer × State :=
  let p := nextPduAnswer lcid req s.agents
  (p.1, emit (.readPdu lcid req) { s with agents := p.2 })

/-- `SRC.buffer_state(lcid)` (R12). -/
def srcBufferState (lcid : Nat) (s : State) : Nat × State :=
  let p := nextCountAnswer lcid s.agents
  (p.1, emit (.bufferState lcid) { s with agents := p.2 })

/-- `SINK.write_pdu(lcid, bytes)` (R12). -/
def sinkWritePdu (lcid : Nat) (bytes : Bytes) (s : State) : State := emit (.writePdu lcid bytes) s

/-- `CFG.LCH[l]` (R35), for `l` in 0..10. No rule reads the table at another index. -/
def State.lch (s : State) (l : Nat) : Lch := (s.cfg[l]?).getD Lch.resetData

/-- `CFG.LCH[l] <- c` (R35), for `l` in 0..10. -/
def State.setLch (s : State) (l : Nat) (c : Lch) : State := { s with cfg := s.cfg.setIfInBounds l c }

/-- `MUX.TOK[l]`, a signed integer (R36), for `l` in 0..10. -/
def State.tokOf (s : State) (l : Nat) : Int := ((s.mux.tok[l]?).getD 0).toInt

/-- `MUX.TOK[l] <- sat32(v)`: every write of a token counter saturates (R257). -/
def State.setTok (s : State) (l : Nat) (v : Int) : State :=
  { s with mux := { s.mux with tok := s.mux.tok.setIfInBounds l (BitVec.ofInt 32 (sat32 v)) } }

/-- The channel's rate is limited: `PBR` is not the sentinel (R250). -/
def State.limited (s : State) (l : Nat) : Bool := decide ((s.lch l).pbr ≠ pbrInf)

/-- The committed records, in index order: `ENC.SUB[i]` for `i < NSUB` (R24, R26). -/
def Enc.committed (e : Enc) : List SubRec := e.sub.toList.take e.nsub.toNat

/-- `ENC.SUB[i]` (R26). -/
def Enc.recAt (e : Enc) (i : BitVec 5) : SubRec := e.sub[i.toNat]'i.isLt

/-- `ENC.SDU_TOTAL` = `len(SDU_DATA)` (R28). -/
def Enc.sduTotal (e : Enc) : Nat := e.sduData.length

/-- The header bytes the current last SDU needs more once it is no longer last: `H(LEN) - 1`, or 0 where
there is no SDU record (R121, R126, R171). -/
def Enc.lastExtra (e : Enc) : Nat :=
  match e.lastSdu with
  | none => 0
  | some i => hdrSize (recLen (e.recAt i)) - 1

/-- `SduSpace()` (R121): a signed integer. -/
def Enc.sduSpace (e : Enc) : Int := (e.rem.toNat : Int) - 1 - (e.lastExtra : Int)

/-- `CeFits(c)` (R122). -/
def Enc.ceFits (e : Enc) (c : Nat) : Bool := decide (c + 1 ≤ e.rem.toNat)

/-- `BsrLevel` of the instance, as the 6-bit level of a BSR payload (R95, R96, R232). -/
def State.bsrLevel6 (s : State) (n : Nat) : BitVec 6 := BitVec.ofNat 6 (bsrLevelOf s.params.bsrThresh n)

/-- The preconditions of every setter, in order: the mode, then the slot (R125). -/
def setterCheck (s : State) : Option ErrCode :=
  if s.enc.mode ≠ .build then some .state
  else if s.enc.isOpen = false then some .noSlot
  else none

/-- Fill the open slot with a record and charge `cost` bytes (R126, R127). The remaining capacity is
computed exactly; the setters have checked that it does not fall below 0 (R137). -/
def Enc.commitRec (r : SubRec) (cost : Nat) (e : Enc) : Enc :=
  { e with
    sub := e.sub.set e.nsub.toNat r e.nsub.isLt
    rem := BitVec.ofNat 16 (e.rem.toNat - cost)
    nsub := e.nsub + 1
    isOpen := false }

/-- Commit an SDU of `k` bytes (R126): the record, the charge `(k + 1) + extra`, `LAST_SDU`, the bytes. -/
def Enc.commitSdu (lcid k : Nat) (bytes : Bytes) (e : Enc) : Enc :=
  { e.commitRec (.sdu (BitVec.ofNat 5 lcid) (BitVec.ofNat 15 k)) (k + 1 + e.lastExtra) with
    lastSdu := some e.nsub
    sduData := e.sduData ++ bytes }

/-- Commit a CE of type `t` with payload `pay` (R127): the record and the charge `c + 1`. -/
def Enc.commitCe (t : CeType) (pay : Bytes) (e : Enc) : Enc :=
  e.commitRec (.ce t (ceLcid t) (BitVec.ofNat 15 pay.length) pay) (pay.length + 1)

/-- `SetCE(t, P)` after the common preconditions (R127): direction, then space, then the commit. -/
def setCe (t : CeType) (pay : Bytes) (s : State) : State × Ret :=
  if allowed s.enc.dir t = false then fail .dir (-1) s
  else if s.enc.ceFits pay.length = false then fail .space (-1) s
  else ok pay.length { s with enc := s.enc.commitCe t pay }

/-- A setter of a control element: the preconditions of rule R125, then `SetCE` (R127). -/
def ceSetter (t : CeType) (pay : Bytes) (s : State) : State × Ret :=
  match setterCheck s with
  | some e => fail e (-1) s
  | none => setCe t pay s

/-- `ENC.MODE <- IDLE` and `ENC.TB_VALID <- 0`, the writes of a transport-block size error (R123, R258). -/
def Enc.toIdle (e : Enc) : Enc := { e with mode := .idle, tbValid := false }

/-- The encoder with no PDU content: a new mode, direction, size and capacity, no record, no open slot, no
SDU bytes (R123, R259). The record slots keep what they hold. -/
def Enc.start (e : Enc) (mode : Mode) (dir : Dir) (n rem : BitVec 16) : Enc :=
  { e with
    mode := mode
    dir := dir
    n := n
    rem := rem
    nsub := 0
    isOpen := false
    lastSdu := none
    sduData := [] }

/-- The unspecified contents at a free draw, each byte buffer within its capacity `MAX_TB_BYTES` (R39, R63). -/
def Params.drawContents (p : Params) (draw : Nat) : Contents :=
  { freeContents draw with
    tbOut := (freeContents draw).tbOut.take p.maxTbBytes
    decData := (freeContents draw).decData.take p.maxTbBytes
    msg3Bytes := (freeContents draw).msg3Bytes.take p.maxTbBytes }

/-- The encoder after a reset that finds the unspecified contents `c` (R39, R351). -/
def Enc.resetWith (c : Contents) : Enc := { Enc.reset with sub := c.sub, tbOut := c.tbOut }

/-- The decoder after a reset that finds the unspecified contents `c` (R39, R351). -/
def Dec.resetWith (c : Contents) : Dec := { Dec.reset with data := c.decData, recs := c.decRec }

/-- The multiplexer after a reset that finds the unspecified contents `c` (R39, R351). -/
def Mux.resetWith (c : Contents) : Mux :=
  { Mux.reset with msg3 := { valid := false, len := 0, bytes := c.msg3Bytes } }

/-- The data-in list of a READ or DL_TB of `N` bytes is refused: its length is not `N` (R81), or it is longer than
the capacity of `DIN` and of `DEC.DATA`, the largest block the instance accepts (R7, R63; DEDUCED, log entry 9). -/
def State.refusesDin (s : State) (n : Nat) (d : Bytes) : Bool :=
  decide (d.length ≠ n) || decide (d.length > s.params.maxTbBytes)

/-- The RESET signal (R350): a platform signal between commands, not a command. Every field takes its reset
value, the unspecified contents are free, the event stream is empty, and the next command is the first of
the program. The configuration, the host's commands and the agents are not the block's state. -/
def powerOnReset (s : State) : State :=
  let c := Params.drawContents s.params s.agents.draws
  { State.reset with
    params := s.params
    enc := Enc.resetWith c
    dec := Dec.resetWith c
    mux := Mux.resetWith c
    agents := { s.agents with draws := s.agents.draws + 1 }
    host := { s.host with din := [], pos := 0 } }

/-- The host issues its next command: the word, and the data-in list on the data-in port (R5, R81). `none`
where the command list is exhausted (R17). -/
def fetch (s : State) : Option (Word × State) :=
  match s.host.cmds with
  | [] => none
  | c :: rest => some (c.word, { s with host := { s.host with cmds := rest, din := c.din } })

/-- The end of a command at the command port: `RES` and `ERR` are observed (R17), the position advances by
one (R40), and the data-in list is given back (R69). -/
def retire (s : State) : State :=
  { s with
    trace := s.trace ++ [.result s.res s.err]
    host := { s.host with din := [], pos := s.host.pos + 1 } }

end Sys2Proof.Machine
end

