-- ==== Sys2Proof/Machine/Flags.lean ====
section
/-! DEFINITION. What the host reads without a command: the error code of `ERR`, the registers `STATUS` and
`DEC_STATUS`, the data-out stream and the decoder's table port (R31-R34, R64, R321). -/

namespace Sys2Proof.Machine

open Sys2Proof.Config

/-- The number of an error code (R321). -/
def ErrCode.code : ErrCode → BitVec 8
  | .ok => 0x00
  | .illegal => 0x01
  | .state => 0x02
  | .tbSize => 0x03
  | .noSubh => 0x04
  | .noSlot => 0x05
  | .space => 0x06
  | .src => 0x07
  | .arg => 0x08
  | .dir => 0x09
  | .size => 0x0A
  | .hdrReserve => 0x0B
  | .pTrunc => 0x10
  | .pLcid => 0x11
  | .pLen => 0x12
  | .pTooMany => 0x13
  | .msg3None => 0x20
  | .msg3Size => 0x21

/-- `ERR` as the host reads it: 8 bits (R31). -/
def State.errReg (s : State) : BitVec 8 := s.err.code

/-- The code of `ENC.MODE` (R21). -/
def Mode.code : Mode → BitVec 2
  | .idle => 0
  | .build => 1
  | .done => 2

/-- The code of a direction: 0 UL, 1 DL (R22). -/
def dirBit : Dir → BitVec 1
  | .ul => 0
  | .dl => 1

/-- `STATUS` (R32), from bit 31 down: `REM`, two zero bits, `FAULT`, `MSG3_VALID`, `DEC_VALID`, `TB_VALID`,
`NSUB`, `HAS_SDU`, `OPEN`, `DIR`, `MODE`. -/
def State.status (s : State) : BitVec 32 :=
  s.enc.rem ++ (0 : BitVec 2) ++ BitVec.ofBool s.fault ++ BitVec.ofBool s.mux.msg3.valid
    ++ BitVec.ofBool s.dec.valid ++ BitVec.ofBool s.enc.tbValid ++ s.enc.nsub
    ++ BitVec.ofBool s.enc.lastSdu.isSome ++ BitVec.ofBool s.enc.isOpen ++ dirBit s.enc.dir
    ++ s.enc.mode.code

/-- `DEC_STATUS` (R34), from bit 31 down: `N`, `ERR`, `NREC`, `DIR`, `VALID`. -/
def State.decStatus (s : State) : BitVec 32 :=
  s.dec.n ++ s.dec.err.code ++ s.dec.nrec ++ dirBit s.dec.dir ++ BitVec.ofBool s.dec.valid

/-- The data-out stream: `TB_OUT`, lowest offset first, while `TB_VALID = 1` (R29, R64, R356); any value
otherwise. -/
def State.readTbOut (s : State) : Bytes :=
  if s.enc.tbValid then s.enc.tbOut else freeTbOutRead s.agents.draws s.host.pos

/-- The table port: `DEC.REC[j]` while `DEC.VALID = 1` and `j < NREC` (R34, R355); any value otherwise. -/
def State.readDecRec (s : State) (j : Nat) : DecRec :=
  if s.dec.valid && decide (j < s.dec.nrec.toNat) then
    (s.dec.recs[j]?).getD (freeDecRecRead s.agents.draws s.host.pos j)
  else freeDecRecRead s.agents.draws s.host.pos j

/-- The table port: `DEC.DATA` while `DEC.VALID = 1` (R34, R355); any value otherwise. -/
def State.readDecData (s : State) : Bytes :=
  if s.dec.valid then s.dec.data else freeDecDataRead s.agents.draws s.host.pos

/-- The payload bytes of a decoded record: `DEC.DATA[OFF .. OFF + LEN)` (R204). -/
def State.decPayload (s : State) (r : DecRec) : Bytes :=
  (s.dec.data.drop r.off.toNat).take r.len.toNat

/-- The event stream of the run so far (R17, R303). -/
def State.events (s : State) : List (BitVec 64) :=
  s.trace.filterMap fun o =>
    match o with
    | .event e => some e
    | .readPdu _ _ => none
    | .bufferState _ => none
    | .writePdu _ _ => none
    | .tbOut _ => none
    | .result _ _ => none

/-- The requests made to the external agents so far, in order (R17, R70). -/
def State.requests (s : State) : List Obs :=
  s.trace.filter fun o =>
    match o with
    | .readPdu _ _ => true
    | .bufferState _ => true
    | .writePdu _ _ => true
    | .event _ => false
    | .tbOut _ => false
    | .result _ _ => false

end Sys2Proof.Machine
end

