-- ==== Sys2Proof/Machine/Read.lean ====
section
/-! DEFINITION. The PDU parser READ (42_pdu_read.md R200-R207). -/

namespace Sys2Proof.Machine

open Sys2Proof.Config

/-- A subheader the walk has read (R202). The length of the last one is set afterwards (R203). -/
structure WalkRec where
  cls : DecCls
  lcid : BitVec 5
  len : Nat
  deriving DecidableEq, Repr, Inhabited

/-- What a complete walk returns: the subheaders before the last, the last one, and `hend`, the number of
header bytes (R202). -/
structure Walk where
  before : List WalkRec
  last : WalkRec
  hend : Nat
  deriving DecidableEq, Repr, Inhabited

/-- `WalkHeader(dir, N, D)` (R202) on the bytes of `D` from `pos` on: no byte left means `pos >= N`. The R
bits are ignored; `F` selects the width of the length of a non-last SDU. -/
def walkHeader (dir : Dir) (maxRx : Nat) : Bytes → Nat → List WalkRec → Except ErrCode Walk
  | [], _, _ => .error .pTrunc
  | b :: rest, pos, recs =>
    if recs.length = maxRx then .error .pTooMany
    else
      match classOf dir (b.extractLsb 4 0) with
      | none => .error .pLcid
      | some cls =>
        if b.getLsbD 5 = false then
          .ok { before := recs, last := { cls := cls, lcid := b.extractLsb 4 0, len := 0 }, hend := pos + 1 }
        else
          match cls with
          | .pad => walkHeader dir maxRx rest (pos + 1) (recs ++ [⟨.pad, b.extractLsb 4 0, 0⟩])
          | .ce t => walkHeader dir maxRx rest (pos + 1) (recs ++ [⟨.ce t, b.extractLsb 4 0, ceSize t⟩])
          | .sdu =>
            match rest with
            | [] => .error .pTrunc
            | f :: rest1 =>
              if f.getLsbD 7 = false then
                walkHeader dir maxRx rest1 (pos + 2)
                  (recs ++ [⟨.sdu, b.extractLsb 4 0, (f.extractLsb 6 0).toNat⟩])
              else
                match rest1 with
                | [] => .error .pTrunc
                | g :: rest2 =>
                  walkHeader dir maxRx rest2 (pos + 3)
                    (recs ++ [⟨.sdu, b.extractLsb 4 0, ((f.extractLsb 6 0) ++ g).toNat⟩])

/-- The sum of the declared lengths (R203). -/
def declaredLen (recs : List WalkRec) : Nat := (recs.map WalkRec.len).sum

/-- `ResolveLengths` (R203): the last record takes all bytes not consumed by any other subheader. -/
def resolveLengths (n : Nat) (w : Walk) : Except ErrCode (List WalkRec) :=
  if n < w.hend + declaredLen w.before then .error .pLen
  else
    match w.last.cls with
    | .ce t =>
        if n - (w.hend + declaredLen w.before) ≠ ceSize t then .error .pLen
        else .ok (w.before ++ [{ w.last with len := n - (w.hend + declaredLen w.before) }])
    | .sdu => .ok (w.before ++ [{ w.last with len := n - (w.hend + declaredLen w.before) }])
    | .pad => .ok (w.before ++ [{ w.last with len := n - (w.hend + declaredLen w.before) }])

/-- The records with their payload offsets: contiguous, in subheader order, from `off` on (R204). -/
def withOffsets : Nat → List WalkRec → List DecRec
  | _, [] => []
  | off, r :: rest =>
      { cls := r.cls, lcid := r.lcid, len := BitVec.ofNat 16 r.len, off := BitVec.ofNat 16 off }
        :: withOffsets (off + r.len) rest

/-- The parse of a transport block `D` of `N` bytes: the records, or the first parse error (R201-R204). -/
def parse (dir : Dir) (maxRx n : Nat) (d : Bytes) : Except ErrCode (List DecRec) :=
  match walkHeader dir maxRx d 0 [] with
  | .error e => .error e
  | .ok w =>
    match resolveLengths n w with
    | .error e => .error e
    | .ok recs => .ok (withOffsets w.hend recs)

/-- READ of the data-in list `d` (R201), with `ParseFail` (R205) and `CommitParse` (R204). A failed parse
keeps no record. -/
def readBody (dir : Dir) (n : Nat) (d : Bytes) (s : State) : State × Ret :=
  if s.refusesDin n d then fail .arg (-1) s
  else
    match parse dir s.params.maxSubhRx n d with
    | .error e =>
        fail e (-1) { s with
          dec := { s.dec with dir := dir, n := BitVec.ofNat 16 n, data := d, valid := false, nrec := 0, err := e } }
    | .ok recs =>
        ok recs.length { s with
          dec := { dir := dir, n := BitVec.ofNat 16 n, data := d, valid := true,
                   nrec := BitVec.ofNat 6 recs.length, recs := recs, err := .ok } }

/-- READ at the command port, with the data-in list of the command (R81, R201). -/
def execRead (dir : Dir) (n : Nat) (s : State) : Host.Outcome State Fault Refusal :=
  complete (readBody dir n s.host.din s)

end Sys2Proof.Machine
end

