-- ==== Sys2Proof/Machine/Demux.lean ====
section
/-! DEFINITION. The demultiplexer DL_TB (45_demux.md R300-R306). -/

namespace Sys2Proof.Machine

open Sys2Proof.Config

/-- `Dispatch(rec)` (R302): the state after, and 1 if an SDU was delivered. -/
def dispatch (r : DecRec) (s : State) : State × Nat :=
  match r.cls with
  | .sdu =>
      if r.len.toNat = 0 then (emitEvent (.diagEmptySdu r.lcid) s, 0)
      else if (s.lch r.lcid.toNat).active = false then (emitEvent (.diagUnknownLcid r.lcid) s, 0)
      else (emitEvent (.sdu r.lcid r.len) (sinkWritePdu r.lcid.toNat (s.decPayload r) s), 1)
  | .ce .conres => (emitEvent (.conres (conresId (s.decPayload r))) s, 0)
  | .ce .ta => (emitEvent (.ta (taValue (s.decPayload r))) s, 0)
  | .ce .drx => (emitEvent .drx s, 0)
  | .ce .shortBsr => (s, 0)
  | .ce .longBsr => (s, 0)
  | .ce .truncBsr => (s, 0)
  | .ce .phr => (s, 0)
  | .ce .crnti => (s, 0)
  | .pad => (s, 0)

/-- The records dispatched in subheader order, and the number of SDUs delivered (R300, R305). -/
def dispatchAll : List DecRec → State → State × Nat
  | [], s => (s, 0)
  | r :: rest, s =>
      ((dispatchAll rest (dispatch r s).1).1, (dispatch r s).2 + (dispatchAll rest (dispatch r s).1).2)

/-- `ParseDrop(e)` (R301): one diagnostic, nothing delivered. -/
def parseDrop (e : ErrCode) (s : State) : State × Ret :=
  fail e (-1) (emitEvent (.diagParse e.code) s)

/-- DL_TB once the parse has succeeded: dispatch of `DEC.REC[0..NREC)`; `RES` counts the SDUs delivered
(R300). -/
def dlTbDeliver (s : State) : State × Ret :=
  ok (dispatchAll (s.dec.recs.take s.dec.nrec.toNat) s).2
    (dispatchAll (s.dec.recs.take s.dec.nrec.toNat) s).1

/-- DL_TB of the data-in list `d` (R300). -/
def dlTbBody (n : Nat) (d : Bytes) (s : State) : State × Ret :=
  if s.refusesDin n d then fail .arg (-1) s
  else if (readBody .dl n d s).2.err ≠ .ok then parseDrop (readBody .dl n d s).2.err (readBody .dl n d s).1
  else dlTbDeliver (readBody .dl n d s).1

/-- DL_TB at the command port, with the data-in list of the command (R81, R300). -/
def execDlTb (n : Nat) (s : State) : Host.Outcome State Fault Refusal :=
  complete (dlTbBody n s.host.din s)

end Sys2Proof.Machine
end

