-- ==== Sys2Proof/Machine/Bearer.lean ====
section
/-! DEFINITION. The channel configuration commands and the TTI tick (44_mux.md R250-R257). -/

namespace Sys2Proof.Machine

open Sys2Proof.Config

/-- A configuration command on one channel: an LCID above `LCID_SDU_MAX` fails with `E_ARG` (R251-R253). -/
def onChannel (lcid : Nat) (t : State) (s : State) : State × Ret :=
  if lcid > lcidSduMax then fail .arg (-1) s else ok 1 t

/-- The writes of ADD_BEARER (R251): only an inactive channel is changed. -/
def bindChannel (lcid : Nat) (s : State) : State :=
  if (s.lch lcid).active then s
  else (s.setLch lcid { s.lch lcid with active := true }).setTok lcid 0

/-- ADD_BEARER at the command port (R251). -/
def execAddBearer (lcid : Nat) (s : State) : Host.Outcome State Fault Refusal :=
  complete (onChannel lcid (bindChannel lcid s) s)

/-- SET_PRIORITY at the command port (R252). -/
def execSetPriority (lcid : Nat) (prio : BitVec 8) (pbr bsd : BitVec 32) (s : State) :
    Host.Outcome State Fault Refusal :=
  complete (onChannel lcid (s.setLch lcid { s.lch lcid with prio := prio, pbr := pbr, bsd := bsd }) s)

/-- SET_LCG at the command port (R253). -/
def execSetLcg (lcid : Nat) (lcg : BitVec 2) (s : State) : Host.Outcome State Fault Refusal :=
  complete (onChannel lcid (s.setLch lcid { s.lch lcid with lcg := lcg }) s)

/-- RESET_BEARERS at the command port (R254): every channel at its reset value, every token count 0. -/
def execResetBearers (s : State) : Host.Outcome State Fault Refusal :=
  complete (ok 1 { s with cfg := resetCfg, mux := { s.mux with tok := Vector.replicate 11 0 } })

/-- The token count of channel `l` after a tick (R256): the sum and the cap exactly, then `sat32`. Inactive
and unlimited channels keep theirs. -/
def tickedTok (s : State) (l : Nat) : BitVec 32 :=
  if (s.lch l).active && s.limited l then
    BitVec.ofInt 32 (sat32 (min (s.tokOf l + ((s.lch l).pbr.toNat : Int))
      (((s.lch l).pbr.toNat * (s.lch l).bsd.toNat : Nat) : Int)))
  else (s.mux.tok[l]?).getD 0

/-- TTI_TICK at the command port (R256). The `TTI` operand is read by no rule. -/
def execTtiTick (_tti : BitVec 32) (s : State) : Host.Outcome State Fault Refusal :=
  complete (ok 1 { s with mux := { s.mux with tok := Vector.ofFn (fun (l : Fin 11) => tickedTok s l.val) } })

end Sys2Proof.Machine
end

