-- ==== Sys2Proof/Machine/Build.lean ====
section
/-! DEFINITION. The PDU builder commands (40_pdu_build.md R120-R139): INIT_TX, NEW_SUBH, the setters and the
capacity queries. A `…Body` is the command's pseudocode as a sub-step (R258); the `exec…` of the same
command ends it at the command port. -/

namespace Sys2Proof.Machine

open Sys2Proof.Config

/-- INIT_TX (R123). -/
def initTxBody (dir : Dir) (n : Nat) (s : State) : State × Ret :=
  if n < 1 ∨ n > s.params.maxTbBytes then fail .tbSize (-1) { s with enc := s.enc.toIdle }
  else ok n { s with
    enc := { s.enc.start .build dir (BitVec.ofNat 16 n) (BitVec.ofNat 16 n) with tbValid := false } }

/-- INIT_TX at the command port (R123). -/
def execInitTx (dir : Dir) (n : Nat) (s : State) : Host.Outcome State Fault Refusal :=
  complete (initTxBody dir n s)

/-- NEW_SUBH (R124). -/
def newSubhBody (s : State) : State × Ret :=
  if s.enc.mode ≠ .build then fail .state (-1) s
  else if s.enc.isOpen then ok 1 s
  else if s.enc.nsub.toNat = s.params.maxSubh then fail .noSubh (-1) s
  else ok 1 { s with enc := { s.enc with isOpen := true } }

/-- NEW_SUBH at the command port (R124). -/
def execNewSubh (s : State) : Host.Outcome State Fault Refusal := complete (newSubhBody s)

/-- The answer of the source is refused: `k < 0`, `k > REQ`, or `len(bytes) != k` (R126). -/
def badAnswer (req : Nat) (a : ReadAnswer) : Bool :=
  decide (a.k < 0) || decide (a.k > (req : Int)) || decide ((a.bytes.length : Int) ≠ a.k)

/-- The end of SET_SDU, once the source has answered (R126). -/
def setSduAnswered (lcid req : Nat) (a : ReadAnswer) (s : State) : State × Ret :=
  if badAnswer req a then fail .src (-1) s
  else if a.k = 0 then ok 0 s
  else ok a.k { s with enc := s.enc.commitSdu lcid a.k.toNat a.bytes }

/-- SET_SDU (R126). The source is called only after the space check has passed (R68). -/
def setSduBody (lcid req : Nat) (s : State) : State × Ret :=
  match setterCheck s with
  | some e => fail e (-1) s
  | none =>
    if lcid > lcidSduMax then fail .arg (-1) s
    else if req = 0 then ok 0 s
    else if s.enc.sduSpace < (req : Int) then fail .space (-1) s
    else setSduAnswered lcid req (srcReadPdu lcid req s).1 (srcReadPdu lcid req s).2

/-- SET_SDU at the command port (R126). -/
def execSetSdu (lcid req : Nat) (s : State) : Host.Outcome State Fault Refusal :=
  complete (setSduBody lcid req s)

/-- `B[LCG]`: the count of the group that a SHORT or TRUNC report carries (R128). -/
def groupOperand (lcg : BitVec 2) (b0 b1 b2 b3 : Nat) : Nat :=
  match lcg.toNat with
  | 0 => b0
  | 1 => b1
  | 2 => b2
  | _ => b3

/-- SET_BSR (R128). -/
def setBsrBody (fmt : BsrFmt) (lcg : BitVec 2) (b0 b1 b2 b3 : Nat) (s : State) : State × Ret :=
  match setterCheck s with
  | some e => fail e (-1) s
  | none =>
    match fmt with
    | .reserved => fail .arg (-1) s
    | .long => setCe .longBsr
        (longBsrBytes (s.bsrLevel6 b0) (s.bsrLevel6 b1) (s.bsrLevel6 b2) (s.bsrLevel6 b3)) s
    | .short => setCe .shortBsr (shortBsrBytes lcg (s.bsrLevel6 (groupOperand lcg b0 b1 b2 b3))) s
    | .trunc => setCe .truncBsr (shortBsrBytes lcg (s.bsrLevel6 (groupOperand lcg b0 b1 b2 b3))) s

/-- SET_BSR at the command port (R128). -/
def execSetBsr (fmt : BsrFmt) (lcg : BitVec 2) (b0 b1 b2 b3 : Nat) (s : State) :
    Host.Outcome State Fault Refusal :=
  complete (setBsrBody fmt lcg b0 b1 b2 b3 s)

/-- SET_PHR (R129). -/
def setPhrBody (ph : Int) (s : State) : State × Ret :=
  ceSetter .phr (phrBytes (BitVec.ofNat 6 (phrLevelOf ph))) s

/-- SET_PHR at the command port (R129). -/
def execSetPhr (ph : Int) (s : State) : Host.Outcome State Fault Refusal := complete (setPhrBody ph s)

/-- SET_CRNTI (R130). -/
def setCrntiBody (rnti : BitVec 16) (s : State) : State × Ret := ceSetter .crnti (crntiBytes rnti) s

/-- SET_CRNTI at the command port (R130). -/
def execSetCrnti (rnti : BitVec 16) (s : State) : Host.Outcome State Fault Refusal :=
  complete (setCrntiBody rnti s)

/-- SET_CONRES (R131). -/
def setConresBody (id : BitVec 48) (s : State) : State × Ret := ceSetter .conres (conresBytes id) s

/-- SET_CONRES at the command port (R131). -/
def execSetConres (id : BitVec 48) (s : State) : Host.Outcome State Fault Refusal :=
  complete (setConresBody id s)

/-- SET_TA (R132). -/
def setTaBody (ta : BitVec 6) (s : State) : State × Ret := ceSetter .ta (taBytes ta) s

/-- SET_TA at the command port (R132). -/
def execSetTa (ta : BitVec 6) (s : State) : Host.Outcome State Fault Refusal := complete (setTaBody ta s)

/-- A capacity query: outside BUILD it fails with `RES` = 0 (R120); in BUILD it answers `r`. -/
def queryBody (r : Int) (s : State) : State × Ret :=
  if s.enc.mode ≠ .build then fail .state 0 s else ok r s

/-- HAS_SPACE_SDU (R133). -/
def hasSpaceSduBody (nb : Nat) (s : State) : State × Ret :=
  queryBody (if s.enc.sduSpace ≥ (nb : Int) then 1 else 0) s

/-- HAS_SPACE_SDU at the command port (R133). -/
def execHasSpaceSdu (nb : Nat) (s : State) : Host.Outcome State Fault Refusal :=
  complete (hasSpaceSduBody nb s)

/-- HAS_SPACE_CE (R134). -/
def hasSpaceCeBody (nb : Nat) (s : State) : State × Ret :=
  queryBody (if s.enc.ceFits nb then 1 else 0) s

/-- HAS_SPACE_CE at the command port (R134). -/
def execHasSpaceCe (nb : Nat) (s : State) : Host.Outcome State Fault Refusal :=
  complete (hasSpaceCeBody nb s)

/-- SDU_SPACE at the command port (R135). -/
def execSduSpace (s : State) : Host.Outcome State Fault Refusal :=
  complete (queryBody s.enc.sduSpace s)

/-- REM_SIZE at the command port (R136). -/
def execRemSize (s : State) : Host.Outcome State Fault Refusal :=
  complete (queryBody s.enc.rem.toNat s)

end Sys2Proof.Machine
end

