-- ==== Sys2Proof/Machine/Write.lean ====
section
/-! DEFINITION. The PDU finaliser WRITE (41_pdu_write.md R170-R181) and the in-place buffer layout that it
stands for (20_memory.md R72). -/

namespace Sys2Proof.Machine

open Sys2Proof.Config

/-- What `PadRegime` decides (R171): a multi-byte padding subheader or not, how many 1-byte padding
subheaders stand at the front, how many zero bytes trail. -/
structure PadPlan where
  multi : Bool
  p12 : Nat
  padn : Nat
  deriving DecidableEq, Repr, Inhabited

/-- `PadRegime(REM, ce_only)` (R171). In a CE-only PDU no SDU needs a longer header, so `lastExtra` is 0. -/
def Enc.padRegime (e : Enc) : PadPlan :=
  if e.rem.toNat > 2 then { multi := true, p12 := 0, padn := e.rem.toNat - 1 - e.lastExtra }
  else { multi := false, p12 := e.rem.toNat, padn := 0 }

/-- The committed CE records, in index order (R172). -/
def Enc.ceRecs (e : Enc) : List SubRec := e.committed.filter (fun r => !recIsSdu r)

/-- The committed SDU records, in index order (R172). -/
def Enc.sduRecs (e : Enc) : List SubRec := e.committed.filter recIsSdu

/-- `LayoutList(multi, p12)`: the header's subheader order, front to back (R172). -/
def Enc.layoutList (p : PadPlan) (e : Enc) : List LayoutItem :=
  List.replicate p.p12 .pad ++ e.ceRecs.map .entry ++ e.sduRecs.map .entry
    ++ (if p.multi then [.pad] else [])

/-- `CePayloadBytes()`: the payloads of the CE records, in index order (R174). -/
def Enc.cePayloadBytes (e : Enc) : Bytes := e.ceRecs.flatMap recPay

/-- A fatal construction error: the PDU is aborted and the sticky `STATUS.FAULT` is set (R176, R177, R323). -/
def abortPdu (s : State) : State := { s with enc := s.enc.toIdle, fault := true }

/-- `Commit(out)`: the transport block is produced (R178); it is part of the observation (R17). -/
def commitTb (out : Bytes) (s : State) : State :=
  emit (.tbOut out) { s with enc := { s.enc with tbOut := out, mode := .done, tbValid := true } }

/-- `out = hdr ++ cep ++ SDU_DATA ++ zeros(padn)` (R175). -/
def assembleTb (hdr cep sdu : Bytes) (padn : Nat) : Bytes :=
  hdr ++ cep ++ sdu ++ List.replicate padn 0

/-- WRITE from the open slot's drop on: `ReserveCheck` (R177), `SizeCheck` (R176), `Commit` (R178). -/
def finaliseTb (hdr cep : Bytes) (padn : Nat) (s : State) : State × Ret :=
  if hdr.length + cep.length > s.params.hdrReserve then fail .hdrReserve (-1) (abortPdu s)
  else if hdr.length + cep.length + s.enc.sduTotal + padn ≠ s.enc.n.toNat then
    fail .size (-1) (abortPdu s)
  else ok s.enc.n.toNat (commitTb (assembleTb hdr cep s.enc.sduData padn) s)

/-- The header of the PDU under construction, as WRITE lays it out (R171-R173). -/
def Enc.headerBytes (e : Enc) : Bytes := subheaderBytes (e.layoutList e.padRegime)

/-- WRITE (R170). An open, unfilled slot is dropped before the checks. -/
def writeBody (s : State) : State × Ret :=
  if s.enc.mode ≠ .build then fail .state (-1) s
  else
    finaliseTb s.enc.headerBytes s.enc.cePayloadBytes s.enc.padRegime.padn
      { s with enc := { s.enc with isOpen := false } }

/-- WRITE at the command port (R170). -/
def execWrite (s : State) : Host.Outcome State Fault Refusal := complete (writeBody s)

/-- Bytes placed at an offset of a buffer (R72). -/
def placeAt (off : Nat) (bytes buf : Bytes) : Bytes :=
  buf.take off ++ bytes ++ buf.drop (off + bytes.length)

/-- The in-place construction of rule R72 in a buffer whose SDU region starts at `reserve`: the SDU bytes at
the boundary, the header and CE payloads back to back below it, the zero padding above the SDU bytes. -/
def inPlaceBuffer (reserve : Nat) (hdr cep sdu : Bytes) (padn : Nat) (buf : Bytes) : Bytes :=
  placeAt (reserve + sdu.length) (List.replicate padn 0)
    (placeAt (reserve - (hdr.length + cep.length)) (hdr ++ cep) (placeAt reserve sdu buf))

/-- `TB_OUT` read out of the in-place buffer: the `n` bytes from `HDR_RESERVE - (hdr + ce)` (R72). -/
def inPlaceTb (reserve : Nat) (hdr cep sdu : Bytes) (padn n : Nat) (buf : Bytes) : Bytes :=
  ((inPlaceBuffer reserve hdr cep sdu padn buf).drop (reserve - (hdr.length + cep.length))).take n

end Sys2Proof.Machine
end

