-- ==== Sys2Proof/Machine/Grant.lean ====
section
/-! DEFINITION. The uplink grant UL_GRANT (44_mux.md R255, R258-R275): the control-element phase, the two
service phases, the finalisation and the Msg3 buffer. -/

namespace Sys2Proof.Machine

open Sys2Proof.Config

/-- Channel `a` is served no later than `b`: the pairs `(PRIO, l)` in ascending order (R255). -/
abbrev servedBefore (s : State) (a b : Nat) : Prop :=
  (s.lch a).prio.toNat < (s.lch b).prio.toNat
    ∨ ((s.lch a).prio.toNat = (s.lch b).prio.toNat ∧ a ≤ b)

/-- Insert a channel into a list in service order (R255). -/
def insertChannel (s : State) (a : Nat) : List Nat → List Nat
  | [] => [a]
  | b :: rest =>
      if servedBefore s a b then a :: b :: rest
      else b :: insertChannel s a rest

/-- The active channels, ascending by LCID (R262). -/
def activeChannels (s : State) : List Nat := (List.range 11).filter (fun l => (s.lch l).active)

/-- `Order()`: the active channels ascending by `(PRIO, l)` (R255). -/
def serviceOrder (s : State) : List Nat := (activeChannels s).foldr (insertChannel s) []

/-- `Msg3Retx(N)` (R259): the stored copy becomes `TB_OUT`; no request, no token change. -/
def msg3RetxBody (n : Nat) (s : State) : State × Ret :=
  if s.mux.msg3.valid = false then fail .msg3None (-1) s
  else if s.mux.msg3.len.toNat ≠ n then fail .msg3Size (-1) s
  else ok n (emit (.tbOut s.mux.msg3.bytes) { s with
    enc := { s.enc.start .done .ul (BitVec.ofNat 16 n) 0 with tbOut := s.mux.msg3.bytes, tbValid := true } })

/-- `AddCE(setter, c, args)` (R263): a CE that does not fit, or finds the table full, is left out. -/
def addCe (c : Nat) (setter : State → State × Ret) (s : State) : State :=
  if s.enc.ceFits c = false then s
  else if (newSubhBody s).2.err ≠ .ok then (newSubhBody s).1
  else (setter (newSubhBody s).1).1

/-- Ask the sources of the listed channels for their pending counts, in order (R262). -/
def askCounts : List Nat → State → List (Nat × Nat) × State
  | [], s => ([], s)
  | l :: rest, s =>
      ((l, (srcBufferState l s).1) :: (askCounts rest (srcBufferState l s).2).1,
        (askCounts rest (srcBufferState l s).2).2)

/-- `S[g]`: the pending bytes of a group, saturated (R262). -/
def groupSum (s : State) (ps : List (Nat × Nat)) (g : BitVec 2) : Nat :=
  min satCount ((ps.filter (fun p => decide ((s.lch p.1).lcg = g))).map Prod.snd).sum

/-- The pending count a source has answered for a channel (R262). -/
def pendingOf (ps : List (Nat × Nat)) (l : Nat) : Nat :=
  ((ps.find? (fun p => decide (p.1 = l))).map Prod.snd).getD 0

/-- A chosen report: format, group, the four group counts (R262). -/
structure BsrChoice where
  fmt : BsrFmt
  lcg : BitVec 2
  s0 : Nat
  s1 : Nat
  s2 : Nat
  s3 : Nat
  deriving DecidableEq, Repr, Inhabited

/-- The groups with a positive count (R262). -/
def nonEmptyGroups (s : State) (ps : List (Nat × Nat)) : List (BitVec 2) :=
  ([0, 1, 2, 3] : List (BitVec 2)).filter (fun g => decide (groupSum s ps g > 0))

/-- The group of the highest-priority channel with data (R262). -/
def firstPendingGroup (s : State) (ps : List (Nat × Nat)) : BitVec 2 :=
  match (serviceOrder s).find? (fun l => decide (pendingOf ps l > 0)) with
  | some l => (s.lch l).lcg
  | none => 0

/-- `ChooseBsr()` from the answered counts; `none` where no format fits (R262). -/
def chooseBsr (s : State) (ps : List (Nat × Nat)) : Option BsrChoice :=
  let pick (fmt : BsrFmt) (g : BitVec 2) : BsrChoice :=
    { fmt := fmt, lcg := g, s0 := groupSum s ps 0, s1 := groupSum s ps 1, s2 := groupSum s ps 2,
      s3 := groupSum s ps 3 }
  if (nonEmptyGroups s ps).length > 1 then
    if s.enc.ceFits 3 then some (pick .long 0)
    else if s.enc.ceFits 1 then some (pick .trunc (firstPendingGroup s ps))
    else none
  else if s.enc.ceFits 1 then some (pick .short ((nonEmptyGroups s ps).headD 0))
  else none

/-- The C-RNTI step of `CePhase()` (R261). -/
def cePhaseCrnti (inc : Bool) (rnti : BitVec 16) (s : State) : State :=
  if inc then addCe 2 (setCrntiBody rnti) s else s

/-- The BSR step of `CePhase()` (R261, R262). -/
def cePhaseBsr (trig : Bool) (s : State) : State :=
  if trig then
    match chooseBsr (askCounts (activeChannels s) s).2 (askCounts (activeChannels s) s).1 with
    | none => (askCounts (activeChannels s) s).2
    | some c =>
        addCe (if c.fmt = .long then 3 else 1) (setBsrBody c.fmt c.lcg c.s0 c.s1 c.s2 c.s3)
          (askCounts (activeChannels s) s).2
  else s

/-- The PHR step of `CePhase()` (R261). -/
def cePhasePhr (trig : Bool) (ph : Int) (s : State) : State :=
  if trig then addCe 1 (setPhrBody ph) s else s

/-- The two phases of the assembly (R264, R265). -/
inductive Phase where
  | guaranteed
  | bestEffort
  deriving DecidableEq, Repr, Inhabited

/-- In the guaranteed phase a limited channel without tokens is not served (R264, R266). -/
def tokensExhausted (ph : Phase) (l : Nat) (s : State) : Bool :=
  decide (ph = .guaranteed) && s.limited l && decide (s.tokOf l ≤ 0)

/-- The request of one pass: `min(p, s)`, and in the guaranteed phase at most the tokens (R266). -/
def requestSize (ph : Phase) (l pending : Nat) (space : Int) (s : State) : Nat :=
  if decide (ph = .guaranteed) && s.limited l then min (min pending space.toNat) (s.tokOf l).toNat
  else min pending space.toNat

/-- The committed bytes of a limited channel are taken from its tokens, in both phases (R266, R271). -/
def consumeTokens (l : Nat) (k : Int) (s : State) : State :=
  if s.limited l then s.setTok l (s.tokOf l - k) else s

/-- How one pass of the service loop ends (R266): the channel is done, the assembly ends, or another pass
follows. -/
inductive PassEnd where
  | channelDone
  | stop
  | again
  deriving DecidableEq, Repr, Inhabited

/-- The end of a pass, from the call of SET_SDU on (R266). -/
def servePull (l req : Nat) (s : State) : State × PassEnd :=
  if (setSduBody l req s).2.err ≠ .ok ∨ (setSduBody l req s).2.res ≤ 0 then
    ((setSduBody l req s).1, .channelDone)
  else (consumeTokens l (setSduBody l req s).2.res (setSduBody l req s).1, .again)

/-- A pass once the source has answered a pending count `p > 0` (R266): the slot, then the SDU. -/
def serveAllot (l req : Nat) (s : State) : State × PassEnd :=
  if (newSubhBody s).2.err ≠ .ok then ((newSubhBody s).1, .stop)
  else servePull l req (newSubhBody s).1

/-- One pass of `Serve(l, ph)` (R266). -/
def servePass (ph : Phase) (l : Nat) (s : State) : State × PassEnd :=
  if tokensExhausted ph l s then (s, .channelDone)
  else if s.enc.sduSpace ≤ 0 then (s, .stop)
  else if (srcBufferState l s).1 = 0 then ((srcBufferState l s).2, .channelDone)
  else
    serveAllot l (requestSize ph l (srcBufferState l s).1 s.enc.sduSpace s) (srcBufferState l s).2

/-- `Serve(l, ph)` (R266): the state after the loop, and `stop`. Each pass that goes on commits one record, so
`MAX_SUBH + 1` passes are never exceeded; `fuel` bounds the recursion (DEDUCED, log entry 11). -/
def serve (ph : Phase) (l : Nat) : Nat → State → State × Bool
  | 0, s => (s, false)
  | fuel + 1, s =>
    match servePass ph l s with
    | (s1, .channelDone) => (s1, false)
    | (s1, .stop) => (s1, true)
    | (s1, .again) => serve ph l fuel s1

/-- `Phase1()` and `Phase2()` over the service order (R264, R265). -/
def servePhase (ph : Phase) : List Nat → State → State × Bool
  | [], s => (s, false)
  | l :: rest, s =>
    if tokensExhausted ph l s then servePhase ph rest s
    else if (serve ph l (s.params.maxSubh + 1) s).2 then serve ph l (s.params.maxSubh + 1) s
    else servePhase ph rest (serve ph l (s.params.maxSubh + 1) s).1

/-- Phase 1, then phase 2 unless the assembly has stopped (R258, R264, R265). -/
def servePhases (s : State) : State :=
  if (servePhase .guaranteed (serviceOrder s) s).2 then (servePhase .guaranteed (serviceOrder s) s).1
  else
    (servePhase .bestEffort (serviceOrder (servePhase .guaranteed (serviceOrder s) s).1)
      (servePhase .guaranteed (serviceOrder s) s).1).1

/-- The Msg3 store of `Finalise()` (R267, R273). -/
def storeMsg3 (msg3 : Bool) (n : Nat) (s : State) : State :=
  if msg3 then
    { s with mux := { s.mux with msg3 := { valid := true, len := BitVec.ofNat 16 n, bytes := s.enc.tbOut } } }
  else s

/-- `Finalise()` (R267): a fatal code of WRITE is passed up. -/
def grantFinalise (n : Nat) (msg3 : Bool) (s : State) : State × Ret :=
  if (writeBody s).2.err ≠ .ok then fail (writeBody s).2.err (-1) (writeBody s).1
  else ok n (storeMsg3 msg3 n (writeBody s).1)

/-- The new PDU of a grant, before WRITE: INIT_TX, the control elements, the two phases (R258, R260-R265). -/
def grantAssemble (n : Nat) (crntiInc bsrTrig phrTrig : Bool) (rnti : BitVec 16) (ph : Int) (s : State) :
    State :=
  servePhases (cePhasePhr phrTrig ph (cePhaseBsr bsrTrig (cePhaseCrnti crntiInc rnti (initTxBody .ul n s).1)))

/-- UL_GRANT (R258). -/
def ulGrantBody (n : Nat) (msg3 retx crntiInc bsrTrig phrTrig : Bool) (rnti : BitVec 16) (ph : Int)
    (s : State) : State × Ret :=
  if retx then msg3RetxBody n s
  else if n < 1 ∨ n > s.params.maxTbBytes then fail .tbSize (-1) { s with enc := s.enc.toIdle }
  else grantFinalise n msg3 (grantAssemble n crntiInc bsrTrig phrTrig rnti ph s)

/-- UL_GRANT at the command port (R258). -/
def execUlGrant (n : Nat) (msg3 retx crntiInc bsrTrig phrTrig : Bool) (rnti : BitVec 16) (ph : Int)
    (s : State) : Host.Outcome State Fault Refusal :=
  complete (ulGrantBody n msg3 retx crntiInc bsrTrig phrTrig rnti ph s)

end Sys2Proof.Machine
end

