-- ==== Sys2Proof/Machine/Level.lean ====
section
/-! DEFINITION. The level commands BSR_LEVEL and PHR_LEVEL (43_level_tables.md R233, R235). -/

namespace Sys2Proof.Machine

/-- BSR_LEVEL at the command port (R233): legal in every mode, no error. -/
def execBsrLevel (b : Nat) (s : State) : Host.Outcome State Fault Refusal :=
  complete (ok (bsrLevelOf s.params.bsrThresh b) s)

/-- PHR_LEVEL at the command port (R235): legal in every mode, no error. -/
def execPhrLevel (ph : Int) (s : State) : Host.Outcome State Fault Refusal :=
  complete (ok (phrLevelOf ph) s)

end Sys2Proof.Machine
end

