-- ==== Sys2Proof/Machine/Reset.lean ====
section
/-! DEFINITION. SOFT_RESET (70_reset_and_hazards.md R351). -/

namespace Sys2Proof.Machine

open Sys2Proof.Config

/-- SOFT_RESET (R351): `ENC`, `DEC` and `MUX` at their reset values, `STATUS.FAULT` cleared, `CFG` kept. The
contents that rule R39 leaves unspecified are free values; each reset takes a draw of its own. -/
def softResetBody (s : State) : State × Ret :=
  ok 1 { s with
    enc := Enc.resetWith (Params.drawContents s.params s.agents.draws)
    dec := Dec.resetWith (Params.drawContents s.params s.agents.draws)
    mux := Mux.resetWith (Params.drawContents s.params s.agents.draws)
    fault := false
    agents := { s.agents with draws := s.agents.draws + 1 } }

/-- SOFT_RESET at the command port (R351). -/
def execSoftReset (s : State) : Host.Outcome State Fault Refusal := complete (softResetBody s)

end Sys2Proof.Machine
end

