-- ==== Sys2Proof/Machine/Dispatch.lean ====
section
/-! DEFINITION. The dispatch of a decoded command to its meaning: one arm per row of
spec/opcode_table.json. -/

namespace Sys2Proof.Machine

-- The meaning of each command at the command port (R82).
def exec (i : Instr) (s : State) : Host.Outcome State Fault Refusal :=
  match i with
  | .initTx dir n => Sys2Proof.Machine.execInitTx dir n s
  | .newSubh => Sys2Proof.Machine.execNewSubh s
  | .setSdu lcid req => Sys2Proof.Machine.execSetSdu lcid req s
  | .setBsr fmt lcg b0 b1 b2 b3 => Sys2Proof.Machine.execSetBsr fmt lcg b0 b1 b2 b3 s
  | .setPhr ph => Sys2Proof.Machine.execSetPhr ph s
  | .setCrnti rnti => Sys2Proof.Machine.execSetCrnti rnti s
  | .setConres id => Sys2Proof.Machine.execSetConres id s
  | .setTa ta => Sys2Proof.Machine.execSetTa ta s
  | .hasSpaceSdu nb => Sys2Proof.Machine.execHasSpaceSdu nb s
  | .hasSpaceCe nb => Sys2Proof.Machine.execHasSpaceCe nb s
  | .sduSpace => Sys2Proof.Machine.execSduSpace s
  | .remSize => Sys2Proof.Machine.execRemSize s
  | .write => Sys2Proof.Machine.execWrite s
  | .read dir n => Sys2Proof.Machine.execRead dir n s
  | .bsrLevel b => Sys2Proof.Machine.execBsrLevel b s
  | .phrLevel ph => Sys2Proof.Machine.execPhrLevel ph s
  | .addBearer lcid => Sys2Proof.Machine.execAddBearer lcid s
  | .setPriority lcid prio pbr bsd => Sys2Proof.Machine.execSetPriority lcid prio pbr bsd s
  | .setLcg lcid lcg => Sys2Proof.Machine.execSetLcg lcid lcg s
  | .resetBearers => Sys2Proof.Machine.execResetBearers s
  | .ttiTick tti => Sys2Proof.Machine.execTtiTick tti s
  | .ulGrant n msg3 retx crnti bsr phr rnti ph => Sys2Proof.Machine.execUlGrant n msg3 retx crnti bsr phr rnti ph s
  | .dlTb n => Sys2Proof.Machine.execDlTb n s
  | .softReset => Sys2Proof.Machine.execSoftReset s

end Sys2Proof.Machine
end

