-- ==== Sys2Proof/Machine/Step.lean ====
section
/-! DEFINITION. One step of the machine: the host issues its next command and the block executes it (R5,
R6, R40). -/

namespace Sys2Proof.Machine

/-- The end of a command at the command port, on each outcome (R17, R40). -/
def retireOutcome : Host.Outcome State Fault Refusal → Host.Outcome State Fault Refusal
  | .next s => .next (retire s)
  | .fault r => .fault r
  | .refused r => .refused r

/-- The meaning of a word: that of the command it decodes to, or `E_ILLEGAL` (R80, R83). -/
def execWord (w : Word) (s : State) : Host.Outcome State Fault Refusal :=
  match decode w with
  | .ok i => exec i s
  | .error _ => execIllegal s

/-- One command of the host's list, from its word to its `(RES, ERR)` (R5, R17, R40). Where the list is
exhausted the run has ended (R17). -/
def step (s : State) : Host.Outcome State Fault Refusal :=
  match fetch s with
  | none => .fault .commandListEnded
  | some (w, s1) => retireOutcome (execWord w s1)

/-- The data-in list that makes a bare word a complete command: `N` zero bytes for READ and DL_TB (R81), none
for every other word. -/
def zeroDin (w : Word) : Bytes :=
  match decode w with
  | .ok i => List.replicate (i.dinField.getD 0) 0
  | .error _ => []

/-- `s` with the command whose table bits are `w` put in front of the host's command list, where `step` takes
its next command. -/
def State.withFetchWord (s : State) (nbits w : Nat) : State :=
  { s with host := { s.host with
      cmds := { word := BitVec.ofNat 128 (w % 2 ^ nbits), din := zeroDin (BitVec.ofNat 128 (w % 2 ^ nbits)) }
        :: s.host.cmds } }

end Sys2Proof.Machine
end

