-- ==== Sys2Proof/Machine/Assembler.lean ====
section
/-! DEFINITION. The assembler of Part D of 30_encoding.md: one line of text to the commands the host issues,
with the pseudo-instructions (R105, R106). It is the host's tool: no step of the block reads it. -/

namespace Sys2Proof.Machine

/-- Why a line is refused (R105). -/
inductive AsmError where
  | unknownMnemonic
  | badOperands
  | doesNotFit
  deriving DecidableEq, Repr, Inhabited

/-- One line: a command with its data-in list, or a pseudo-instruction (R105, R106). -/
inductive AsmStmt where
  | command (i : Instr) (din : Bytes)
  | addSdu (lcid n : Nat)
  | addShortBsr (g : BitVec 2) (b : Nat)
  | addLongBsr (b0 b1 b2 b3 : Nat)
  | addTruncBsr (g : BitVec 2) (b : Nat)
  | addPhr (ph : Int)
  | addCrnti (rnti : BitVec 16)
  | addConres (id : BitVec 48)
  | addTa (ta : BitVec 6)
  deriving DecidableEq, Repr, Inhabited

/-- SET_BSR of one group: the count `b` in position `g`, 0 elsewhere (R106). -/
def oneGroupBsr (fmt : BsrFmt) (g : BitVec 2) (b : Nat) : Instr :=
  .setBsr fmt g (if g = 0 then b else 0) (if g = 1 then b else 0) (if g = 2 then b else 0)
    (if g = 3 then b else 0)

/-- The commands a line expands to, in order (R106). -/
def AsmStmt.expand : AsmStmt → List (Instr × Bytes)
  | .command i din => [(i, din)]
  | .addSdu lcid n => [(.newSubh, []), (.setSdu lcid n, [])]
  | .addShortBsr g b => [(.newSubh, []), (oneGroupBsr .short g b, [])]
  | .addLongBsr b0 b1 b2 b3 => [(.newSubh, []), (.setBsr .long 0 b0 b1 b2 b3, [])]
  | .addTruncBsr g b => [(.newSubh, []), (oneGroupBsr .trunc g b, [])]
  | .addPhr ph => [(.newSubh, []), (.setPhr ph, [])]
  | .addCrnti rnti => [(.newSubh, []), (.setCrnti rnti, [])]
  | .addConres id => [(.newSubh, []), (.setConres id, [])]
  | .addTa ta => [(.newSubh, []), (.setTa ta, [])]

/-- The commands of a line; an operand that does not fit its field, or a byte list whose length is not `N`,
is refused (R105). -/
def AsmStmt.assemble (a : AsmStmt) : Except AsmError (List Command) :=
  if a.expand.all (fun p => p.1.wellFormed && p.1.dinFits p.2) then
    .ok (a.expand.map (fun p => { word := encode p.1, din := p.2 }))
  else .error .doesNotFit

/-- The value of a digit in a base up to 16. -/
def digitVal (base : Nat) (c : Char) : Option Nat :=
  let v :=
    if '0' ≤ c ∧ c ≤ '9' then some (c.toNat - 48)
    else if 'a' ≤ c ∧ c ≤ 'f' then some (c.toNat - 87)
    else if 'A' ≤ c ∧ c ≤ 'F' then some (c.toNat - 55)
    else none
  v.filter (fun d => decide (d < base))

/-- The value of a string of digits, most significant first, after the value `acc`. -/
def digitsFrom (base : Nat) : Nat → List Char → Option Nat
  | acc, [] => some acc
  | acc, c :: rest => (digitVal base c).bind (fun d => digitsFrom base (acc * base + d) rest)

/-- The value of a non-empty string of digits. -/
def digits (base : Nat) (cs : List Char) : Option Nat :=
  if cs.isEmpty then none else digitsFrom base 0 cs

/-- A number: decimal, or hexadecimal after `0x` (R105). -/
def number : List Char → Option Nat
  | '0' :: 'x' :: rest => digits 16 rest
  | cs => digits 10 cs

/-- A non-negative dB value in units of 1/256: it must be a multiple of 1/256 (R105). -/
def dbMagnitude (cs : List Char) : Option Nat :=
  match cs.span (fun c => c ≠ '.') with
  | (whole, []) => (digits 10 whole).map (fun v => v * 256)
  | (whole, _ :: frac) =>
      (digits 10 (whole ++ frac)).bind fun v =>
        if frac = [] ∨ whole = [] ∨ v * 256 % 10 ^ frac.length ≠ 0 then none
        else some (v * 256 / 10 ^ frac.length)

/-- A dB value in units of 1/256, with an optional minus sign (R105). -/
def dbValue : List Char → Option Int
  | '-' :: rest => (dbMagnitude rest).map (fun v => -(v : Int))
  | cs => (dbMagnitude cs).map (fun v => (v : Int))

/-- A number that fits an unsigned field of `w` bits, as that field's bits (R105). -/
def fieldBits (w : Nat) (cs : List Char) : Option (BitVec w) :=
  (number cs).bind (fun v => if v < 2 ^ w then some (BitVec.ofNat w v) else none)

/-- `UL` or `DL` (R105). -/
def directionWord (cs : List Char) : Option Dir :=
  if cs = "UL".toList then some .ul else if cs = "DL".toList then some .dl else none

/-- `SHORT`, `LONG` or `TRUNC` (R105). -/
def formatWord (cs : List Char) : Option BsrFmt :=
  if cs = "SHORT".toList then some .short
  else if cs = "LONG".toList then some .long
  else if cs = "TRUNC".toList then some .trunc
  else none

/-- `INF` or a rate (R105). -/
def rateWord (cs : List Char) : Option (BitVec 32) :=
  if cs = "INF".toList then some Config.pbrInf else fieldBits 32 cs

/-- The operand is the word `w`: the rest of the operands, and whether it stood there (R105). -/
def optionWord (w : List Char) : List (List Char) → Bool × List (List Char)
  | x :: rest => if x = w then (true, rest) else (false, x :: rest)
  | [] => (false, [])

/-- The operand is `w` followed by a value: the value's text, and the rest of the operands (R105). -/
def optionValue (w : List Char) : List (List Char) → Option (List Char) × List (List Char)
  | x :: rest => if w.isPrefixOf x then (some (x.drop w.length), rest) else (none, x :: rest)
  | [] => (none, [])

/-- The optional operands of UL_GRANT, each at most once and in the order of rule R105. -/
def grantLine (n : Nat) (ops : List (List Char)) : Option Instr :=
  let m := optionWord "MSG3".toList ops
  let r := optionWord "RETX".toList m.2
  let c := optionValue "CRNTI=".toList r.2
  let b := optionWord "BSR".toList c.2
  let p := optionValue "PHR=".toList b.2
  if p.2 ≠ [] then none
  else
    (match c.1 with
      | none => some 0
      | some v => fieldBits 16 v).bind fun rnti =>
    (match p.1 with
      | none => some 0
      | some v => dbValue v).map fun ph =>
    .ulGrant n m.1 r.1 c.1.isSome b.1 p.1.isSome rnti ph

/-- Blanks at both ends are no part of an operand. -/
def trimBlanks (cs : List Char) : List Char :=
  ((cs.dropWhile (fun c => c = ' ' ∨ c = '\t')).reverse.dropWhile (fun c => c = ' ' ∨ c = '\t')).reverse

/-- The text split at commas. -/
def splitCommas : List Char → List (List Char)
  | [] => [[]]
  | c :: rest =>
      match splitCommas rest with
      | [] => [[c]]
      | x :: xs => if c = ',' then [] :: x :: xs else (c :: x) :: xs

/-- The operands of a line: split at commas, blanks trimmed; none for an empty text. -/
def operandList (cs : List Char) : List (List Char) :=
  if trimBlanks cs = [] then [] else (splitCommas cs).map trimBlanks

/-- A byte list `[b0, b1, ...]` (R105). -/
def byteListText (cs : List Char) : Option Bytes :=
  match trimBlanks cs with
  | '[' :: rest =>
      match rest.reverse with
      | ']' :: inner => (operandList inner.reverse).mapM (fieldBits 8)
      | _ => none
  | _ => none

/-- The text before the first `[`, and the text from it on. -/
def splitBytes (cs : List Char) : List Char × List Char := cs.span (fun c => c ≠ '[')

/-- The operands that stand before a data-in list: the text up to it ends in a comma (R105). -/
def operandsBefore (cs : List Char) : Option (List (List Char)) :=
  match (operandList cs).reverse with
  | [] :: rest => some rest.reverse
  | _ => none

/-- READ and DL_TB: their operands and their data-in list (R105). -/
def dataInLine (mn : List Char) (text : List Char) : Option AsmStmt :=
  (byteListText (splitBytes text).2).bind fun din =>
  (operandsBefore (splitBytes text).1).bind fun ops =>
  if mn = "READ".toList then
    match ops with
    | [d, n] => (directionWord d).bind fun dir => (number n).map fun n => .command (.read dir n) din
    | _ => none
  else
    match ops with
    | [n] => (number n).map fun n => .command (.dlTb n) din
    | _ => none

/-- A line whose mnemonic takes no operand (R105). -/
def bareLine (mn : List Char) : Option Instr :=
  if mn = "NEW_SUBH".toList then some .newSubh
  else if mn = "SDU_SPACE".toList then some .sduSpace
  else if mn = "REM_SIZE".toList then some .remSize
  else if mn = "WRITE".toList then some .write
  else if mn = "RESET_BEARERS".toList then some .resetBearers
  else if mn = "SOFT_RESET".toList then some .softReset
  else none

/-- A line whose mnemonic takes one operand (R105, R106). -/
def unaryLine (mn x : List Char) : Option AsmStmt :=
  let cmd (o : Option Instr) : Option AsmStmt := o.map (fun i => .command i [])
  if mn = "SET_PHR".toList then cmd ((dbValue x).map .setPhr)
  else if mn = "SET_CRNTI".toList then cmd ((fieldBits 16 x).map .setCrnti)
  else if mn = "SET_CONRES".toList then cmd ((fieldBits 48 x).map .setConres)
  else if mn = "SET_TA".toList then cmd ((fieldBits 6 x).map .setTa)
  else if mn = "HAS_SPACE_SDU".toList then cmd ((number x).map .hasSpaceSdu)
  else if mn = "HAS_SPACE_CE".toList then cmd ((number x).map .hasSpaceCe)
  else if mn = "BSR_LEVEL".toList then cmd ((number x).map .bsrLevel)
  else if mn = "PHR_LEVEL".toList then cmd ((dbValue x).map .phrLevel)
  else if mn = "ADD_BEARER".toList then cmd ((number x).map .addBearer)
  else if mn = "TTI_TICK".toList then cmd ((fieldBits 32 x).map .ttiTick)
  else if mn = "ADD_PHR".toList then (dbValue x).map .addPhr
  else if mn = "ADD_CRNTI".toList then (fieldBits 16 x).map .addCrnti
  else if mn = "ADD_CONRES".toList then (fieldBits 48 x).map .addConres
  else if mn = "ADD_TA".toList then (fieldBits 6 x).map .addTa
  else none

/-- A line whose mnemonic takes two operands (R105, R106). -/
def binaryLine (mn x y : List Char) : Option AsmStmt :=
  if mn = "INIT_TX".toList then
    (directionWord x).bind fun dir => (number y).map fun n => .command (.initTx dir n) []
  else if mn = "SET_SDU".toList then
    (number x).bind fun l => (number y).map fun n => .command (.setSdu l n) []
  else if mn = "SET_LCG".toList then
    (number x).bind fun l => (fieldBits 2 y).map fun g => .command (.setLcg l g) []
  else if mn = "ADD_SDU".toList then (number x).bind fun l => (number y).map fun n => .addSdu l n
  else if mn = "ADD_SHORT_BSR".toList then
    (fieldBits 2 x).bind fun g => (number y).map fun b => .addShortBsr g b
  else if mn = "ADD_TRUNC_BSR".toList then
    (fieldBits 2 x).bind fun g => (number y).map fun b => .addTruncBsr g b
  else none

/-- A line whose mnemonic takes more operands (R105, R106). -/
def longLine (mn : List Char) (ops : List (List Char)) : Option AsmStmt :=
  if mn = "SET_BSR".toList then
    match ops with
    | [f, g, b0, b1, b2, b3] =>
        (formatWord f).bind fun f => (fieldBits 2 g).bind fun g => (number b0).bind fun b0 =>
        (number b1).bind fun b1 => (number b2).bind fun b2 => (number b3).map fun b3 =>
        .command (.setBsr f g b0 b1 b2 b3) []
    | _ => none
  else if mn = "SET_PRIORITY".toList then
    match ops with
    | [l, p, r, d] =>
        (number l).bind fun l => (fieldBits 8 p).bind fun p => (rateWord r).bind fun r =>
        (fieldBits 32 d).map fun d => .command (.setPriority l p r d) []
    | _ => none
  else if mn = "ADD_LONG_BSR".toList then
    match ops with
    | [b0, b1, b2, b3] =>
        (number b0).bind fun b0 => (number b1).bind fun b1 => (number b2).bind fun b2 =>
        (number b3).map fun b3 => .addLongBsr b0 b1 b2 b3
    | _ => none
  else none

/-- The mnemonics and pseudo-instructions of rules R105 and R106. -/
def mnemonics : List (List Char) :=
  ["INIT_TX", "NEW_SUBH", "SET_SDU", "SET_BSR", "SET_PHR", "SET_CRNTI", "SET_CONRES", "SET_TA",
   "HAS_SPACE_SDU", "HAS_SPACE_CE", "SDU_SPACE", "REM_SIZE", "WRITE", "READ", "BSR_LEVEL", "PHR_LEVEL",
   "ADD_BEARER", "SET_PRIORITY", "SET_LCG", "RESET_BEARERS", "TTI_TICK", "UL_GRANT", "DL_TB",
   "SOFT_RESET", "ADD_SDU", "ADD_SHORT_BSR", "ADD_LONG_BSR", "ADD_TRUNC_BSR", "ADD_PHR", "ADD_CRNTI",
   "ADD_CONRES", "ADD_TA"].map String.toList

/-- The statement of a mnemonic and the text after it (R105). -/
def statement (mn text : List Char) : Option AsmStmt :=
  if mn = "READ".toList ∨ mn = "DL_TB".toList then dataInLine mn text
  else
    match operandList text with
    | [] => (bareLine mn).map (fun i => .command i [])
    | x :: rest =>
        if mn = "UL_GRANT".toList then
          (number x).bind fun n => (grantLine n rest).map fun i => .command i []
        else
          match rest with
          | [] => unaryLine mn x
          | [y] => binaryLine mn x y
          | _ :: _ :: _ => longLine mn (x :: rest)

/-- One line of assembly (R105): the comment is dropped, an empty line gives no command. -/
def assembleLine (line : List Char) : Except AsmError (List Command) :=
  let text := trimBlanks (line.takeWhile (fun c => c ≠ ';'))
  let parts := text.span (fun c => ¬ (c = ' ' ∨ c = '\t'))
  if text = [] then .ok []
  else if parts.1 ∉ mnemonics then .error .unknownMnemonic
  else
    match statement parts.1 parts.2 with
    | none => .error .badOperands
    | some a => a.assemble

/-- A program: its lines in order, the first refused line refusing it (R105). -/
def assembleProgram (lines : List (List Char)) : Except AsmError (List Command) :=
  (lines.mapM assembleLine).map List.flatten

end Sys2Proof.Machine
end

