-- ==== Sys2Proof/Safety.lean ====
section
/-! DEFINITION. What a safe run is, in the terms the statements use: the accounting law of R38, the
invariants of the encoder, the decoder, the channel table and the Msg3 buffer, and the absence of a fatal
construction error (R18). -/

namespace Sys2Proof.Machine

open Sys2Proof.Config

/-- A record as the setters write it (R26, R126, R127): an SDU has an LCID of the data range and at least
one byte; a CE is allowed in the direction and has its type's LCID, size and payload. -/
def recWf (dir : Dir) : SubRec → Prop
  | .sdu lcid len => lcid.toNat ≤ lcidSduMax ∧ 1 ≤ len.toNat
  | .ce t lcid len pay =>
      allowed dir t = true ∧ lcid = ceLcid t ∧ len.toNat = ceSize t ∧ pay.length = ceSize t

/-- `H(LEN) - 1` of an SDU record, 0 of a CE record (R38). -/
def sduHeaderExtra (r : SubRec) : Nat := if recIsSdu r then hdrSize (recLen r) - 1 else 0

/-- The second sum of rule R38: `H(LEN) - 1` over the SDU records `i < NSUB` with `i != LAST_SDU`. -/
def Enc.nonLastExtra (e : Enc) : Nat :=
  ((List.range e.nsub.toNat).map fun i =>
    if e.lastSdu = some (BitVec.ofNat 5 i) then 0 else sduHeaderExtra (e.recAt (BitVec.ofNat 5 i))).sum

/-- The right side of rule R38: the bytes committed so far. -/
def Enc.committedBytes (e : Enc) : Nat :=
  (e.committed.map fun r => 1 + recLen r).sum + e.nonLastExtra

/-- The accounting invariant (R38): `N - REM` is the number of committed bytes. -/
def Enc.accounted (e : Enc) : Prop := e.n.toNat = e.rem.toNat + e.committedBytes

/-- `LAST_SDU` names the SDU record committed last, or NONE where there is none (R27). -/
def Enc.lastSduOk (e : Enc) : Prop :=
  match e.lastSdu with
  | none => ∀ r ∈ e.committed, recIsSdu r = false
  | some i =>
      i.toNat < e.nsub.toNat ∧ recIsSdu (e.recAt i) = true
        ∧ ∀ j : BitVec 5, i.toNat < j.toNat → j.toNat < e.nsub.toNat → recIsSdu (e.recAt j) = false

/-- The encoder's invariant under the parameters `p` (R21-R29, R38, R63). -/
structure EncOk (p : Params) (e : Enc) : Prop where
  size_in_range : e.mode ≠ .idle → 1 ≤ e.n.toNat ∧ e.n.toNat ≤ p.maxTbBytes
  rem_le_size : e.rem.toNat ≤ e.n.toNat
  nsub_le : e.nsub.toNat ≤ p.maxSubh
  open_slot_free : e.isOpen = true → e.nsub.toNat < p.maxSubh
  valid_iff_done : e.tbValid = true ↔ e.mode = .done
  block_has_size : e.mode = .done → e.tbOut.length = e.n.toNat
  records_wf : ∀ r ∈ e.committed, recWf e.dir r
  last_sdu : e.lastSduOk
  sdu_bytes : e.sduTotal = ((e.committed.filter recIsSdu).map recLen).sum
  accounting : e.mode = .build → e.accounted
  sdu_data_fits : e.sduTotal ≤ p.maxTbBytes
  tb_out_fits : e.tbOut.length ≤ p.maxTbBytes

/-- Decoded records are contiguous: the first starts at `off`, each next one where the one before ends, the
last one ends at `n` (R103, R204). -/
def recsCover : Nat → List DecRec → Nat → Prop
  | off, [], n => off = n
  | off, r :: rest, n => r.off.toNat = off ∧ recsCover (off + r.len.toNat) rest n

/-- A decoded record has the kind of its LCID, and a CE its fixed size (R200, R203). -/
def decRecWf (dir : Dir) (r : DecRec) : Prop :=
  classOf dir r.lcid = some r.cls ∧ ∀ t, r.cls = .ce t → r.len.toNat = ceSize t

/-- The decoder's invariant under the parameters `p` (R33, R63, R204). -/
structure DecOk (p : Params) (d : Dec) : Prop where
  size_is_length : d.valid = true → d.n.toNat = d.data.length
  count_is_length : d.valid = true → d.nrec.toNat = d.recs.length
  count_in_range : d.valid = true → 1 ≤ d.recs.length ∧ d.recs.length ≤ p.maxSubhRx
  records_cover : d.valid = true → ∃ hend, recsCover hend d.recs d.n.toNat
  records_wf : d.valid = true → ∀ r ∈ d.recs, decRecWf d.dir r
  data_fits : d.data.length ≤ p.maxTbBytes

/-- The Msg3 buffer's invariant (R37, R63): a stored copy has the length it says, in the range of a block. -/
structure Msg3Ok (p : Params) (m : Msg3) : Prop where
  length_ok : m.valid = true → m.bytes.length = m.len.toNat
  size_in_range : m.valid = true → 1 ≤ m.len.toNat ∧ m.len.toNat ≤ p.maxTbBytes
  bytes_fit : m.bytes.length ≤ p.maxTbBytes

/-- The invariant of the block: legal parameters, and the invariants of its state groups. LCID 0 stays
active (R35, R254). -/
structure BlockInv (s : State) : Prop where
  params_legal : s.params.legal = true
  enc_ok : EncOk s.params s.enc
  dec_ok : DecOk s.params s.dec
  msg3_ok : Msg3Ok s.params s.mux.msg3
  ccch_active : (s.lch 0).active = true

/-- `s` with `RES` and `ERR` written and nothing else: what `ok` and `fail` of rule R13 write. -/
def State.answered (e : ErrCode) (r : Int) (s : State) : State := { s with res := BitVec.ofInt 32 r, err := e }

/-- The setters of rule R125. -/
def isSetter : Instr → Bool
  | .initTx _ _ => false
  | .newSubh => false
  | .setSdu _ _ => true
  | .setBsr _ _ _ _ _ _ => true
  | .setPhr _ => true
  | .setCrnti _ => true
  | .setConres _ => true
  | .setTa _ => true
  | .hasSpaceSdu _ => false
  | .hasSpaceCe _ => false
  | .sduSpace => false
  | .remSize => false
  | .write => false
  | .read _ _ => false
  | .bsrLevel _ => false
  | .phrLevel _ => false
  | .addBearer _ => false
  | .setPriority _ _ _ _ => false
  | .setLcg _ _ => false
  | .resetBearers => false
  | .ttiTick _ => false
  | .ulGrant _ _ _ _ _ _ _ _ => false
  | .dlTb _ => false
  | .softReset => false

/-- The capacity queries of rule R120. -/
def isQuery : Instr → Bool
  | .initTx _ _ => false
  | .newSubh => false
  | .setSdu _ _ => false
  | .setBsr _ _ _ _ _ _ => false
  | .setPhr _ => false
  | .setCrnti _ => false
  | .setConres _ => false
  | .setTa _ => false
  | .hasSpaceSdu _ => true
  | .hasSpaceCe _ => true
  | .sduSpace => true
  | .remSize => true
  | .write => false
  | .read _ _ => false
  | .bsrLevel _ => false
  | .phrLevel _ => false
  | .addBearer _ => false
  | .setPriority _ _ _ _ => false
  | .setLcg _ _ => false
  | .resetBearers => false
  | .ttiTick _ => false
  | .ulGrant _ _ _ _ _ _ _ _ => false
  | .dlTb _ => false
  | .softReset => false

/-- A parsed record as rule R180 compares it: kind, LCID, length, payload bytes. -/
structure Parsed where
  cls : DecCls
  lcid : BitVec 5
  len : Nat
  payload : Bytes
  deriving DecidableEq, Repr, Inhabited

/-- The SDU records of a PDU with their payloads: the bytes the sources returned, in record order (R28,
R180). -/
def sduParsed : List SubRec → Bytes → List Parsed
  | [], _ => []
  | .ce _ _ _ _ :: rest, d => sduParsed rest d
  | .sdu lcid len :: rest, d =>
      { cls := .sdu, lcid := lcid, len := len.toNat, payload := d.take len.toNat }
        :: sduParsed rest (d.drop len.toNat)

/-- The CE records of a PDU with their payloads (R180). -/
def ceParsed : List SubRec → List Parsed
  | [] => []
  | .sdu _ _ :: rest => ceParsed rest
  | .ce t lcid len pay :: rest =>
      { cls := .ce t, lcid := lcid, len := len.toNat, payload := pay } :: ceParsed rest

/-- The records a parse of the finished PDU gives (R180): the front padding, the CEs, the SDUs, the final
padding. -/
def Enc.readBack (e : Enc) : List Parsed :=
  List.replicate e.padRegime.p12 { cls := .pad, lcid := 31, len := 0, payload := [] }
    ++ ceParsed e.committed ++ sduParsed e.committed e.sduData
    ++ (if e.padRegime.multi then
          [{ cls := .pad, lcid := 31, len := e.padRegime.padn, payload := List.replicate e.padRegime.padn 0 }]
        else [])

/-- The decoder's table with its payload bytes (R204). -/
def State.parsed (s : State) : List Parsed :=
  s.dec.recs.map fun r => { cls := r.cls, lcid := r.lcid, len := r.len.toNat, payload := s.decPayload r }

/-- A subheader that is not the last one, as a receiver may meet it, with any R bits `r` (R87-R92, R206). -/
inductive HeaderForm where
  | bare (r : BitVec 2) (lcid : BitVec 5)
  | short (r : BitVec 2) (lcid : BitVec 5) (len : BitVec 7)
  | long (r : BitVec 2) (lcid : BitVec 5) (len : BitVec 15)
  deriving DecidableEq, Repr, Inhabited

/-- The LCID of a subheader. -/
def HeaderForm.lcid : HeaderForm → BitVec 5
  | .bare _ lcid => lcid
  | .short _ lcid _ => lcid
  | .long _ lcid _ => lcid

/-- The bytes of a subheader with `E` = 1 (R87-R89). -/
def HeaderForm.bytes : HeaderForm → Bytes
  | .bare r lcid => [r ++ (1 : BitVec 1) ++ lcid]
  | .short r lcid len => [r ++ (1 : BitVec 1) ++ lcid, (0 : BitVec 1) ++ len]
  | .long r lcid len => [r ++ (1 : BitVec 1) ++ lcid, (1 : BitVec 1) ++ len.extractLsb 14 8, len.extractLsb 7 0]

/-- The payload length a subheader declares: its field, a control element's size by its LCID, 0 for padding
(R200, R202). -/
def HeaderForm.declared (dir : Dir) : HeaderForm → Nat
  | .bare _ lcid =>
      match classOf dir lcid with
      | some (.ce t) => ceSize t
      | some .pad => 0
      | some .sdu => 0
      | none => 0
  | .short _ _ len => len.toNat
  | .long _ _ len => len.toNat

/-- The subheader has the form of its LCID: a length field for an SDU alone, and no reserved LCID (R92, R200). -/
def HeaderForm.fits (dir : Dir) : HeaderForm → Prop
  | .bare _ lcid => 10 < lcid.toNat ∧ classOf dir lcid ≠ none
  | .short _ lcid _ => lcid.toNat ≤ 10
  | .long _ lcid _ => lcid.toNat ≤ 10

/-- The pending counts that the sources of the listed channels answer in turn (R12, R262). -/
def countsAnswered : List Nat → Agents → List (Nat × Nat)
  | [], _ => []
  | l :: rest, a => (l, (nextCountAnswer l a).1) :: countsAnswered rest (nextCountAnswer l a).2

/-- In phase 1 a limited channel without tokens is not served (R264, R266). -/
def outOfTokens (ph : Phase) (l : Nat) (s : State) : Prop :=
  ph = .guaranteed ∧ s.limited l = true ∧ s.tokOf l ≤ 0

/-- A pass asks the source for its count: the channel has tokens and the block has space (R266). -/
def asksSource (ph : Phase) (l : Nat) (s : State) : Prop := ¬ outOfTokens ph l s ∧ 0 < s.enc.sduSpace

/-- NEW_SUBH gives a slot in BUILD: the open one, or a free one (R124). -/
def slotAvailable (s : State) : Prop := s.enc.isOpen = true ∨ s.enc.nsub.toNat ≠ s.params.maxSubh

/-- `s` once the source of channel `l` has answered its pending count (R12, R266). -/
def State.countAsked (l : Nat) (s : State) : State :=
  { s with agents := (nextCountAnswer l s.agents).2, trace := s.trace ++ [.bufferState l] }

/-- The request of a pass that finds `p` bytes pending: the lesser of `p` and the space, and in phase 1, for a limited
channel, no more than the tokens (R266). -/
def passRequest (ph : Phase) (l p : Nat) (s : State) : Nat :=
  (if ph = .guaranteed ∧ s.limited l = true then min (min (p : Int) s.enc.sduSpace) (s.tokOf l)
    else min (p : Int) s.enc.sduSpace).toNat

/-- `s` once a slot is open and the source of channel `l` has answered a request for `q` bytes (R12, R124, R126). -/
def State.pduAsked (l q : Nat) (s : State) : State :=
  { s with
    enc := { s.enc with isOpen := true }
    agents := (nextPduAnswer l q s.agents).2
    trace := s.trace ++ [.readPdu l q] }

/-- SET_SDU commits the answer: `1 <= k <= REQ`, and `k` bytes (R126). -/
def answerCommits (q : Nat) (a : ReadAnswer) : Prop := 1 ≤ a.k ∧ a.k ≤ q ∧ (a.bytes.length : Int) = a.k

/-- `s` with the answer committed as the SDU record of channel `l` in the open slot, and its bytes taken from the
channel's tokens (R126, R266, R271). -/
def State.answerCommitted (l : Nat) (a : ReadAnswer) (s : State) : State :=
  let extra := match s.enc.lastSdu with
    | none => 0
    | some i => (if recLen (s.enc.recAt i) < 128 then 2 else 3) - 1
  { s with
    enc := { s.enc with
      sub := s.enc.sub.set s.enc.nsub.toNat (.sdu (BitVec.ofNat 5 l) (BitVec.ofNat 15 a.k.toNat)) s.enc.nsub.isLt
      rem := BitVec.ofNat 16 (s.enc.rem.toNat - (a.k.toNat + 1) - extra)
      lastSdu := some s.enc.nsub
      nsub := s.enc.nsub + 1
      isOpen := false
      sduData := s.enc.sduData ++ a.bytes }
    mux := { s.mux with
      tok := if s.limited l = true
        then s.mux.tok.setIfInBounds l (BitVec.ofInt 32 (max (-2 ^ 31) (s.tokOf l - a.k))) else s.mux.tok } }

/-- `Serve(l, ph)` takes the first state to the second and leaves `stop` at the flag (R266, R272): one constructor for
each end of a pass, and one for a pass that is followed by another. A derivation is a loop that has ended. -/
inductive ServesChannel (ph : Phase) (l : Nat) : State → State → Bool → Prop where
  | exhausted {s : State} : outOfTokens ph l s → ServesChannel ph l s s false
  | blockFull {s : State} : ¬ outOfTokens ph l s → s.enc.sduSpace ≤ 0 → ServesChannel ph l s s true
  | noData {s : State} : asksSource ph l s → (nextCountAnswer l s.agents).1 = 0 →
      ServesChannel ph l s (s.countAsked l) false
  | tableFull {s : State} : asksSource ph l s → (nextCountAnswer l s.agents).1 ≠ 0 → ¬ slotAvailable s →
      ServesChannel ph l s (s.countAsked l) true
  | nothing {s : State} {p q : Nat} : asksSource ph l s → p = (nextCountAnswer l s.agents).1 → p ≠ 0 →
      slotAvailable s → q = passRequest ph l p s →
      ¬ answerCommits q (nextPduAnswer l q (s.countAsked l).agents).1 →
      ServesChannel ph l s ((s.countAsked l).pduAsked l q) false
  | again {s t : State} {b : Bool} {p q : Nat} {a : ReadAnswer} : asksSource ph l s →
      p = (nextCountAnswer l s.agents).1 → p ≠ 0 → slotAvailable s → q = passRequest ph l p s →
      a = (nextPduAnswer l q (s.countAsked l).agents).1 → answerCommits q a →
      ServesChannel ph l (((s.countAsked l).pduAsked l q).answerCommitted l a) t b → ServesChannel ph l s t b

/-- A phase over the channels in order (R264, R265): each one is served until `stop`. In phase 1 a limited channel
without tokens is passed over without a request (`ServesChannel.exhausted`). -/
def ServesChannels (ph : Phase) : List Nat → State → State → Bool → Prop
  | [], s, t, stop => t = s ∧ stop = false
  | l :: rest, s, t, stop =>
      ∃ (u : State) (b : Bool), ServesChannel ph l s u b ∧
        (if b then t = u ∧ stop = true else ServesChannels ph rest u t stop)

/-- Phase 1 over the channels in order, then, unless it stopped, phase 2 over them (R258, R264, R265). -/
def ServesPhases (order : List Nat) (s t : State) : Prop :=
  ∃ (u : State) (stop : Bool), ServesChannels .guaranteed order s u stop ∧
    (if stop then t = u else ∃ b, ServesChannels .bestEffort order u t b)

/-- A 64-bit event word from its type, sub-code and argument (R303). -/
def eventWord (type sub arg : Nat) : BitVec 64 := BitVec.ofNat 64 (type * 2 ^ 56 + sub * 2 ^ 48 + arg)

/-- What one record of a received block with data `d` gives on the output (R302, R303), its argument written out
from the payload's bytes. -/
def recordOutputs (s : State) (d : Bytes) (r : DecRec) : List Obs :=
  match r.cls with
  | .sdu =>
      if r.len.toNat = 0 then [.event (eventWord 0x80 3 r.lcid.toNat)]
      else if (s.lch r.lcid.toNat).active = false then [.event (eventWord 0x80 2 r.lcid.toNat)]
      else
        [.writePdu r.lcid.toNat ((d.drop r.off.toNat).take r.len.toNat),
         .event (eventWord 0x01 0 (r.lcid.toNat * 2 ^ 16 + r.len.toNat))]
  | .ce .conres =>
      let b := fun j => (d.getD (r.off.toNat + j) 0).toNat
      [.event (eventWord 0x02 0
        (b 0 * 2 ^ 40 + b 1 * 2 ^ 32 + b 2 * 2 ^ 24 + b 3 * 2 ^ 16 + b 4 * 2 ^ 8 + b 5))]
  | .ce .ta => [.event (eventWord 0x03 0 ((d.getD r.off.toNat 0).toNat % 2 ^ 6))]
  | .ce .drx => [.event (eventWord 0x04 0 0)]
  | .ce .shortBsr => []
  | .ce .longBsr => []
  | .ce .truncBsr => []
  | .ce .phr => []
  | .ce .crnti => []
  | .pad => []

/-- The item is a delivery to a channel-data sink (R12). -/
def isDelivery : Obs → Bool
  | .writePdu _ _ => true
  | .readPdu _ _ => false
  | .bufferState _ => false
  | .event _ => false
  | .tbOut _ => false
  | .result _ _ => false

/-- No fatal construction error has happened (R18, R32). -/
def noFault (s : State) : Prop := s.fault = false

/-- The header region holds every header the encoder can build: `HDR_RESERVE >= 7 * MAX_SUBH + 2` (R7,
R177). -/
def reserveSuffices (p : Params) : Prop := 7 * p.maxSubh + 2 ≤ p.hdrReserve

end Sys2Proof.Machine
end

