-- ==== Sys2Proof/Certificates/Slice0/Obligations.lean ====
section
/-! DEFINITION. The statements for the provers, from the numbered rules of the spec. Each docstring names the rule
a statement formalises. -/

open Sys2Proof Sys2Proof.Config Sys2Proof.Machine

/-! ### Encoding (30_encoding.md) -/

/-- R80, R82, R85, R105: the decoder gives back every command the encoder writes, with every operand at every value
its field admits. -/
def Obligations.DecodeOfEncode : Prop :=
  ∀ i : Instr, i.wellFormed = true → decode (encode i) = .ok i

/-- R82, R84: a decoded command has every operand within its field. -/
def Obligations.DecodeGivesFieldValues : Prop :=
  ∀ (w : Word) (i : Instr), decode w = .ok i → i.wellFormed = true

/-- R83: a word is illegal exactly where its opcode is one of the listed ones; it then fails with `E_ILLEGAL` and
changes nothing but `RES` and `ERR`. -/
def Obligations.UnassignedOpcodeFails : Prop :=
  ∀ w : Word,
    let op := (opcode w).toNat
    let illegal := op = 0x00 ∨ (0x11 ≤ op ∧ op ≤ 0x1F) ∨ (0x24 ≤ op ∧ op ≤ 0x2F) ∨ (0x32 ≤ op ∧ op ≤ 0x3F)
      ∨ (0x41 ≤ op ∧ op ≤ 0x7E) ∨ (0x80 ≤ op ∧ op ≤ 0xFF)
    (illegal → decode w = .error (.illegalOpcode (opcode w)) ∧
      ∀ s : State, execWord w s = .next (s.answered .illegal (-1))) ∧
    (¬ illegal → ∃ i, decode w = .ok i)

/-- R84: a word executes exactly as the word with its reserved operand bits cleared. -/
def Obligations.ReservedBitsIgnored : Prop :=
  ∀ w : Word, decode (clearReserved w) = decode w ∧ ∀ s : State, execWord (clearReserved w) s = execWord w s

/-- R82, R85: words written out from the opcode map, one of each family, and two with signed `PH`. -/
def Obligations.SampleWordsDecode : Prop :=
  decode 0x0180000000000000000000000000012C = .ok (.initTx .dl 300) ∧
  decode 0x030A00000000000000000000000003E8 = .ok (.setSdu 10 1000) ∧
  decode 0x0400100000000000000000A0019249F1 = .ok (.setBsr .long 0 0 10 100 150001) ∧
  decode 0x0500000000000000000000000000FA80 = .ok (.setPhr (-1408)) ∧
  decode 0x0E80000000000000000000000000000C = .ok (.read .dl 12) ∧
  decode 0x2103000700000000000003E800000014 = .ok (.setPriority 3 7 1000 20) ∧
  decode 0x310000000000F6000000BEEF00150064 = .ok (.ulGrant 100 true false true false true 0xBEEF (-2560)) ∧
  decode 0x4000000000000000000000000000012C = .ok (.dlTb 300) ∧
  decode 0x7F000000000000000000000000000000 = .ok .softReset

/-- R105, R106: a line expands to one command, or to NEW_SUBH and the setter of its pseudo-instruction. It is accepted
exactly where every operand fits its field and every data-in list has its length, and the words then written decode to
the commands of the expansion, in order, with their data-in lists. -/
def Obligations.AssembledWordsDecode : Prop :=
  ∀ a : AsmStmt,
    let slot : Instr × Bytes := (.newSubh, [])
    let expansion : List (Instr × Bytes) := match a with
      | .command i din => [(i, din)]
      | .addSdu l n => [slot, (.setSdu l n, [])]
      | .addShortBsr g b => [slot, (.setBsr .short g (if g = 0 then b else 0) (if g = 1 then b else 0)
          (if g = 2 then b else 0) (if g = 3 then b else 0), [])]
      | .addLongBsr b0 b1 b2 b3 => [slot, (.setBsr .long 0 b0 b1 b2 b3, [])]
      | .addTruncBsr g b => [slot, (.setBsr .trunc g (if g = 0 then b else 0) (if g = 1 then b else 0)
          (if g = 2 then b else 0) (if g = 3 then b else 0), [])]
      | .addPhr d => [slot, (.setPhr d, [])]
      | .addCrnti r => [slot, (.setCrnti r, [])]
      | .addConres id => [slot, (.setConres id, [])]
      | .addTa ta => [slot, (.setTa ta, [])]
    let operandsFit := fun (i : Instr) => match i with
      | .initTx _ n => n < 65536
      | .newSubh => True
      | .setSdu l n => l < 32 ∧ n < 65536
      | .setBsr _ _ b0 b1 b2 b3 => b0 < 262144 ∧ b1 < 262144 ∧ b2 < 262144 ∧ b3 < 262144
      | .setPhr d => -32768 ≤ d ∧ d < 32768
      | .setCrnti _ => True
      | .setConres _ => True
      | .setTa _ => True
      | .hasSpaceSdu n => n < 65536
      | .hasSpaceCe n => n < 65536
      | .sduSpace => True
      | .remSize => True
      | .write => True
      | .read _ n => n < 65536
      | .bsrLevel b => b < 262144
      | .phrLevel d => -32768 ≤ d ∧ d < 32768
      | .addBearer l => l < 32
      | .setPriority l _ _ _ => l < 32
      | .setLcg l _ => l < 32
      | .resetBearers => True
      | .ttiTick _ => True
      | .ulGrant n _ _ _ _ _ _ d => n < 65536 ∧ -32768 ≤ d ∧ d < 32768
      | .dlTb n => n < 65536
      | .softReset => True
    let dataFits := fun (i : Instr) (din : Bytes) =>
      (∀ dir n, i = .read dir n → din.length = n) ∧ (∀ n, i = .dlTb n → din.length = n) ∧
      ((∀ dir n, i ≠ .read dir n) → (∀ n, i ≠ .dlTb n) → din = [])
    a.expand = expansion ∧
    ((∀ p ∈ expansion, operandsFit p.1 ∧ dataFits p.1 p.2) → ∃ cs, a.assemble = .ok cs ∧
      cs.map (fun c => (decode c.word, c.din)) = expansion.map (fun p => (.ok p.1, p.2))) ∧
    (¬ (∀ p ∈ expansion, operandsFit p.1 ∧ dataFits p.1 p.2) → a.assemble = .error .doesNotFit)

/-! ### The command port (00_scope.md R17, 10_state.md R40) -/

/-- R5, R17, R40, R80: where the host's next command decodes to `i`, a step is `exec i` with the command accepted and
its data-in list on the port: it answers a next state, its result is observed, the position advances and the list is given
back. -/
def Obligations.StepRunsDecodedCommand : Prop :=
  ∀ (s : State) (c : Command) (rest : List Command) (i : Instr),
    s.host.cmds = c :: rest → decode c.word = .ok i →
    let s1 : State := { s with host := { s.host with cmds := rest, din := c.din } }
    ∃ t, exec i s1 = .next t ∧
      step s = .next { t with
        trace := t.trace ++ [.result t.res t.err]
        host := { t.host with din := [], pos := t.host.pos + 1 } }

/-- R17, R40, R83, R320: a step on a word with an unassigned opcode ends like a command, with `E_ILLEGAL`. With the command
list exhausted the run has ended: that the step then answers the fault `commandListEnded` is the model's choice (log
entry 7). -/
def Obligations.StepWithoutCommand : Prop :=
  (∀ (s : State) (c : Command) (rest : List Command) (e : DecodeError),
    s.host.cmds = c :: rest → decode c.word = .error e →
    step s = .next { s.answered .illegal (-1) with
      trace := s.trace ++ [.result (BitVec.ofInt 32 (-1)) .illegal]
      host := { s.host with cmds := rest, din := [], pos := s.host.pos + 1 } }) ∧
  ∀ s : State, s.host.cmds = [] → step s = .fault .commandListEnded

/-- R17, R20, R40, R320: while the list holds a command a step answers a next state. It takes the first command and no
other, advances the position by one, keeps the parameters, and only appends to the observation, its `(RES, ERR)`
last. -/
def Obligations.StepAdvancesByOne : Prop :=
  ∀ s : State, s.host.cmds ≠ [] → ∃ t, step s = .next t ∧
    t.host.cmds = s.host.cmds.tail ∧ t.host.pos = s.host.pos + 1 ∧ t.host.din = [] ∧
    t.params = s.params ∧ ∃ new, t.trace = s.trace ++ new ++ [.result t.res t.err]

/-- R81: READ and DL_TB fail with `E_ARG`, changing nothing else, where the data-in list has not the length `N`; every
other command ignores the data-in list. A list longer than the capacity `MAX_TB_BYTES` of `DIN` and `DEC.DATA` (R7, R63)
is refused in the same way: that the code is `E_ARG` is the model's reading (log entry 9). -/
def Obligations.DataInLengthAndUse : Prop :=
  (∀ (dir : Dir) (n : Nat) (s : State), s.host.din.length ≠ n ∨ s.params.maxTbBytes < s.host.din.length →
    exec (.read dir n) s = .next (s.answered .arg (-1)) ∧ exec (.dlTb n) s = .next (s.answered .arg (-1))) ∧
  (∀ (i : Instr) (s t : State) (d : Bytes), i.dinField = none → exec i s = .next t →
    exec i { s with host := { s.host with din := d } } = .next { t with host := { t.host with din := d } })

/-! ### The PDU builder (40_pdu_build.md) -/

/-- R123: INIT_TX starts an empty PDU of `N` bytes, or refuses the size; nothing else changes. -/
def Obligations.InitTxStartsPdu : Prop :=
  ∀ (dir : Dir) (n : Nat) (s : State),
    (1 ≤ n ∧ n ≤ s.params.maxTbBytes →
      exec (.initTx dir n) s = .next (({ s with enc := { s.enc with
        mode := .build, dir := dir, n := BitVec.ofNat 16 n, rem := BitVec.ofNat 16 n, nsub := 0, isOpen := false,
        lastSdu := none, sduData := [], tbValid := false } } : State).answered .ok n)) ∧
    (n = 0 ∨ s.params.maxTbBytes < n →
      exec (.initTx dir n) s =
        .next (({ s with enc := { s.enc with mode := .idle, tbValid := false } } : State).answered .tbSize (-1)))

/-- R124: NEW_SUBH opens a slot, reuses the open one, or fails where it is not in BUILD or the table is full. -/
def Obligations.NewSubhOpensSlot : Prop :=
  ∀ s : State,
    (s.enc.mode ≠ .build → exec .newSubh s = .next (s.answered .state (-1))) ∧
    (s.enc.mode = .build → s.enc.isOpen = true → exec .newSubh s = .next (s.answered .ok 1)) ∧
    (s.enc.mode = .build → s.enc.isOpen = false → s.enc.nsub.toNat = s.params.maxSubh →
      exec .newSubh s = .next (s.answered .noSubh (-1))) ∧
    (s.enc.mode = .build → s.enc.isOpen = false → s.enc.nsub.toNat ≠ s.params.maxSubh →
      exec .newSubh s = .next (({ s with enc := { s.enc with isOpen := true } } : State).answered .ok 1))

/-- R120: outside BUILD, NEW_SUBH, the setters and WRITE fail with `E_STATE` and -1, the queries with `E_STATE` and 0,
and nothing else changes. -/
def Obligations.OutsideBuildRefused : Prop :=
  ∀ (i : Instr) (s : State), s.enc.mode ≠ .build →
    (i = .newSubh ∨ i = .write ∨ isSetter i = true → exec i s = .next (s.answered .state (-1))) ∧
    (isQuery i = true → exec i s = .next (s.answered .state 0))

/-- R125: in BUILD without an open slot a setter fails with `E_NO_SLOT`; with one, it fills the slot (one more record,
the slot closed, the records below it kept) or leaves it open and the table unchanged. -/
def Obligations.SetterNeedsOpenSlot : Prop :=
  ∀ (i : Instr) (s : State), isSetter i = true → s.enc.mode = .build →
    (s.enc.isOpen = false → exec i s = .next (s.answered .noSlot (-1))) ∧
    (s.enc.isOpen = true → ∃ t, exec i s = .next t ∧
      ((t.err = .ok ∧ t.enc.isOpen = false ∧ t.enc.nsub = s.enc.nsub + 1 ∧
          ∀ j : BitVec 5, j ≠ s.enc.nsub → t.enc.recAt j = s.enc.recAt j) ∨
        t.enc = s.enc))

/-- R121: the SDU space, a signed integer of at least -3. -/
def Obligations.SduSpaceFormula : Prop :=
  ∀ e : Enc,
    (e.lastSdu = none → e.sduSpace = (e.rem.toNat : Int) - 1) ∧
    (∀ i, e.lastSdu = some i → e.sduSpace =
      (e.rem.toNat : Int) - 1 - ((if recLen (e.recAt i) < 128 then 2 else 3) - 1)) ∧
    -3 ≤ e.sduSpace ∧
    (e.sduSpace = -3 ↔ e.rem = 0 ∧ ∃ i, e.lastSdu = some i ∧ 128 ≤ recLen (e.recAt i))

/-- R126: where the source answers `k` bytes, `1 <= k <= REQ <= SduSpace()`, SET_SDU commits one SDU record of `k` bytes
in the open slot, charges `k + 1` and the header correction of the previous last SDU, and appends the bytes. The
request is observed; nothing else changes. -/
def Obligations.SetSduCommitsAnswer : Prop :=
  ∀ (lcid req k : Nat) (s : State),
    s.enc.mode = .build → s.enc.isOpen = true → lcid ≤ 10 → (req : Int) ≤ s.enc.sduSpace →
    (nextPduAnswer lcid req s.agents).1.k = k → 1 ≤ k → k ≤ req →
    (nextPduAnswer lcid req s.agents).1.bytes.length = k →
    let extra := match s.enc.lastSdu with
      | none => 0
      | some i => (if recLen (s.enc.recAt i) < 128 then 2 else 3) - 1
    exec (.setSdu lcid req) s = .next (({ s with
      agents := (nextPduAnswer lcid req s.agents).2
      trace := s.trace ++ [.readPdu lcid req]
      enc := { s.enc with
        sub := s.enc.sub.set s.enc.nsub.toNat (.sdu (BitVec.ofNat 5 lcid) (BitVec.ofNat 15 k)) s.enc.nsub.isLt
        rem := BitVec.ofNat 16 (s.enc.rem.toNat - (k + 1) - extra)
        lastSdu := some s.enc.nsub
        nsub := s.enc.nsub + 1
        isOpen := false
        sduData := s.enc.sduData ++ (nextPduAnswer lcid req s.agents).1.bytes } } : State).answered .ok k)

/-- R126, R322: the ways SET_SDU commits nothing, in the order they are checked: an LCID above 10, a request of 0, no
space (none of them asks the source), an answer out of bounds, an answer of 0 bytes (the slot stays open). -/
def Obligations.SetSduCommitsNothing : Prop :=
  ∀ (lcid req : Nat) (s : State), s.enc.mode = .build → s.enc.isOpen = true →
    (10 < lcid → exec (.setSdu lcid req) s = .next (s.answered .arg (-1))) ∧
    (lcid ≤ 10 → req = 0 → exec (.setSdu lcid req) s = .next (s.answered .ok 0)) ∧
    (lcid ≤ 10 → req ≠ 0 → s.enc.sduSpace < req → exec (.setSdu lcid req) s = .next (s.answered .space (-1))) ∧
    (lcid ≤ 10 → req ≠ 0 → (req : Int) ≤ s.enc.sduSpace →
      let a := (nextPduAnswer lcid req s.agents).1
      let asked : State := { s with
        agents := (nextPduAnswer lcid req s.agents).2, trace := s.trace ++ [.readPdu lcid req] }
      (a.k < 0 ∨ (req : Int) < a.k ∨ (a.bytes.length : Int) ≠ a.k →
        exec (.setSdu lcid req) s = .next (asked.answered .src (-1))) ∧
      (a.k = 0 → a.bytes = [] → exec (.setSdu lcid req) s = .next (asked.answered .ok 0)))

/-- R127, R93-R100, R128-R132: a control-element setter that is allowed and fits fills the open slot with its record
(LCID and payload bytes as the frame format gives them), charges the payload and one header byte, and changes nothing
else. -/
def Obligations.CeSetterCommitsPayload : Prop :=
  ∀ s : State, s.enc.mode = .build → s.enc.isOpen = true →
    let commit := fun (t : CeType) (lcid : BitVec 5) (pay : Bytes) =>
      (({ s with enc := { s.enc with
        sub := s.enc.sub.set s.enc.nsub.toNat (.ce t lcid (BitVec.ofNat 15 pay.length) pay) s.enc.nsub.isLt
        rem := BitVec.ofNat 16 (s.enc.rem.toNat - (pay.length + 1))
        nsub := s.enc.nsub + 1
        isOpen := false } } : State).answered .ok pay.length)
    let level := fun (b : Nat) => BitVec.ofNat 6 (bsrLevelOf s.params.bsrThresh b)
    (s.enc.dir = .ul →
      (2 ≤ s.enc.rem.toNat → ∀ (g : BitVec 2) (b0 b1 b2 b3 : Nat),
        exec (.setBsr .short g b0 b1 b2 b3) s
          = .next (commit .shortBsr 29 [g ++ level ([b0, b1, b2, b3].getD g.toNat 0)]) ∧
        exec (.setBsr .trunc g b0 b1 b2 b3) s
          = .next (commit .truncBsr 28 [g ++ level ([b0, b1, b2, b3].getD g.toNat 0)])) ∧
      (4 ≤ s.enc.rem.toNat → ∀ (g : BitVec 2) (b0 b1 b2 b3 : Nat),
        exec (.setBsr .long g b0 b1 b2 b3) s = .next (commit .longBsr 30
          [level b0 ++ (level b1).extractLsb 5 4, (level b1).extractLsb 3 0 ++ (level b2).extractLsb 5 2,
           (level b2).extractLsb 1 0 ++ level b3])) ∧
      (2 ≤ s.enc.rem.toNat → ∀ ph : Int,
        exec (.setPhr ph) s = .next (commit .phr 26 [(0 : BitVec 2) ++ BitVec.ofNat 6 (phrLevelOf ph)])) ∧
      (3 ≤ s.enc.rem.toNat → ∀ r : BitVec 16,
        exec (.setCrnti r) s = .next (commit .crnti 27 [r.extractLsb 15 8, r.extractLsb 7 0]))) ∧
    (s.enc.dir = .dl →
      (7 ≤ s.enc.rem.toNat → ∀ id : BitVec 48,
        exec (.setConres id) s = .next (commit .conres 28
          [id.extractLsb 47 40, id.extractLsb 39 32, id.extractLsb 31 24, id.extractLsb 23 16, id.extractLsb 15 8,
           id.extractLsb 7 0])) ∧
      (2 ≤ s.enc.rem.toNat → ∀ ta : BitVec 6,
        exec (.setTa ta) s = .next (commit .ta 29 [(0 : BitVec 2) ++ ta])))

/-- R127-R132, R322: in BUILD with an open slot, a control-element setter fails with `E_ARG` for `FMT` = 3, else with
`E_DIR` in the wrong direction, else with `E_SPACE` where its payload and header byte do not fit; nothing else
changes. -/
def Obligations.CeSetterRefusals : Prop :=
  ∀ s : State, s.enc.mode = .build → s.enc.isOpen = true →
    (∀ g b0 b1 b2 b3, exec (.setBsr .reserved g b0 b1 b2 b3) s = .next (s.answered .arg (-1))) ∧
    (s.enc.dir = .dl →
      (∀ f g b0 b1 b2 b3, f ≠ .reserved → exec (.setBsr f g b0 b1 b2 b3) s = .next (s.answered .dir (-1))) ∧
      (∀ ph, exec (.setPhr ph) s = .next (s.answered .dir (-1))) ∧
      (∀ r, exec (.setCrnti r) s = .next (s.answered .dir (-1))) ∧
      (s.enc.rem.toNat < 7 → ∀ id, exec (.setConres id) s = .next (s.answered .space (-1))) ∧
      (s.enc.rem.toNat < 2 → ∀ ta, exec (.setTa ta) s = .next (s.answered .space (-1)))) ∧
    (s.enc.dir = .ul →
      (∀ id, exec (.setConres id) s = .next (s.answered .dir (-1))) ∧
      (∀ ta, exec (.setTa ta) s = .next (s.answered .dir (-1))) ∧
      (s.enc.rem.toNat < 4 → ∀ g b0 b1 b2 b3,
        exec (.setBsr .long g b0 b1 b2 b3) s = .next (s.answered .space (-1))) ∧
      (s.enc.rem.toNat < 2 → ∀ f g b0 b1 b2 b3, f = .short ∨ f = .trunc →
        exec (.setBsr f g b0 b1 b2 b3) s = .next (s.answered .space (-1))) ∧
      (s.enc.rem.toNat < 2 → ∀ ph, exec (.setPhr ph) s = .next (s.answered .space (-1))) ∧
      (s.enc.rem.toNat < 3 → ∀ r, exec (.setCrnti r) s = .next (s.answered .space (-1))))

/-- R133-R136: the capacity queries in BUILD: `RES` and `ERR` only. -/
def Obligations.CapacityQueriesAnswer : Prop :=
  ∀ s : State, s.enc.mode = .build →
    (∀ nb : Nat, exec (.hasSpaceSdu nb) s
      = .next (s.answered .ok (if (nb : Int) ≤ s.enc.sduSpace then 1 else 0))) ∧
    (∀ nb : Nat, exec (.hasSpaceCe nb) s
      = .next (s.answered .ok (if nb + 1 ≤ s.enc.rem.toNat then 1 else 0))) ∧
    exec .sduSpace s = .next (s.answered .ok s.enc.sduSpace) ∧
    exec .remSize s = .next (s.answered .ok s.enc.rem.toNat)

/-- R138: in BUILD with an open slot, SET_SDU on a legal LCID with `REQ > 0` fails with `E_SPACE` exactly when
HAS_SPACE_SDU answers 0, and an allowed control-element setter of payload `c` exactly when HAS_SPACE_CE `c` does. -/
def Obligations.SpaceQueriesAgreeWithSetters : Prop :=
  ∀ s : State, s.enc.mode = .build → s.enc.isOpen = true →
    (∀ (lcid req : Nat), lcid ≤ 10 → 0 < req → ∃ t q, exec (.setSdu lcid req) s = .next t ∧
      exec (.hasSpaceSdu req) s = .next q ∧ (t.err = .space ↔ q.res = 0)) ∧
    (∀ (i : Instr) (c : Nat),
      ((s.enc.dir = .ul ∧
        ((∃ g b0 b1 b2 b3, i = .setBsr .short g b0 b1 b2 b3 ∧ c = 1) ∨
         (∃ g b0 b1 b2 b3, i = .setBsr .long g b0 b1 b2 b3 ∧ c = 3) ∨
         (∃ g b0 b1 b2 b3, i = .setBsr .trunc g b0 b1 b2 b3 ∧ c = 1) ∨
         (∃ ph, i = .setPhr ph ∧ c = 1) ∨ (∃ r, i = .setCrnti r ∧ c = 2))) ∨
       (s.enc.dir = .dl ∧ ((∃ id, i = .setConres id ∧ c = 6) ∨ (∃ ta, i = .setTa ta ∧ c = 1)))) →
      ∃ t q, exec i s = .next t ∧ exec (.hasSpaceCe c) s = .next q ∧ (t.err = .space ↔ q.res = 0))

/-- R139: two PDUs under construction of the same size, whose committed records are the same up to order and whose last
SDU has the same length, have the same remaining capacity. -/
def Obligations.RemIndependentOfInterleaving : Prop :=
  ∀ (p : Params) (e f : Enc), EncOk p e → EncOk p f → e.mode = .build → f.mode = .build → e.n = f.n →
    e.committed.Perm f.committed →
    e.lastSdu.map (fun i => recLen (e.recAt i)) = f.lastSdu.map (fun i => recLen (f.recAt i)) →
    e.rem = f.rem

/-! ### The finaliser (41_pdu_write.md) -/

/-- R170, R175, R178, R179: with a header region of at least `7 * MAX_SUBH + 2` bytes, WRITE in BUILD produces the
transport block: header, control-element payloads, SDU bytes, zeros, exactly `N` bytes. Only `OPEN`, `TB_OUT`, `MODE`,
`TB_VALID`, `RES` and `ERR` change, and the block is observed. -/
def Obligations.WriteProducesExactBlock : Prop :=
  ∀ s : State, BlockInv s → reserveSuffices s.params → s.enc.mode = .build →
    ∃ out : Bytes, out.length = s.enc.n.toNat ∧
      out = s.enc.headerBytes ++ s.enc.cePayloadBytes ++ s.enc.sduData
        ++ List.replicate s.enc.padRegime.padn 0 ∧
      exec .write s = .next (({ s with
        enc := { s.enc with isOpen := false, tbOut := out, mode := .done, tbValid := true }
        trace := s.trace ++ [.tbOut out] } : State).answered .ok s.enc.n.toNat)

/-- R171, R172: the padding regime, and the order of the subheaders: front padding, control elements, SDUs, the final
padding. -/
def Obligations.HeaderOrderAndPadding : Prop :=
  ∀ e : Enc,
    let ces := (e.committed.filter fun r => !recIsSdu r).map LayoutItem.entry
    let sdus := (e.committed.filter recIsSdu).map LayoutItem.entry
    (2 < e.rem.toNat → e.headerBytes = subheaderBytes (ces ++ sdus ++ [.pad]) ∧
      (e.padRegime.padn : Int) = (e.rem.toNat : Int) - 1 -
        (match e.lastSdu with
          | none => 0
          | some i => (if recLen (e.recAt i) < 128 then 2 else 3) - 1)) ∧
    (e.rem.toNat = 2 → e.headerBytes = subheaderBytes (.pad :: .pad :: (ces ++ sdus)) ∧ e.padRegime.padn = 0) ∧
    (e.rem.toNat = 1 → e.headerBytes = subheaderBytes (.pad :: (ces ++ sdus)) ∧ e.padRegime.padn = 0) ∧
    (e.rem.toNat = 0 → e.headerBytes = subheaderBytes (ces ++ sdus) ∧ e.padRegime.padn = 0)

/-- R173: the table of subheader bytes, for a header of any length, and the header's length. -/
def Obligations.SubheaderTable : Prop :=
  ∀ (xs : List LayoutItem) (x : LayoutItem),
    let first := fun (e : Bool) (lcid : BitVec 5) => BitVec.ofNat 8 ((if e then 32 else 0) + lcid.toNat)
    let notLast := fun (y : LayoutItem) => match y with
      | .pad => ([0x3F] : Bytes)
      | .entry (.ce _ lcid _ _) => [first true lcid]
      | .entry (.sdu lcid len) =>
          if len.toNat < 128 then [first true lcid, BitVec.ofNat 8 len.toNat]
          else [first true lcid, BitVec.ofNat 8 (128 + len.toNat / 256), BitVec.ofNat 8 (len.toNat % 256)]
    let last := fun (y : LayoutItem) => match y with
      | .pad => ([0x1F] : Bytes)
      | .entry (.ce _ lcid _ _) => [first false lcid]
      | .entry (.sdu lcid _) => [first false lcid]
    let longer := fun (y : LayoutItem) => match y with
      | .pad => 0
      | .entry (.ce _ _ _ _) => 0
      | .entry (.sdu _ len) => (if len.toNat < 128 then 2 else 3) - 1
    subheaderBytes (xs ++ [x]) = xs.flatMap notLast ++ last x ∧
    (subheaderBytes (xs ++ [x])).length = xs.length + 1 + (xs.map longer).sum

/-- R181: a PDU without records: `[0x1F]` at `N` = 1, `[0x3F, 0x1F]` at `N` = 2, one padding subheader and zeros
from `N` = 3 on. -/
def Obligations.PaddingOnlyBlocks : Prop :=
  ∀ (dir : Dir) (n : Nat) (s : State), s.params.legal = true → 2 ≤ s.params.hdrReserve →
    1 ≤ n → n ≤ s.params.maxTbBytes →
    ∃ t u, exec (.initTx dir n) s = .next t ∧ exec .write t = .next u ∧ u.err = .ok ∧ u.res = BitVec.ofNat 32 n ∧
      u.enc.tbOut = (if n = 1 then [0x1F] else if n = 2 then [0x3F, 0x1F] else 0x1F :: List.replicate (n - 1) 0)

/-- R176, R177, R323: the two fatal checks of WRITE, the header region first: the PDU is aborted, `STATUS.FAULT` is set,
no block is produced. That the record table and its counts keep their values is the model's reading of R176 (log
entry 8). -/
def Obligations.FatalWriteAborts : Prop :=
  ∀ s : State, s.enc.mode = .build →
    let aborted : State := { s with
      enc := { s.enc with isOpen := false, mode := .idle, tbValid := false }, fault := true }
    let hc := s.enc.headerBytes.length + s.enc.cePayloadBytes.length
    (s.params.hdrReserve < hc → exec .write s = .next (aborted.answered .hdrReserve (-1))) ∧
    (hc ≤ s.params.hdrReserve → hc + s.enc.sduTotal + s.enc.padRegime.padn ≠ s.enc.n.toNat →
      exec .write s = .next (aborted.answered .size (-1)))

/-- R72: the block read out of the in-place buffer is the byte list of rule R175, whatever the buffer held. -/
def Obligations.InPlaceLayoutGivesBlock : Prop :=
  ∀ (reserve : Nat) (hdr cep sdu buf : Bytes) (padn : Nat), hdr.length + cep.length ≤ reserve →
    reserve + sdu.length + padn ≤ buf.length →
    inPlaceTb reserve hdr cep sdu padn (hdr.length + cep.length + sdu.length + padn) buf
      = hdr ++ cep ++ sdu ++ List.replicate padn 0

/-- R180: after a successful WRITE, READ of the block in the same direction succeeds, and gives the front padding, the
control elements, the SDUs and the final padding with the LCIDs, lengths and payload bytes committed, at most
`MAX_SUBH + 2` records. -/
def Obligations.WriteThenReadRoundTrip : Prop :=
  ∀ s t : State, BlockInv s → s.enc.mode = .build → exec .write s = .next t → t.err = .ok →
    ∃ u, exec (.read s.enc.dir s.enc.n.toNat) { t with host := { t.host with din := t.enc.tbOut } } = .next u ∧
      u.err = .ok ∧ u.dec.valid = true ∧ u.res = BitVec.ofNat 32 s.enc.readBack.length ∧
      u.parsed = s.enc.readBack ∧ u.dec.recs.length ≤ s.params.maxSubh + 2

/-! ### The parser (42_pdu_read.md) -/

/-- R201, R204, R205: READ of a block that parses writes the decoder, `RES` = the number of records. A block that does not
parse is dropped whole: `VALID` = 0, `NREC` = 0, one of the four parse errors in `ERR` and `DEC.ERR`; of `DATA` and `REC`,
unspecified then (R355), nothing is said. Nothing outside the decoder changes. -/
def Obligations.ReadStoresParse : Prop :=
  ∀ (dir : Dir) (n : Nat) (s : State), s.host.din.length = n → n ≤ s.params.maxTbBytes →
    (∀ recs, parse dir s.params.maxSubhRx n s.host.din = .ok recs →
      exec (.read dir n) s = .next (({ s with dec := {
        dir := dir, n := BitVec.ofNat 16 n, data := s.host.din, valid := true, nrec := BitVec.ofNat 6 recs.length,
        recs := recs, err := .ok } } : State).answered .ok recs.length)) ∧
    (∀ e, parse dir s.params.maxSubhRx n s.host.din = .error e →
      (e = .pTrunc ∨ e = .pLcid ∨ e = .pLen ∨ e = .pTooMany) ∧
      ∃ t, exec (.read dir n) s = .next t ∧ t = (({ s with dec := {
        dir := dir, n := BitVec.ofNat 16 n, data := t.dec.data, valid := false, nrec := 0, recs := t.dec.recs,
        err := e } } : State).answered e (-1)))

/-- R103, R202-R204: after a successful READ there is one record for each subheader of the header walk. Its kind and LCID are
the subheader's; its length is the declared one, and that of the last record is all that is left. The payloads, in order,
are the block's bytes from the end of the header to its end, with no gap. There are at most `MAX_SUBH_RX` records; each has
the kind of its LCID, and a control element its fixed size. -/
def Obligations.ReadPayloadsCoverBlock : Prop :=
  ∀ (dir : Dir) (n : Nat) (s t : State), s.params.legal = true →
    exec (.read dir n) s = .next t → t.err = .ok →
    ∃ w : Walk, walkHeader dir s.params.maxSubhRx s.host.din 0 [] = .ok w ∧
      1 ≤ w.hend ∧ w.hend + (w.before.map WalkRec.len).sum ≤ n ∧
      t.dec.data = s.host.din ∧ t.dec.nrec.toNat = t.dec.recs.length ∧ t.dec.recs.length ≤ s.params.maxSubhRx ∧
      t.dec.recs.map (fun r => (r.cls, r.lcid)) = (w.before ++ [w.last]).map (fun r => (r.cls, r.lcid)) ∧
      t.dec.recs.map (fun r => r.len.toNat)
        = w.before.map WalkRec.len ++ [n - w.hend - (w.before.map WalkRec.len).sum] ∧
      (∀ p ∈ t.parsed, p.payload.length = p.len) ∧
      (t.parsed.map Parsed.payload).flatten = s.host.din.drop w.hend ∧
      ∀ r ∈ t.dec.recs, decRecWf dir r

/-- R87-R92, R200-R206: READ of a block that is a sequence of subheaders, in any order and with any R bits (a 3-byte
subheader of a length below 128, an SDU of length 0, padding anywhere, elements after SDUs), then a last subheader, then
`payload`. It reads back the kinds, LCIDs and declared lengths, the last record takes the rest, and the payloads are cut
from `payload` in order. It fails where the declared lengths exceed the payload, where the last element's rest is not its
size, where the header does not end, where there are too many subheaders, and where an LCID is reserved. -/
def Obligations.ReadAnySubheaderSequence : Prop :=
  ∀ (dir : Dir) (s : State) (hs : List HeaderForm) (b : Byte) (payload : Bytes),
    s.params.legal = true → (∀ h ∈ hs, h.fits dir) → s.host.din.length ≤ s.params.maxTbBytes →
    let lcid := b.extractLsb 4 0
    let declared := (hs.map (HeaderForm.declared dir)).sum
    ∃ t, exec (.read dir s.host.din.length) s = .next t ∧
      (s.host.din = hs.flatMap HeaderForm.bytes ++ b :: payload → hs.length < s.params.maxSubhRx →
        (classOf dir lcid = none → t.err = .pLcid) ∧
        ∀ cls, classOf dir lcid = some cls → b.getLsbD 5 = false →
          (payload.length < declared ∨ (∃ c, cls = .ce c ∧ payload.length ≠ declared + ceSize c) → t.err = .pLen) ∧
          (declared ≤ payload.length → (∀ c, cls = .ce c → payload.length = declared + ceSize c) → t.err = .ok ∧
            t.res = BitVec.ofNat 32 (hs.length + 1) ∧
            t.dec.recs.map (fun r => (some r.cls, r.lcid))
              = hs.map (fun h => (classOf dir h.lcid, h.lcid)) ++ [(some cls, lcid)] ∧
            t.dec.recs.map (fun r => r.len.toNat)
              = hs.map (HeaderForm.declared dir) ++ [payload.length - declared] ∧
            (∀ p ∈ t.parsed, p.payload.length = p.len) ∧ (t.parsed.map Parsed.payload).flatten = payload)) ∧
      (s.host.din = hs.flatMap HeaderForm.bytes → hs.length ≤ s.params.maxSubhRx → t.err = .pTrunc) ∧
      (s.host.din = hs.flatMap HeaderForm.bytes ++ [b] → hs.length < s.params.maxSubhRx → lcid.toNat ≤ 10 →
        b.getLsbD 5 = true → t.err = .pTrunc) ∧
      (∀ f : Byte, s.host.din = hs.flatMap HeaderForm.bytes ++ [b, f] → hs.length < s.params.maxSubhRx →
        lcid.toNat ≤ 10 → b.getLsbD 5 = true → f.getLsbD 7 = true → t.err = .pTrunc) ∧
      (s.host.din = hs.flatMap HeaderForm.bytes ++ b :: payload → hs.length = s.params.maxSubhRx → t.err = .pTooMany)

/-- R200, R201, R203: a block whose first subheader is the last one. An SDU or padding takes the remaining `N - 1`
bytes; a control element parses only where they are its size; a reserved LCID does not parse; the empty block is
truncated. -/
def Obligations.ReadOneSubheader : Prop :=
  ∀ (dir : Dir) (s : State), s.params.legal = true →
    (s.host.din = [] → ∃ t, exec (.read dir 0) s = .next t ∧ t.err = .pTrunc ∧ t.dec.valid = false) ∧
    ∀ (b : Byte) (rest : Bytes), s.host.din = b :: rest → b.getLsbD 5 = false → rest.length < s.params.maxTbBytes →
      let lcid := b.extractLsb 4 0
      ∃ t, exec (.read dir (rest.length + 1)) s = .next t ∧
        (lcid.toNat ≤ 10 → t.err = .ok ∧ t.res = 1 ∧ t.dec.valid = true ∧
          t.parsed = [{ cls := .sdu, lcid := lcid, len := rest.length, payload := rest }]) ∧
        (lcid.toNat = 31 → t.err = .ok ∧ t.res = 1 ∧ t.dec.valid = true ∧
          t.parsed = [{ cls := .pad, lcid := lcid, len := rest.length, payload := rest }]) ∧
        (11 ≤ lcid.toNat → lcid.toNat ≤ (if dir = .ul then 25 else 27) → t.err = .pLcid ∧ t.dec.valid = false) ∧
        (∀ z cls, (lcid.toNat, dir, z, cls) ∈ [(26, Dir.ul, 1, CeType.phr), (27, Dir.ul, 2, CeType.crnti),
            (28, Dir.ul, 1, CeType.truncBsr), (29, Dir.ul, 1, CeType.shortBsr), (30, Dir.ul, 3, CeType.longBsr),
            (28, Dir.dl, 6, CeType.conres), (29, Dir.dl, 1, CeType.ta), (30, Dir.dl, 0, CeType.drx)] →
          (rest.length = z → t.err = .ok ∧ t.res = 1 ∧ t.dec.valid = true ∧
            t.parsed = [{ cls := .ce cls, lcid := lcid, len := z, payload := rest }]) ∧
          (rest.length ≠ z → t.err = .pLen ∧ t.dec.valid = false))

/-- R87, R202, R206: the two R bits of a subheader change neither the header walk, at whatever position and after whatever
subheaders it stands, nor the parse. -/
def Obligations.ParseIgnoresReservedBits : Prop :=
  ∀ (dir : Dir) (maxRx : Nat) (b r : Byte) (rest : Bytes),
    let other : Byte := (b &&& 0x3F) ||| (r &&& 0xC0)
    (∀ (pos : Nat) (recs : List WalkRec),
      walkHeader dir maxRx (other :: rest) pos recs = walkHeader dir maxRx (b :: rest) pos recs) ∧
    ∀ n : Nat, parse dir maxRx n (other :: rest) = parse dir maxRx n (b :: rest)

/-! ### The level functions (43_level_tables.md) -/

/-- R232, R233: BSR_LEVEL answers 0 for 0, 63 above the last threshold, else one more than the number of thresholds below
the count; `RES` and `ERR` only, in every mode. -/
def Obligations.BsrLevelAnswers : Prop :=
  ∀ (b : Nat) (s : State), s.params.legal = true →
    exec (.bsrLevel b) s = .next (s.answered .ok
      (if b = 0 then 0
       else if s.params.bsrThresh.getD 61 0 < b then 63
       else 1 + ((List.range 62).filter fun i => decide (s.params.bsrThresh.getD i 0 < b)).length))

/-- R232, R233, R236: over any legal table the level is at most 63, does not decrease, is 0 at 0 and `i + 1` at the
threshold `i`; over the default table 150001 has level 63, and 128126 to 150000 have level 62. -/
def Obligations.BsrLevelLaws : Prop :=
  (∀ t : List Nat, legalThresh t = true →
    bsrLevelOf t 0 = 0 ∧ (∀ n, bsrLevelOf t n ≤ 63) ∧ (∀ m n, m ≤ n → bsrLevelOf t m ≤ bsrLevelOf t n) ∧
    (∀ i, i < 62 → bsrLevelOf t (t.getD i 0) = i + 1)) ∧
  bsrLevelOf Params.standard.bsrThresh 150001 = 63 ∧
  ∀ n, 128125 < n → n ≤ 150000 → bsrLevelOf Params.standard.bsrThresh n = 62

/-- R234, R235, R236: PHR_LEVEL answers the headroom clamped to [-23, 40] dB, plus 23, rounded down to whole dB; `RES`
and `ERR` only, in every mode. The level does not decrease. -/
def Obligations.PhrLevelAnswers : Prop :=
  (∀ (ph : Int) (s : State), ∃ v : Nat,
    exec (.phrLevel ph) s = .next (s.answered .ok v) ∧ v = phrLevelOf ph ∧ v ≤ 63 ∧
    (ph ≤ -5888 → v = 0) ∧ (10240 ≤ ph → v = 63) ∧
    (-5888 ≤ ph → ph < 10240 → 256 * (v : Int) ≤ ph + 5888 ∧ ph + 5888 < 256 * ((v : Int) + 1))) ∧
  ∀ p q : Int, p ≤ q → phrLevelOf p ≤ phrLevelOf q

/-! ### The multiplexer (44_mux.md) -/

/-- R251: ADD_BEARER refuses an LCID above 10, activates an inactive channel with a token count of 0, leaves an active one
alone, and changes no other channel, no other field and nothing else. -/
def Obligations.AddBearerActivates : Prop :=
  ∀ (lcid : Nat) (s : State),
    (10 < lcid → exec (.addBearer lcid) s = .next (s.answered .arg (-1))) ∧
    (lcid ≤ 10 → (s.lch lcid).active = true → exec (.addBearer lcid) s = .next (s.answered .ok 1)) ∧
    (lcid ≤ 10 → (s.lch lcid).active = false → ∃ t, exec (.addBearer lcid) s = .next t ∧
      t.lch lcid = { s.lch lcid with active := true } ∧ t.tokOf lcid = 0 ∧
      (∀ l, l ≠ lcid → t.lch l = s.lch l ∧ t.tokOf l = s.tokOf l) ∧
      t = ({ s with cfg := t.cfg, mux := { s.mux with tok := t.mux.tok } } : State).answered .ok 1)

/-- R252, R253: SET_PRIORITY writes a channel's priority, rate and bucket duration, SET_LCG its group; nothing else
changes. On an LCID above 10 both fail with `E_ARG` and change nothing else. -/
def Obligations.ChannelFieldsWritten : Prop :=
  (∀ (lcid : Nat) (s : State), 10 < lcid →
    (∀ prio pbr bsd, exec (.setPriority lcid prio pbr bsd) s = .next (s.answered .arg (-1))) ∧
    (∀ g, exec (.setLcg lcid g) s = .next (s.answered .arg (-1)))) ∧
  ∀ (lcid : Nat) (s : State), lcid ≤ 10 →
    (∀ (prio : BitVec 8) (pbr bsd : BitVec 32), ∃ t, exec (.setPriority lcid prio pbr bsd) s = .next t ∧
      t.lch lcid = { s.lch lcid with prio := prio, pbr := pbr, bsd := bsd } ∧
      (∀ l, l ≠ lcid → t.lch l = s.lch l) ∧ t = ({ s with cfg := t.cfg } : State).answered .ok 1) ∧
    (∀ g : BitVec 2, ∃ t, exec (.setLcg lcid g) s = .next t ∧ t.lch lcid = { s.lch lcid with lcg := g } ∧
      (∀ l, l ≠ lcid → t.lch l = s.lch l) ∧ t = ({ s with cfg := t.cfg } : State).answered .ok 1)

/-- R254: RESET_BEARERS puts every channel and every token count at its reset value; nothing else changes. -/
def Obligations.ResetBearersTearsDown : Prop :=
  ∀ s : State, ∃ t, exec .resetBearers s = .next t ∧
    t.lch 0 = { active := true, prio := 255, pbr := 0xFFFFFFFF, bsd := 0, lcg := 0 } ∧
    (∀ l, 1 ≤ l → l ≤ 10 → t.lch l = { active := false, prio := 255, pbr := 0, bsd := 0, lcg := 0 }) ∧
    (∀ l, l ≤ 10 → t.tokOf l = 0) ∧
    t = ({ s with cfg := t.cfg, mux := { s.mux with tok := t.mux.tok } } : State).answered .ok 1

/-- R256, R257: TTI_TICK adds the rate to the token count of every active limited channel, capped at rate times bucket
duration, computed exactly and then saturated to 32 bits; every other count and all else is unchanged. -/
def Obligations.TtiTickAddsTokens : Prop :=
  ∀ (tti : BitVec 32) (s : State), ∃ t, exec (.ttiTick tti) s = .next t ∧
    (∀ l, l ≤ 10 → t.tokOf l =
      if (s.lch l).active = true ∧ (s.lch l).pbr ≠ 0xFFFFFFFF then
        max (-2 ^ 31) (min (2 ^ 31 - 1)
          (min (s.tokOf l + (s.lch l).pbr.toNat) ((s.lch l).pbr.toNat * (s.lch l).bsd.toNat)))
      else s.tokOf l) ∧
    t = ({ s with mux := { s.mux with tok := t.mux.tok } } : State).answered .ok 1

/-- R255: the service order holds each active channel once, ascending by the pair (PRIO, LCID). -/
def Obligations.ServiceOrderSorted : Prop :=
  ∀ s : State,
    (∀ l, l ∈ serviceOrder s ↔ l ≤ 10 ∧ (s.lch l).active = true) ∧ (serviceOrder s).Nodup ∧
    (serviceOrder s).Pairwise fun a b =>
      (s.lch a).prio.toNat < (s.lch b).prio.toNat ∨ ((s.lch a).prio = (s.lch b).prio ∧ a < b)

/-- R258, R259: the ends of a grant that build no PDU. With RETX set, whatever the other flags: without a stored copy, or
with one of another size, it fails and changes nothing else; otherwise the copy becomes `TB_OUT` of an empty PDU in DONE,
and no request is made. Without RETX, an illegal size fails with `E_TB_SIZE`: the encoder goes idle, nothing else
changes. -/
def Obligations.GrantRetransmitsOrRefuses : Prop :=
  ∀ (n : Nat) (m3 ci bt pt : Bool) (rnti : BitVec 16) (ph : Int) (s : State),
    (s.mux.msg3.valid = false →
      exec (.ulGrant n m3 true ci bt pt rnti ph) s = .next (s.answered .msg3None (-1))) ∧
    (s.mux.msg3.valid = true → s.mux.msg3.len.toNat ≠ n →
      exec (.ulGrant n m3 true ci bt pt rnti ph) s = .next (s.answered .msg3Size (-1))) ∧
    (s.mux.msg3.valid = true → s.mux.msg3.len.toNat = n →
      exec (.ulGrant n m3 true ci bt pt rnti ph) s = .next (({ s with
        enc := { s.enc with
          mode := .done, dir := .ul, n := BitVec.ofNat 16 n, rem := 0, nsub := 0, isOpen := false, lastSdu := none,
          sduData := [], tbOut := s.mux.msg3.bytes, tbValid := true }
        trace := s.trace ++ [.tbOut s.mux.msg3.bytes] } : State).answered .ok n)) ∧
    (n = 0 ∨ s.params.maxTbBytes < n →
      exec (.ulGrant n m3 false ci bt pt rnti ph) s =
        .next (({ s with enc := { s.enc with mode := .idle, tbValid := false } } : State).answered .tbSize (-1)))

/-- R175, R258, R260, R264-R267, R270-R273: a new transmission of a legal size always ends with a transport block of
exactly `N` bytes, whatever the sources answer. From the empty PDU with its control elements (`c`), phase 1 and then, unless
it stopped, phase 2 serve the active channels in service order; WRITE of the state reached (`u`) gives the block: header,
control-element payloads, SDU bytes, zeros. With MSG3 set the block is stored, else the stored copy is kept. The decoder, the
channel table, `FAULT`, the host port and the tokens of unlimited channels are unchanged; the observation is only extended,
the block last (that it stands after the requests is the model's choice, log entry 12). -/
def Obligations.GrantBuildsBlock : Prop :=
  ∀ (n : Nat) (m3 ci bt pt : Bool) (rnti : BitVec 16) (ph : Int) (s : State),
    BlockInv s → reserveSuffices s.params → 1 ≤ n → n ≤ s.params.maxTbBytes →
    let asked := if bt then (List.range 11).filter fun l => (s.lch l).active else []
    ∃ c u t, exec (.ulGrant n m3 false ci bt pt rnti ph) s = .next t ∧
      c = { s with
        enc := { s.enc with
          mode := .build, dir := .ul, n := BitVec.ofNat 16 n, rem := c.enc.rem, nsub := c.enc.nsub, isOpen := false,
          sub := c.enc.sub, lastSdu := none, sduData := [], tbValid := false }
        agents := asked.foldl (fun a l => (nextCountAnswer l a).2) s.agents
        trace := s.trace ++ asked.map Obs.bufferState } ∧
      c.enc.committed = t.enc.committed.filter (fun r => !recIsSdu r) ∧
      c.enc.rem.toNat + (c.enc.committed.map fun r => recLen r + 1).sum = n ∧
      ServesPhases (serviceOrder s) c u ∧
      t = ({ u with
        enc := { u.enc with isOpen := false, tbOut := t.enc.tbOut, mode := .done, tbValid := true }
        mux := { u.mux with
          msg3 := if m3 then { valid := true, len := BitVec.ofNat 16 n, bytes := t.enc.tbOut } else s.mux.msg3 }
        trace := u.trace ++ [.tbOut t.enc.tbOut] } : State).answered .ok n ∧
      t.enc.tbOut = t.enc.headerBytes ++ t.enc.cePayloadBytes ++ t.enc.sduData
        ++ List.replicate t.enc.padRegime.padn 0 ∧
      t.enc.tbOut.length = n ∧ t.enc.dir = .ul ∧ t.params = s.params ∧ t.dec = s.dec ∧ t.cfg = s.cfg ∧
      t.fault = s.fault ∧ t.host = s.host ∧ (∀ l, s.limited l = false → t.tokOf l = s.tokOf l) ∧
      ∃ new, t.trace = s.trace ++ new ++ [.tbOut t.enc.tbOut]

/-- R261-R263: the control elements of a grant, in the order C-RNTI, BSR, PHR, each one left out where it does not fit or
the record table is full. The C-RNTI element carries `RNTI`, the PHR the level of `PH`. For a BSR the sources of the
active channels are asked, ascending, before any other request. The four group sums are saturated; more than one group
with data gives LONG, or TRUNC for the group of the first channel in service order with data; at most one gives SHORT for
it, or for group 0. -/
def Obligations.GrantAddsControlElements : Prop :=
  ∀ (n : Nat) (m3 ci bt pt : Bool) (rnti : BitVec 16) (ph : Int) (s : State),
    BlockInv s → reserveSuffices s.params → 1 ≤ n → n ≤ s.params.maxTbBytes →
    let active := (List.range 11).filter fun l => (s.lch l).active
    let counts := countsAnswered active s.agents
    let sum := fun (g : BitVec 2) =>
      min 262143 ((counts.filter fun p => (s.lch p.1).lcg = g).map Prod.snd).sum
    let level := fun (b : Nat) => BitVec.ofNat 6 (bsrLevelOf s.params.bsrThresh b)
    let groups := ([0, 1, 2, 3] : List (BitVec 2)).filter fun g => 0 < sum g
    let first := (((serviceOrder s).find? fun l => counts.any fun p => p.1 = l ∧ 0 < p.2).map
      fun l => (s.lch l).lcg).getD 0
    let room := fun (before : List SubRec) => n - (before.map fun r => recLen r + 1).sum
    let add := fun (before : List SubRec) (r : Option SubRec) => match r with
      | none => before
      | some r => if recLen r + 1 ≤ room before ∧ before.length < s.params.maxSubh then before ++ [r] else before
    let crnti := add [] (if ci then some (.ce .crnti 27 2 [rnti.extractLsb 15 8, rnti.extractLsb 7 0]) else none)
    let bsr := add crnti (if bt then
        (if 1 < groups.length then
          (if 4 ≤ room crnti then some (.ce .longBsr 30 3
            [level (sum 0) ++ (level (sum 1)).extractLsb 5 4,
             (level (sum 1)).extractLsb 3 0 ++ (level (sum 2)).extractLsb 5 2,
             (level (sum 2)).extractLsb 1 0 ++ level (sum 3)])
           else some (.ce .truncBsr 28 1 [first ++ level (sum first)]))
         else some (.ce .shortBsr 29 1 [groups.headD 0 ++ level (sum (groups.headD 0))]))
      else none)
    let elements := add bsr (if pt then some (.ce .phr 26 1 [(0 : BitVec 2) ++ BitVec.ofNat 6 (phrLevelOf ph)]) else none)
    ∃ t, exec (.ulGrant n m3 false ci bt pt rnti ph) s = .next t ∧
      t.enc.committed.filter (fun r => !recIsSdu r) = elements ∧
      ∃ more, t.trace = s.trace ++ (if bt then active.map Obs.bufferState else []) ++ more

/-- R270: a grant of one byte gives `[0x1F]`; without a BSR trigger no source is asked and no token is taken. -/
def Obligations.GrantOfOneByte : Prop :=
  ∀ (m3 ci bt pt : Bool) (rnti : BitVec 16) (ph : Int) (s : State), s.params.legal = true → 1 ≤ s.params.hdrReserve →
    ∃ t, exec (.ulGrant 1 m3 false ci bt pt rnti ph) s = .next t ∧ t.err = .ok ∧ t.res = 1 ∧
      t.enc.tbOut = [0x1F] ∧ t.mux.tok = s.mux.tok ∧
      (bt = false → t.trace = s.trace ++ [.tbOut [0x1F]] ∧ t.agents = s.agents)

/-- R269: every request for SDU bytes that a grant of `N` bytes makes is for a data LCID, for at least 1 and at most
`N - 1` bytes. -/
def Obligations.GrantRequestsBounded : Prop :=
  ∀ (n : Nat) (m3 retx ci bt pt : Bool) (rnti : BitVec 16) (ph : Int) (s t : State) (new : List Obs) (l q : Nat),
    BlockInv s → exec (.ulGrant n m3 retx ci bt pt rnti ph) s = .next t → t.trace = s.trace ++ new →
    .readPdu l q ∈ new → l ≤ 10 ∧ 1 ≤ q ∧ q + 1 ≤ n

/-- R266, R269, R271: one pass of the service loop that goes on has asked its source for the count `p` and then made one
request: of the lesser of `p` and the space, and in the guaranteed phase, for a limited channel, of no more than the
tokens. It has committed the SDU record of the channel with the `k` bytes answered, `1 <= k <= req`, and taken `k` from the
tokens of a limited channel. -/
def Obligations.ServicePassTakesTokens : Prop :=
  ∀ (ph : Phase) (l : Nat) (s t : State), l ≤ 10 → servePass ph l s = (t, .again) →
    let p : Int := (nextCountAnswer l s.agents).1
    ∃ k req : Nat,
      (req : Int) = (if ph = .guaranteed ∧ s.limited l = true then min (min p s.enc.sduSpace) (s.tokOf l)
        else min p s.enc.sduSpace) ∧
      let a := (nextPduAnswer l req (nextCountAnswer l s.agents).2).1
      a.k = k ∧ a.bytes.length = k ∧ 1 ≤ k ∧ k ≤ req ∧
      t.trace = s.trace ++ [.bufferState l, .readPdu l req] ∧
      t.enc.nsub = s.enc.nsub + 1 ∧ t.enc.recAt s.enc.nsub = .sdu (BitVec.ofNat 5 l) (BitVec.ofNat 15 k) ∧
      (∀ j : BitVec 5, j ≠ s.enc.nsub → t.enc.recAt j = s.enc.recAt j) ∧
      t.enc.lastSdu = some s.enc.nsub ∧ t.enc.sduData = s.enc.sduData ++ a.bytes ∧
      (∀ m, m ≠ l → t.tokOf m = s.tokOf m) ∧
      (s.limited l = false → t.tokOf l = s.tokOf l) ∧
      (s.limited l = true → t.tokOf l = max (-2 ^ 31) (s.tokOf l - k)) ∧
      (ph = .guaranteed → s.limited l = true → 0 ≤ t.tokOf l)

/-- R266 ("The loop ends"): in a state of the invariant the loop needs no more than `MAX_SUBH + 1` passes, so the bound
the model's recursion has (log entry 11) cuts no run short. -/
def Obligations.ServeFuelSuffices : Prop :=
  ∀ (ph : Phase) (l : Nat) (s : State) (k : Nat), l ≤ 10 → s.params.legal = true → EncOk s.params s.enc →
    serve ph l (s.params.maxSubh + 1 + k) s = serve ph l (s.params.maxSubh + 1) s

/-! ### The demultiplexer (45_demux.md) -/

/-- R300, R302, R303, R305: DL_TB of a block that parses writes the decoder and appends the outputs of its records, in
record order, the argument of each event written out from the payload's bytes; `RES` is the number of SDUs delivered;
nothing else changes. -/
def Obligations.DlTbDispatchesRecords : Prop :=
  ∀ (n : Nat) (s : State) (recs : List DecRec), s.params.legal = true → n ≤ s.params.maxTbBytes →
    s.host.din.length = n →
    parse .dl s.params.maxSubhRx n s.host.din = .ok recs →
    let outs := recs.flatMap (recordOutputs s s.host.din)
    exec (.dlTb n) s = .next (({ s with
      dec := { dir := .dl, n := BitVec.ofNat 16 n, data := s.host.din, valid := true,
               nrec := BitVec.ofNat 6 recs.length, recs := recs, err := .ok }
      trace := s.trace ++ outs } : State).answered .ok (outs.countP isDelivery))

/-- R301: DL_TB of a block that does not parse emits one diagnostic with the parse error's code, delivers nothing and
fails with that error; nothing outside the decoder and the observation changes. Of `DATA` and `REC`, unspecified then
(R355), nothing is said. -/
def Obligations.DlTbDropsMalformedBlock : Prop :=
  ∀ (n : Nat) (s : State) (e : ErrCode), s.host.din.length = n → n ≤ s.params.maxTbBytes →
    parse .dl s.params.maxSubhRx n s.host.din = .error e →
    ∃ t, exec (.dlTb n) s = .next t ∧ t = (({ s with
      dec := { dir := .dl, n := BitVec.ofNat 16 n, data := t.dec.data, valid := false, nrec := 0, recs := t.dec.recs,
               err := e }
      trace := s.trace ++ [.event (eventWord 0x80 1
        (if e = .pTrunc then 0x10 else if e = .pLcid then 0x11 else if e = .pLen then 0x12 else 0x13))] }
          : State).answered e (-1)) ∧
      (e = .pTrunc ∨ e = .pLcid ∨ e = .pLen ∨ e = .pTooMany)

/-- R304: DL_TB delivers only to active channels, and never an empty SDU. -/
def Obligations.OnlyActiveChannelsServed : Prop :=
  ∀ (n : Nat) (s t : State) (new : List Obs) (l : Nat) (b : Bytes), s.params.legal = true →
    exec (.dlTb n) s = .next t → t.trace = s.trace ++ new → .writePdu l b ∈ new →
    l ≤ 10 ∧ (s.lch l).active = true ∧ b ≠ []

/-! ### Registers, reset and the whole machine (10_state.md, 70_reset_and_hazards.md) -/

/-- R31, R32, R34, R321: the fields of `STATUS` and of `DEC_STATUS`, and the numbers of the error codes, which `ERR` and
`DEC_STATUS` show. -/
def Obligations.StatusRegisterFields : Prop :=
  ∀ s : State,
    let bit := fun (b : Bool) => if b then 1 else 0
    let number := fun (e : ErrCode) => match e with
      | .ok => 0x00
      | .illegal => 0x01
      | .state => 0x02
      | .tbSize => 0x03
      | .noSubh => 0x04
      | .noSlot => 0x05
      | .space => 0x06
      | .src => 0x07
      | .arg => 0x08
      | .dir => 0x09
      | .size => 0x0A
      | .hdrReserve => 0x0B
      | .pTrunc => 0x10
      | .pLcid => 0x11
      | .pLen => 0x12
      | .pTooMany => 0x13
      | .msg3None => 0x20
      | .msg3Size => 0x21
    s.status.toNat =
      (match s.enc.mode with | .idle => 0 | .build => 1 | .done => 2) + (if s.enc.dir = .dl then 1 else 0) * 2 ^ 2
        + bit s.enc.isOpen * 2 ^ 3 + (if s.enc.lastSdu = none then 0 else 1) * 2 ^ 4 + s.enc.nsub.toNat * 2 ^ 5
        + bit s.enc.tbValid * 2 ^ 10 + bit s.dec.valid * 2 ^ 11 + bit s.mux.msg3.valid * 2 ^ 12
        + bit s.fault * 2 ^ 13 + s.enc.rem.toNat * 2 ^ 16 ∧
    s.decStatus.toNat =
      bit s.dec.valid + (if s.dec.dir = .dl then 1 else 0) * 2 + s.dec.nrec.toNat * 2 ^ 2
        + number s.dec.err * 2 ^ 8 + s.dec.n.toNat * 2 ^ 16 ∧
    s.errReg.toNat = number s.err

/-- R39, R350: the reset values the spec gives, after power-on RESET of any state and in the model's reset state. -/
def Obligations.ResetValues : Prop :=
  ∀ r : State, (r = State.reset ∨ ∃ s, r = powerOnReset s) →
    r.enc.mode = .idle ∧ r.enc.dir = .ul ∧ r.enc.n = 0 ∧ r.enc.rem = 0 ∧ r.enc.nsub = 0 ∧ r.enc.isOpen = false ∧
    r.enc.lastSdu = none ∧ r.enc.sduData = [] ∧ r.enc.tbValid = false ∧ r.res = 0 ∧ r.err = .ok ∧ r.fault = false ∧
    r.dec.valid = false ∧ r.dec.nrec = 0 ∧ r.dec.err = .ok ∧ r.dec.dir = .ul ∧ r.dec.n = 0 ∧
    r.lch 0 = { active := true, prio := 255, pbr := 0xFFFFFFFF, bsd := 0, lcg := 0 } ∧
    (∀ l, 1 ≤ l → l ≤ 10 → r.lch l = { active := false, prio := 255, pbr := 0, bsd := 0, lcg := 0 }) ∧
    (∀ l, l ≤ 10 → r.tokOf l = 0) ∧ r.mux.msg3.valid = false ∧ r.mux.msg3.len = 0 ∧
    r.status = 0 ∧ r.decStatus = 0 ∧ r.trace = [] ∧ r.host.pos = 0

/-- R351: SOFT_RESET puts the encoder, the decoder and the multiplexer at their reset values (the contents that rule R39
calls unspecified apart) and clears `FAULT`; `CFG`, the parameters and what has been observed are kept. -/
def Obligations.SoftResetReinitialises : Prop :=
  ∀ s : State, ∃ t, exec .softReset s = .next t ∧
    t.enc = { mode := .idle, dir := .ul, n := 0, rem := 0, nsub := 0, isOpen := false, sub := t.enc.sub,
              lastSdu := none, sduData := [], tbOut := t.enc.tbOut, tbValid := false } ∧
    t.dec = { valid := false, dir := .ul, n := 0, data := t.dec.data, nrec := 0, recs := t.dec.recs, err := .ok } ∧
    (∀ l, l ≤ 10 → t.tokOf l = 0) ∧ t.mux.msg3.valid = false ∧ t.mux.msg3.len = 0 ∧ t.fault = false ∧
    t.res = 1 ∧ t.err = .ok ∧ t.status = 0 ∧ t.cfg = s.cfg ∧ t.params = s.params ∧ t.trace = s.trace ∧
    t.host = s.host

/-- R20, R32, R69, R120, R201, R254, R273, R320, R323, R326, R356: every command answers a next state, and changes only
the groups of the state it may. The parameters and the host port are changed by none; `FAULT`, once set, is cleared by
SOFT_RESET alone. -/
def Obligations.GroupsChangedOnlyByTheirCommands : Prop :=
  ∀ (i : Instr) (s : State), ∃ t, exec i s = .next t ∧
    t.params = s.params ∧ t.host = s.host ∧ (∃ new, t.trace = s.trace ++ new) ∧
    ((∀ l, i ≠ .addBearer l) → (∀ l p r d, i ≠ .setPriority l p r d) → (∀ l g, i ≠ .setLcg l g) →
      i ≠ .resetBearers → t.cfg = s.cfg) ∧
    ((∀ d n, i ≠ .read d n) → (∀ n, i ≠ .dlTb n) → i ≠ .softReset → t.dec = s.dec) ∧
    ((∀ n m ci b p x ph, i ≠ .ulGrant n m false ci b p x ph) → i ≠ .softReset → t.mux.msg3 = s.mux.msg3) ∧
    ((∀ l, i ≠ .addBearer l) → i ≠ .resetBearers → (∀ x, i ≠ .ttiTick x) →
      (∀ n m ci b p x ph, i ≠ .ulGrant n m false ci b p x ph) → i ≠ .softReset → t.mux.tok = s.mux.tok) ∧
    ((∀ d n, i ≠ .initTx d n) → i ≠ .newSubh → isSetter i = false → i ≠ .write →
      (∀ n m r ci b p x ph, i ≠ .ulGrant n m r ci b p x ph) → i ≠ .softReset → t.enc = s.enc) ∧
    ((∀ d n, i ≠ .initTx d n) → i ≠ .write → (∀ n m r ci b p x ph, i ≠ .ulGrant n m r ci b p x ph) →
      i ≠ .softReset → t.enc.tbOut = s.enc.tbOut ∧ t.enc.tbValid = s.enc.tbValid ∧ t.enc.mode = s.enc.mode) ∧
    (i ≠ .softReset → s.fault = true → t.fault = true)

/-- R21-R29, R33, R35, R37, R38, R39: the reset state has the invariant. -/
def Obligations.ResetHasInvariant : Prop := BlockInv State.reset

/-- R21-R29, R38, R137 (encoder), R33, R204 (decoder), R35, R254 (LCID 0), R37 (Msg3), R63 (no buffer above its capacity):
every step keeps the invariant. -/
def Obligations.StepKeepsInvariant : Prop :=
  ∀ s t : State, BlockInv s → step s = .next t → BlockInv t

/-- R177, R179, R323: with a header region of at least `7 * MAX_SUBH + 2` bytes, no step raises a fatal construction
error: `STATUS.FAULT` stays 0 and neither fatal code is answered. -/
def Obligations.StepRaisesNoFatalError : Prop :=
  ∀ s t : State, BlockInv s → reserveSuffices s.params → noFault s → step s = .next t →
    noFault t ∧ t.err ≠ .size ∧ t.err ≠ .hdrReserve

/-- R29, R34, R64, R355, R356: what the host reads without a command: the block while it is valid, `N` bytes; the records
and the data while the decoder is valid. -/
def Obligations.HostReadsWhileValid : Prop :=
  ∀ s : State, BlockInv s →
    (s.enc.mode = .done → s.readTbOut = s.enc.tbOut ∧ s.readTbOut.length = s.enc.n.toNat) ∧
    (s.dec.valid = true → s.readDecData = s.dec.data ∧ s.readDecData.length = s.dec.n.toNat ∧
      ∀ j, j < s.dec.nrec.toNat → s.dec.recs[j]? = some (s.readDecRec j))
end

