-- ==== Sys2Proof/Laws/State.lean ====
section
/-! SUPPORT. One lemma per field per update: what each shared operation leaves in each field of the state. All
are true by unfolding, and simp uses them, so that no later proof unfolds a record update. -/

namespace Sys2Proof.Machine

open Sys2Proof.Config

@[simp] theorem ok_fst (r : Int) (s : State) : (ok r s).1 = s := rfl
@[simp] theorem ok_err (r : Int) (s : State) : (ok r s).2.err = .ok := rfl
@[simp] theorem ok_res (r : Int) (s : State) : (ok r s).2.res = r := rfl
@[simp] theorem fail_fst (e : ErrCode) (r : Int) (s : State) : (fail e r s).1 = s := rfl
@[simp] theorem fail_err (e : ErrCode) (r : Int) (s : State) : (fail e r s).2.err = e := rfl
@[simp] theorem fail_res (e : ErrCode) (r : Int) (s : State) : (fail e r s).2.res = r := rfl

@[simp] theorem finish_params (p : State × Ret) : (finish p).params = p.1.params := rfl
@[simp] theorem finish_enc (p : State × Ret) : (finish p).enc = p.1.enc := rfl
@[simp] theorem finish_dec (p : State × Ret) : (finish p).dec = p.1.dec := rfl
@[simp] theorem finish_cfg (p : State × Ret) : (finish p).cfg = p.1.cfg := rfl
@[simp] theorem finish_mux (p : State × Ret) : (finish p).mux = p.1.mux := rfl
@[simp] theorem finish_res (p : State × Ret) : (finish p).res = BitVec.ofInt 32 p.2.res := rfl
@[simp] theorem finish_err (p : State × Ret) : (finish p).err = p.2.err := rfl
@[simp] theorem finish_fault (p : State × Ret) : (finish p).fault = p.1.fault := rfl
@[simp] theorem finish_agents (p : State × Ret) : (finish p).agents = p.1.agents := rfl
@[simp] theorem finish_host (p : State × Ret) : (finish p).host = p.1.host := rfl
@[simp] theorem finish_trace (p : State × Ret) : (finish p).trace = p.1.trace := rfl

@[simp] theorem emit_params (o : Obs) (s : State) : (emit o s).params = s.params := rfl
@[simp] theorem emit_enc (o : Obs) (s : State) : (emit o s).enc = s.enc := rfl
@[simp] theorem emit_dec (o : Obs) (s : State) : (emit o s).dec = s.dec := rfl
@[simp] theorem emit_cfg (o : Obs) (s : State) : (emit o s).cfg = s.cfg := rfl
@[simp] theorem emit_mux (o : Obs) (s : State) : (emit o s).mux = s.mux := rfl
@[simp] theorem emit_res (o : Obs) (s : State) : (emit o s).res = s.res := rfl
@[simp] theorem emit_err (o : Obs) (s : State) : (emit o s).err = s.err := rfl
@[simp] theorem emit_fault (o : Obs) (s : State) : (emit o s).fault = s.fault := rfl
@[simp] theorem emit_agents (o : Obs) (s : State) : (emit o s).agents = s.agents := rfl
@[simp] theorem emit_host (o : Obs) (s : State) : (emit o s).host = s.host := rfl
@[simp] theorem emit_trace (o : Obs) (s : State) : (emit o s).trace = s.trace ++ [o] := rfl

@[simp] theorem emitEvent_params (e : Event) (s : State) : (emitEvent e s).params = s.params := rfl
@[simp] theorem emitEvent_enc (e : Event) (s : State) : (emitEvent e s).enc = s.enc := rfl
@[simp] theorem emitEvent_dec (e : Event) (s : State) : (emitEvent e s).dec = s.dec := rfl
@[simp] theorem emitEvent_cfg (e : Event) (s : State) : (emitEvent e s).cfg = s.cfg := rfl
@[simp] theorem emitEvent_mux (e : Event) (s : State) : (emitEvent e s).mux = s.mux := rfl
@[simp] theorem emitEvent_res (e : Event) (s : State) : (emitEvent e s).res = s.res := rfl
@[simp] theorem emitEvent_err (e : Event) (s : State) : (emitEvent e s).err = s.err := rfl
@[simp] theorem emitEvent_fault (e : Event) (s : State) : (emitEvent e s).fault = s.fault := rfl
@[simp] theorem emitEvent_agents (e : Event) (s : State) : (emitEvent e s).agents = s.agents := rfl
@[simp] theorem emitEvent_host (e : Event) (s : State) : (emitEvent e s).host = s.host := rfl
@[simp] theorem emitEvent_trace (e : Event) (s : State) :
    (emitEvent e s).trace = s.trace ++ [.event e.word] := rfl

@[simp] theorem sinkWritePdu_params (l : Nat) (b : Bytes) (s : State) :
    (sinkWritePdu l b s).params = s.params := rfl
@[simp] theorem sinkWritePdu_enc (l : Nat) (b : Bytes) (s : State) : (sinkWritePdu l b s).enc = s.enc := rfl
@[simp] theorem sinkWritePdu_dec (l : Nat) (b : Bytes) (s : State) : (sinkWritePdu l b s).dec = s.dec := rfl
@[simp] theorem sinkWritePdu_cfg (l : Nat) (b : Bytes) (s : State) : (sinkWritePdu l b s).cfg = s.cfg := rfl
@[simp] theorem sinkWritePdu_mux (l : Nat) (b : Bytes) (s : State) : (sinkWritePdu l b s).mux = s.mux := rfl
@[simp] theorem sinkWritePdu_res (l : Nat) (b : Bytes) (s : State) : (sinkWritePdu l b s).res = s.res := rfl
@[simp] theorem sinkWritePdu_err (l : Nat) (b : Bytes) (s : State) : (sinkWritePdu l b s).err = s.err := rfl
@[simp] theorem sinkWritePdu_fault (l : Nat) (b : Bytes) (s : State) :
    (sinkWritePdu l b s).fault = s.fault := rfl
@[simp] theorem sinkWritePdu_agents (l : Nat) (b : Bytes) (s : State) :
    (sinkWritePdu l b s).agents = s.agents := rfl
@[simp] theorem sinkWritePdu_host (l : Nat) (b : Bytes) (s : State) :
    (sinkWritePdu l b s).host = s.host := rfl
@[simp] theorem sinkWritePdu_trace (l : Nat) (b : Bytes) (s : State) :
    (sinkWritePdu l b s).trace = s.trace ++ [.writePdu l b] := rfl

@[simp] theorem srcReadPdu_params (l q : Nat) (s : State) : (srcReadPdu l q s).2.params = s.params := rfl
@[simp] theorem srcReadPdu_enc (l q : Nat) (s : State) : (srcReadPdu l q s).2.enc = s.enc := rfl
@[simp] theorem srcReadPdu_dec (l q : Nat) (s : State) : (srcReadPdu l q s).2.dec = s.dec := rfl
@[simp] theorem srcReadPdu_cfg (l q : Nat) (s : State) : (srcReadPdu l q s).2.cfg = s.cfg := rfl
@[simp] theorem srcReadPdu_mux (l q : Nat) (s : State) : (srcReadPdu l q s).2.mux = s.mux := rfl
@[simp] theorem srcReadPdu_res (l q : Nat) (s : State) : (srcReadPdu l q s).2.res = s.res := rfl
@[simp] theorem srcReadPdu_err (l q : Nat) (s : State) : (srcReadPdu l q s).2.err = s.err := rfl
@[simp] theorem srcReadPdu_fault (l q : Nat) (s : State) : (srcReadPdu l q s).2.fault = s.fault := rfl
@[simp] theorem srcReadPdu_agents (l q : Nat) (s : State) :
    (srcReadPdu l q s).2.agents = (nextPduAnswer l q s.agents).2 := rfl
@[simp] theorem srcReadPdu_host (l q : Nat) (s : State) : (srcReadPdu l q s).2.host = s.host := rfl
@[simp] theorem srcReadPdu_trace (l q : Nat) (s : State) :
    (srcReadPdu l q s).2.trace = s.trace ++ [.readPdu l q] := rfl
@[simp] theorem srcReadPdu_answer (l q : Nat) (s : State) :
    (srcReadPdu l q s).1 = (nextPduAnswer l q s.agents).1 := rfl

@[simp] theorem srcBufferState_params (l : Nat) (s : State) : (srcBufferState l s).2.params = s.params := rfl
@[simp] theorem srcBufferState_enc (l : Nat) (s : State) : (srcBufferState l s).2.enc = s.enc := rfl
@[simp] theorem srcBufferState_dec (l : Nat) (s : State) : (srcBufferState l s).2.dec = s.dec := rfl
@[simp] theorem srcBufferState_cfg (l : Nat) (s : State) : (srcBufferState l s).2.cfg = s.cfg := rfl
@[simp] theorem srcBufferState_mux (l : Nat) (s : State) : (srcBufferState l s).2.mux = s.mux := rfl
@[simp] theorem srcBufferState_res (l : Nat) (s : State) : (srcBufferState l s).2.res = s.res := rfl
@[simp] theorem srcBufferState_err (l : Nat) (s : State) : (srcBufferState l s).2.err = s.err := rfl
@[simp] theorem srcBufferState_fault (l : Nat) (s : State) : (srcBufferState l s).2.fault = s.fault := rfl
@[simp] theorem srcBufferState_agents (l : Nat) (s : State) :
    (srcBufferState l s).2.agents = (nextCountAnswer l s.agents).2 := rfl
@[simp] theorem srcBufferState_host (l : Nat) (s : State) : (srcBufferState l s).2.host = s.host := rfl
@[simp] theorem srcBufferState_trace (l : Nat) (s : State) :
    (srcBufferState l s).2.trace = s.trace ++ [.bufferState l] := rfl
@[simp] theorem srcBufferState_answer (l : Nat) (s : State) :
    (srcBufferState l s).1 = (nextCountAnswer l s.agents).1 := rfl

@[simp] theorem setLch_params (s : State) (l : Nat) (c : Lch) : (s.setLch l c).params = s.params := rfl
@[simp] theorem setLch_enc (s : State) (l : Nat) (c : Lch) : (s.setLch l c).enc = s.enc := rfl
@[simp] theorem setLch_dec (s : State) (l : Nat) (c : Lch) : (s.setLch l c).dec = s.dec := rfl
@[simp] theorem setLch_cfg (s : State) (l : Nat) (c : Lch) :
    (s.setLch l c).cfg = s.cfg.setIfInBounds l c := rfl
@[simp] theorem setLch_mux (s : State) (l : Nat) (c : Lch) : (s.setLch l c).mux = s.mux := rfl
@[simp] theorem setLch_res (s : State) (l : Nat) (c : Lch) : (s.setLch l c).res = s.res := rfl
@[simp] theorem setLch_err (s : State) (l : Nat) (c : Lch) : (s.setLch l c).err = s.err := rfl
@[simp] theorem setLch_fault (s : State) (l : Nat) (c : Lch) : (s.setLch l c).fault = s.fault := rfl
@[simp] theorem setLch_agents (s : State) (l : Nat) (c : Lch) : (s.setLch l c).agents = s.agents := rfl
@[simp] theorem setLch_host (s : State) (l : Nat) (c : Lch) : (s.setLch l c).host = s.host := rfl
@[simp] theorem setLch_trace (s : State) (l : Nat) (c : Lch) : (s.setLch l c).trace = s.trace := rfl

@[simp] theorem setTok_params (s : State) (l : Nat) (v : Int) : (s.setTok l v).params = s.params := rfl
@[simp] theorem setTok_enc (s : State) (l : Nat) (v : Int) : (s.setTok l v).enc = s.enc := rfl
@[simp] theorem setTok_dec (s : State) (l : Nat) (v : Int) : (s.setTok l v).dec = s.dec := rfl
@[simp] theorem setTok_cfg (s : State) (l : Nat) (v : Int) : (s.setTok l v).cfg = s.cfg := rfl
@[simp] theorem setTok_msg3 (s : State) (l : Nat) (v : Int) : (s.setTok l v).mux.msg3 = s.mux.msg3 := rfl
@[simp] theorem setTok_tok (s : State) (l : Nat) (v : Int) :
    (s.setTok l v).mux.tok = s.mux.tok.setIfInBounds l (BitVec.ofInt 32 (sat32 v)) := rfl
@[simp] theorem setTok_res (s : State) (l : Nat) (v : Int) : (s.setTok l v).res = s.res := rfl
@[simp] theorem setTok_err (s : State) (l : Nat) (v : Int) : (s.setTok l v).err = s.err := rfl
@[simp] theorem setTok_fault (s : State) (l : Nat) (v : Int) : (s.setTok l v).fault = s.fault := rfl
@[simp] theorem setTok_agents (s : State) (l : Nat) (v : Int) : (s.setTok l v).agents = s.agents := rfl
@[simp] theorem setTok_host (s : State) (l : Nat) (v : Int) : (s.setTok l v).host = s.host := rfl
@[simp] theorem setTok_trace (s : State) (l : Nat) (v : Int) : (s.setTok l v).trace = s.trace := rfl

@[simp] theorem abortPdu_params (s : State) : (abortPdu s).params = s.params := rfl
@[simp] theorem abortPdu_enc (s : State) : (abortPdu s).enc = s.enc.toIdle := rfl
@[simp] theorem abortPdu_dec (s : State) : (abortPdu s).dec = s.dec := rfl
@[simp] theorem abortPdu_cfg (s : State) : (abortPdu s).cfg = s.cfg := rfl
@[simp] theorem abortPdu_mux (s : State) : (abortPdu s).mux = s.mux := rfl
@[simp] theorem abortPdu_res (s : State) : (abortPdu s).res = s.res := rfl
@[simp] theorem abortPdu_err (s : State) : (abortPdu s).err = s.err := rfl
@[simp] theorem abortPdu_fault (s : State) : (abortPdu s).fault = true := rfl
@[simp] theorem abortPdu_agents (s : State) : (abortPdu s).agents = s.agents := rfl
@[simp] theorem abortPdu_host (s : State) : (abortPdu s).host = s.host := rfl
@[simp] theorem abortPdu_trace (s : State) : (abortPdu s).trace = s.trace := rfl

@[simp] theorem commitTb_params (out : Bytes) (s : State) : (commitTb out s).params = s.params := rfl
@[simp] theorem commitTb_enc (out : Bytes) (s : State) :
    (commitTb out s).enc = { s.enc with tbOut := out, mode := .done, tbValid := true } := rfl
@[simp] theorem commitTb_dec (out : Bytes) (s : State) : (commitTb out s).dec = s.dec := rfl
@[simp] theorem commitTb_cfg (out : Bytes) (s : State) : (commitTb out s).cfg = s.cfg := rfl
@[simp] theorem commitTb_mux (out : Bytes) (s : State) : (commitTb out s).mux = s.mux := rfl
@[simp] theorem commitTb_res (out : Bytes) (s : State) : (commitTb out s).res = s.res := rfl
@[simp] theorem commitTb_err (out : Bytes) (s : State) : (commitTb out s).err = s.err := rfl
@[simp] theorem commitTb_fault (out : Bytes) (s : State) : (commitTb out s).fault = s.fault := rfl
@[simp] theorem commitTb_agents (out : Bytes) (s : State) : (commitTb out s).agents = s.agents := rfl
@[simp] theorem commitTb_host (out : Bytes) (s : State) : (commitTb out s).host = s.host := rfl
@[simp] theorem commitTb_trace (out : Bytes) (s : State) :
    (commitTb out s).trace = s.trace ++ [.tbOut out] := rfl

@[simp] theorem retire_params (s : State) : (retire s).params = s.params := rfl
@[simp] theorem retire_enc (s : State) : (retire s).enc = s.enc := rfl
@[simp] theorem retire_dec (s : State) : (retire s).dec = s.dec := rfl
@[simp] theorem retire_cfg (s : State) : (retire s).cfg = s.cfg := rfl
@[simp] theorem retire_mux (s : State) : (retire s).mux = s.mux := rfl
@[simp] theorem retire_res (s : State) : (retire s).res = s.res := rfl
@[simp] theorem retire_err (s : State) : (retire s).err = s.err := rfl
@[simp] theorem retire_fault (s : State) : (retire s).fault = s.fault := rfl
@[simp] theorem retire_agents (s : State) : (retire s).agents = s.agents := rfl
@[simp] theorem retire_host (s : State) :
    (retire s).host = { s.host with din := [], pos := s.host.pos + 1 } := rfl
@[simp] theorem retire_trace (s : State) : (retire s).trace = s.trace ++ [.result s.res s.err] := rfl

@[simp] theorem toIdle_mode (e : Enc) : e.toIdle.mode = .idle := rfl
@[simp] theorem toIdle_dir (e : Enc) : e.toIdle.dir = e.dir := rfl
@[simp] theorem toIdle_n (e : Enc) : e.toIdle.n = e.n := rfl
@[simp] theorem toIdle_rem (e : Enc) : e.toIdle.rem = e.rem := rfl
@[simp] theorem toIdle_nsub (e : Enc) : e.toIdle.nsub = e.nsub := rfl
@[simp] theorem toIdle_isOpen (e : Enc) : e.toIdle.isOpen = e.isOpen := rfl
@[simp] theorem toIdle_sub (e : Enc) : e.toIdle.sub = e.sub := rfl
@[simp] theorem toIdle_lastSdu (e : Enc) : e.toIdle.lastSdu = e.lastSdu := rfl
@[simp] theorem toIdle_sduData (e : Enc) : e.toIdle.sduData = e.sduData := rfl
@[simp] theorem toIdle_tbOut (e : Enc) : e.toIdle.tbOut = e.tbOut := rfl
@[simp] theorem toIdle_tbValid (e : Enc) : e.toIdle.tbValid = false := rfl

@[simp] theorem start_mode (e : Enc) (m : Mode) (d : Dir) (n r : BitVec 16) :
    (e.start m d n r).mode = m := rfl
@[simp] theorem start_dir (e : Enc) (m : Mode) (d : Dir) (n r : BitVec 16) : (e.start m d n r).dir = d := rfl
@[simp] theorem start_n (e : Enc) (m : Mode) (d : Dir) (n r : BitVec 16) : (e.start m d n r).n = n := rfl
@[simp] theorem start_rem (e : Enc) (m : Mode) (d : Dir) (n r : BitVec 16) : (e.start m d n r).rem = r := rfl
@[simp] theorem start_nsub (e : Enc) (m : Mode) (d : Dir) (n r : BitVec 16) :
    (e.start m d n r).nsub = 0 := rfl
@[simp] theorem start_isOpen (e : Enc) (m : Mode) (d : Dir) (n r : BitVec 16) :
    (e.start m d n r).isOpen = false := rfl
@[simp] theorem start_sub (e : Enc) (m : Mode) (d : Dir) (n r : BitVec 16) :
    (e.start m d n r).sub = e.sub := rfl
@[simp] theorem start_lastSdu (e : Enc) (m : Mode) (d : Dir) (n r : BitVec 16) :
    (e.start m d n r).lastSdu = none := rfl
@[simp] theorem start_sduData (e : Enc) (m : Mode) (d : Dir) (n r : BitVec 16) :
    (e.start m d n r).sduData = [] := rfl
@[simp] theorem start_tbOut (e : Enc) (m : Mode) (d : Dir) (n r : BitVec 16) :
    (e.start m d n r).tbOut = e.tbOut := rfl
@[simp] theorem start_tbValid (e : Enc) (m : Mode) (d : Dir) (n r : BitVec 16) :
    (e.start m d n r).tbValid = e.tbValid := rfl

@[simp] theorem commitRec_mode (r : SubRec) (c : Nat) (e : Enc) : (e.commitRec r c).mode = e.mode := rfl
@[simp] theorem commitRec_dir (r : SubRec) (c : Nat) (e : Enc) : (e.commitRec r c).dir = e.dir := rfl
@[simp] theorem commitRec_n (r : SubRec) (c : Nat) (e : Enc) : (e.commitRec r c).n = e.n := rfl
@[simp] theorem commitRec_rem (r : SubRec) (c : Nat) (e : Enc) :
    (e.commitRec r c).rem = BitVec.ofNat 16 (e.rem.toNat - c) := rfl
@[simp] theorem commitRec_nsub (r : SubRec) (c : Nat) (e : Enc) : (e.commitRec r c).nsub = e.nsub + 1 := rfl
@[simp] theorem commitRec_isOpen (r : SubRec) (c : Nat) (e : Enc) : (e.commitRec r c).isOpen = false := rfl
@[simp] theorem commitRec_sub (r : SubRec) (c : Nat) (e : Enc) :
    (e.commitRec r c).sub = e.sub.set e.nsub.toNat r e.nsub.isLt := rfl
@[simp] theorem commitRec_lastSdu (r : SubRec) (c : Nat) (e : Enc) :
    (e.commitRec r c).lastSdu = e.lastSdu := rfl
@[simp] theorem commitRec_sduData (r : SubRec) (c : Nat) (e : Enc) :
    (e.commitRec r c).sduData = e.sduData := rfl
@[simp] theorem commitRec_tbOut (r : SubRec) (c : Nat) (e : Enc) : (e.commitRec r c).tbOut = e.tbOut := rfl
@[simp] theorem commitRec_tbValid (r : SubRec) (c : Nat) (e : Enc) :
    (e.commitRec r c).tbValid = e.tbValid := rfl

@[simp] theorem commitSdu_mode (l k : Nat) (b : Bytes) (e : Enc) : (e.commitSdu l k b).mode = e.mode := rfl
@[simp] theorem commitSdu_dir (l k : Nat) (b : Bytes) (e : Enc) : (e.commitSdu l k b).dir = e.dir := rfl
@[simp] theorem commitSdu_n (l k : Nat) (b : Bytes) (e : Enc) : (e.commitSdu l k b).n = e.n := rfl
@[simp] theorem commitSdu_rem (l k : Nat) (b : Bytes) (e : Enc) :
    (e.commitSdu l k b).rem = BitVec.ofNat 16 (e.rem.toNat - (k + 1 + e.lastExtra)) := rfl
@[simp] theorem commitSdu_nsub (l k : Nat) (b : Bytes) (e : Enc) :
    (e.commitSdu l k b).nsub = e.nsub + 1 := rfl
@[simp] theorem commitSdu_isOpen (l k : Nat) (b : Bytes) (e : Enc) : (e.commitSdu l k b).isOpen = false := rfl
@[simp] theorem commitSdu_sub (l k : Nat) (b : Bytes) (e : Enc) :
    (e.commitSdu l k b).sub = e.sub.set e.nsub.toNat (.sdu (BitVec.ofNat 5 l) (BitVec.ofNat 15 k)) e.nsub.isLt := rfl
@[simp] theorem commitSdu_lastSdu (l k : Nat) (b : Bytes) (e : Enc) :
    (e.commitSdu l k b).lastSdu = some e.nsub := rfl
@[simp] theorem commitSdu_sduData (l k : Nat) (b : Bytes) (e : Enc) :
    (e.commitSdu l k b).sduData = e.sduData ++ b := rfl
@[simp] theorem commitSdu_tbOut (l k : Nat) (b : Bytes) (e : Enc) : (e.commitSdu l k b).tbOut = e.tbOut := rfl
@[simp] theorem commitSdu_tbValid (l k : Nat) (b : Bytes) (e : Enc) :
    (e.commitSdu l k b).tbValid = e.tbValid := rfl

@[simp] theorem commitCe_mode (t : CeType) (p : Bytes) (e : Enc) : (e.commitCe t p).mode = e.mode := rfl
@[simp] theorem commitCe_dir (t : CeType) (p : Bytes) (e : Enc) : (e.commitCe t p).dir = e.dir := rfl
@[simp] theorem commitCe_n (t : CeType) (p : Bytes) (e : Enc) : (e.commitCe t p).n = e.n := rfl
@[simp] theorem commitCe_rem (t : CeType) (p : Bytes) (e : Enc) :
    (e.commitCe t p).rem = BitVec.ofNat 16 (e.rem.toNat - (p.length + 1)) := rfl
@[simp] theorem commitCe_nsub (t : CeType) (p : Bytes) (e : Enc) : (e.commitCe t p).nsub = e.nsub + 1 := rfl
@[simp] theorem commitCe_isOpen (t : CeType) (p : Bytes) (e : Enc) : (e.commitCe t p).isOpen = false := rfl
@[simp] theorem commitCe_sub (t : CeType) (p : Bytes) (e : Enc) :
    (e.commitCe t p).sub = e.sub.set e.nsub.toNat (.ce t (ceLcid t) (BitVec.ofNat 15 p.length) p) e.nsub.isLt := rfl
@[simp] theorem commitCe_lastSdu (t : CeType) (p : Bytes) (e : Enc) :
    (e.commitCe t p).lastSdu = e.lastSdu := rfl
@[simp] theorem commitCe_sduData (t : CeType) (p : Bytes) (e : Enc) :
    (e.commitCe t p).sduData = e.sduData := rfl
@[simp] theorem commitCe_tbOut (t : CeType) (p : Bytes) (e : Enc) : (e.commitCe t p).tbOut = e.tbOut := rfl
@[simp] theorem commitCe_tbValid (t : CeType) (p : Bytes) (e : Enc) :
    (e.commitCe t p).tbValid = e.tbValid := rfl

end Sys2Proof.Machine
end

