-- ==== Sys2Proof/Laws/Ops.lean ====
section
/-! SUPPORT. The laws of the shared operations: what each one can do, said once. -/

namespace Sys2Proof.Machine

open Sys2Proof.Config

/-- A command completes: its outcome is the next state its body gives. -/
theorem complete_eq (p : State × Ret) : complete p = .next (finish p) := rfl

/-- The successor of the record count, below the width of its field. -/
theorem nsub_succ_toNat {n : BitVec 5} (h : n.toNat < 31) : (n + 1).toNat = n.toNat + 1 := by
  simp [BitVec.toNat_add]; omega

/-- The committed records are as many as `NSUB` says. -/
@[simp] theorem committed_length (e : Enc) : e.committed.length = e.nsub.toNat := by
  have := e.nsub.isLt
  simp [Enc.committed]; omega

/-- The committed record at an index below `NSUB` is the table's. -/
theorem committed_getElem {e : Enc} {i : BitVec 5} (h : i.toNat < e.nsub.toNat) :
    e.committed[i.toNat]'(by simpa using h) = e.recAt i := by
  simp [Enc.committed, Enc.recAt]

/-- A record is committed exactly when the table holds it below `NSUB`. -/
theorem mem_committed {e : Enc} {r : SubRec} :
    r ∈ e.committed ↔ ∃ i : BitVec 5, i.toNat < e.nsub.toNat ∧ e.recAt i = r := by
  rw [List.mem_iff_getElem]
  constructor
  · rintro ⟨i, hi, rfl⟩
    have h5 := e.nsub.isLt
    rw [committed_length] at hi
    have hlt : i % 32 = i := by omega
    refine ⟨BitVec.ofNat 5 i, by simpa [hlt] using hi, ?_⟩
    rw [← committed_getElem (by simpa [hlt] using hi)]
    simp [hlt]
  · rintro ⟨i, hi, rfl⟩
    exact ⟨i.toNat, by simpa using hi, committed_getElem hi⟩

/-- Filling the open slot appends its record to the committed ones (R126, R127). -/
theorem committed_commitRec {e : Enc} (h : e.nsub.toNat < 31) (r : SubRec) (c : Nat) :
    (e.commitRec r c).committed = e.committed ++ [r] := by
  have h1 := nsub_succ_toNat h
  have h2 : e.nsub.toNat < e.sub.toList.length := by simp; omega
  simp only [Enc.committed, commitRec_sub, commitRec_nsub, h1, Vector.toList_set]
  rw [List.take_add_one, List.take_set_of_le (Nat.le_refl _), List.getElem?_set_self h2]
  rfl

/-- Filling the open slot leaves the records at other indices. -/
theorem recAt_commitRec_ne {e : Enc} {i : BitVec 5} (h : i ≠ e.nsub) (r : SubRec) (c : Nat) :
    (e.commitRec r c).recAt i = e.recAt i := by
  have : e.nsub.toNat ≠ i.toNat := fun k => h (BitVec.eq_of_toNat_eq k.symm)
  simp [Enc.recAt, this]

/-- Filling the open slot puts the record at `NSUB`. -/
theorem recAt_commitRec_self (e : Enc) (r : SubRec) (c : Nat) : (e.commitRec r c).recAt e.nsub = r := by
  simp [Enc.recAt]

/-- The setters' preconditions hold exactly in BUILD with an open slot (R125). -/
theorem setterCheck_none {s : State} :
    setterCheck s = none ↔ s.enc.mode = .build ∧ s.enc.isOpen = true := by
  unfold setterCheck
  split
  · simp_all
  · split <;> simp_all

/-- Which precondition fails first (R125). -/
theorem setterCheck_some {s : State} {e : ErrCode} :
    setterCheck s = some e ↔
      (s.enc.mode ≠ .build ∧ e = .state) ∨ (s.enc.mode = .build ∧ s.enc.isOpen = false ∧ e = .noSlot) := by
  unfold setterCheck
  by_cases h1 : s.enc.mode = .build
  · cases h2 : s.enc.isOpen <;> simp [h1, eq_comm (a := e)]
  · simp [h1, eq_comm (a := e)]

/-- Everything a CE setter can do (R125, R127): it fails and changes nothing, or it commits. -/
theorem ceSetter_cases (t : CeType) (pay : Bytes) (s : State) :
    ((ceSetter t pay s).1 = s ∧ (ceSetter t pay s).2.res = -1 ∧ (ceSetter t pay s).2.err ≠ .ok) ∨
    (s.enc.mode = .build ∧ s.enc.isOpen = true ∧ allowed s.enc.dir t = true ∧
      pay.length + 1 ≤ s.enc.rem.toNat ∧
      ceSetter t pay s = ok pay.length { s with enc := s.enc.commitCe t pay }) := by
  unfold ceSetter
  split
  · rename_i e h
    rcases setterCheck_some.1 h with ⟨_, rfl⟩ | ⟨_, _, rfl⟩ <;> exact .inl ⟨rfl, rfl, by simp⟩
  · rename_i h
    obtain ⟨h1, h2⟩ := setterCheck_none.1 h
    unfold setCe
    split
    · exact .inl ⟨rfl, rfl, by simp⟩
    · split
      · exact .inl ⟨rfl, rfl, by simp⟩
      · rename_i h3 h4
        refine .inr ⟨h1, h2, by simpa using h3, ?_, rfl⟩
        simpa [Enc.ceFits] using h4

/-- SET_BSR is a CE setter of one of three types, or fails on the reserved format (R128). -/
theorem setBsrBody_cases (f : BsrFmt) (g : BitVec 2) (b0 b1 b2 b3 : Nat) (s : State) :
    ((setBsrBody f g b0 b1 b2 b3 s).1 = s ∧ (setBsrBody f g b0 b1 b2 b3 s).2.res = -1 ∧
      (setBsrBody f g b0 b1 b2 b3 s).2.err ≠ .ok) ∨
    (∃ pay : Bytes, pay.length = 3 ∧ f = .long ∧
      setBsrBody f g b0 b1 b2 b3 s = ceSetter .longBsr pay s) ∨
    (∃ pay : Bytes, pay.length = 1 ∧ f = .short ∧
      setBsrBody f g b0 b1 b2 b3 s = ceSetter .shortBsr pay s) ∨
    (∃ pay : Bytes, pay.length = 1 ∧ f = .trunc ∧
      setBsrBody f g b0 b1 b2 b3 s = ceSetter .truncBsr pay s) := by
  unfold setBsrBody
  split
  · rename_i e h
    rcases setterCheck_some.1 h with ⟨_, rfl⟩ | ⟨_, _, rfl⟩ <;> exact .inl ⟨rfl, rfl, by simp⟩
  · rename_i h
    cases f
    · exact .inr (.inr (.inl ⟨shortBsrBytes _ _, rfl, rfl, by unfold ceSetter; rw [h]⟩))
    · exact .inr (.inl ⟨longBsrBytes _ _ _ _, rfl, rfl, by unfold ceSetter; rw [h]⟩)
    · exact .inr (.inr (.inr ⟨shortBsrBytes _ _, rfl, rfl, by unfold ceSetter; rw [h]⟩))
    · exact .inl ⟨rfl, rfl, by simp⟩

/-- The source's answer is accepted exactly within its bounds (R126). -/
theorem badAnswer_false {q : Nat} {a : ReadAnswer} :
    badAnswer q a = false ↔ (0 ≤ a.k ∧ a.k ≤ q) ∧ (a.bytes.length : Int) = a.k := by
  simp [badAnswer]

/-- Everything SET_SDU can do (R126): fail or answer 0 without a request, make a request whose answer commits
nothing, or commit `k` bytes with `1 <= k <= REQ <= SduSpace()`. -/
theorem setSduBody_cases (l q : Nat) (s : State) :
    ((setSduBody l q s).1 = s ∧ (setSduBody l q s).2.res ≤ 0) ∨
    (s.enc.mode = .build ∧ s.enc.isOpen = true ∧ l ≤ lcidSduMax ∧ 1 ≤ q ∧ (q : Int) ≤ s.enc.sduSpace ∧
      (setSduBody l q s).1 = (srcReadPdu l q s).2 ∧ (setSduBody l q s).2.res ≤ 0) ∨
    (s.enc.mode = .build ∧ s.enc.isOpen = true ∧ l ≤ lcidSduMax ∧ 1 ≤ q ∧ (q : Int) ≤ s.enc.sduSpace ∧
      ∃ k : Nat, 1 ≤ k ∧ k ≤ q ∧ (nextPduAnswer l q s.agents).1.bytes.length = k ∧
        (nextPduAnswer l q s.agents).1.k = (k : Int) ∧
        setSduBody l q s =
          ok k { (srcReadPdu l q s).2 with
            enc := s.enc.commitSdu l k (nextPduAnswer l q s.agents).1.bytes }) := by
  unfold setSduBody
  split
  · exact .inl ⟨rfl, by simp⟩
  rename_i h
  obtain ⟨h1, h2⟩ := setterCheck_none.1 h
  split
  · exact .inl ⟨rfl, by simp⟩
  split
  · exact .inl ⟨rfl, by simp⟩
  split
  · exact .inl ⟨rfl, by simp⟩
  rename_i h3 h4 h5
  refine .inr ?_
  unfold setSduAnswered
  split
  · exact .inl ⟨h1, h2, by omega, by omega, by omega, rfl, by simp⟩
  split
  · exact .inl ⟨h1, h2, by omega, by omega, by omega, rfl, by simp⟩
  rename_i h6 h7
  refine .inr ⟨h1, h2, by omega, by omega, by omega, (nextPduAnswer l q s.agents).1.k.toNat, ?_⟩
  obtain ⟨⟨h8, h9⟩, h10⟩ := badAnswer_false.1 (by simpa using h6)
  simp only [srcReadPdu_answer] at h7
  have hk : ((nextPduAnswer l q s.agents).1.k.toNat : Int) = (nextPduAnswer l q s.agents).1.k := by omega
  refine ⟨by omega, by omega, by omega, hk.symm, ?_⟩
  simp [ok, hk]

/-- Everything NEW_SUBH can do (R124). -/
theorem newSubhBody_cases (s : State) :
    (newSubhBody s = fail .state (-1) s ∧ s.enc.mode ≠ .build) ∨
    (newSubhBody s = ok 1 s ∧ s.enc.mode = .build ∧ s.enc.isOpen = true) ∨
    (newSubhBody s = fail .noSubh (-1) s ∧ s.enc.mode = .build ∧ s.enc.isOpen = false ∧
      s.enc.nsub.toNat = s.params.maxSubh) ∨
    (newSubhBody s = ok 1 { s with enc := { s.enc with isOpen := true } } ∧ s.enc.mode = .build ∧
      s.enc.isOpen = false ∧ s.enc.nsub.toNat ≠ s.params.maxSubh) := by
  unfold newSubhBody
  split
  · exact .inl ⟨rfl, by assumption⟩
  split
  · exact .inr (.inl ⟨rfl, by simp_all, by assumption⟩)
  split
  · exact .inr (.inr (.inl ⟨rfl, by simp_all, by simp_all, by assumption⟩))
  · exact .inr (.inr (.inr ⟨rfl, by simp_all, by simp_all, by assumption⟩))

/-- Everything WRITE can do (R170): fail outside BUILD, abort the PDU with a fatal error, or produce the
transport block. -/
theorem writeBody_cases (s : State) :
    (s.enc.mode ≠ .build ∧ writeBody s = fail .state (-1) s) ∨
    (s.enc.mode = .build ∧ (∃ e, (e = .hdrReserve ∨ e = .size) ∧
      writeBody s = fail e (-1) (abortPdu { s with enc := { s.enc with isOpen := false } }))) ∨
    (s.enc.mode = .build ∧
      s.enc.headerBytes.length + s.enc.cePayloadBytes.length + s.enc.sduTotal + s.enc.padRegime.padn
        = s.enc.n.toNat ∧
      writeBody s = ok s.enc.n.toNat
        (commitTb (assembleTb s.enc.headerBytes s.enc.cePayloadBytes s.enc.sduData s.enc.padRegime.padn)
          { s with enc := { s.enc with isOpen := false } })) := by
  unfold writeBody
  split
  · exact .inl ⟨by assumption, rfl⟩
  rename_i h
  have hm : s.enc.mode = .build := by simpa using h
  refine .inr ?_
  unfold finaliseTb
  split
  · exact .inl ⟨hm, _, .inl rfl, rfl⟩
  split
  · exact .inl ⟨hm, _, .inr rfl, rfl⟩
  · rename_i h1 h2
    exact .inr ⟨hm, by simpa [Enc.sduTotal] using h2, rfl⟩

/-- A written channel reads as written (R35). -/
theorem lch_setLch_self {s : State} {l : Nat} (h : l ≤ lcidSduMax) (c : Lch) : (s.setLch l c).lch l = c := by
  unfold lcidSduMax at h
  simp [State.lch, State.setLch, show l < 11 by omega]

/-- Writing a channel leaves the others (R35). -/
theorem lch_setLch_ne {s : State} {l m : Nat} (h : m ≠ l) (c : Lch) : (s.setLch l c).lch m = s.lch m := by
  simp [State.lch, State.setLch, Ne.symm h]

/-- `sat32` fits 32 bits: storing it changes nothing (R257). -/
theorem toInt_sat32 (v : Int) : (BitVec.ofInt 32 (sat32 v)).toInt = sat32 v := by
  rw [BitVec.toInt_ofInt, Int.bmod_def]
  unfold sat32
  split <;> omega

/-- A written token count reads as its saturation (R257). -/
theorem tokOf_setTok_self {s : State} {l : Nat} (h : l ≤ lcidSduMax) (v : Int) : (s.setTok l v).tokOf l = sat32 v := by
  unfold lcidSduMax at h
  have hl : l < 11 := by omega
  simpa [State.tokOf, State.setTok, hl] using toInt_sat32 v

/-- Writing a token count leaves the others (R36). -/
theorem tokOf_setTok_ne {s : State} {l m : Nat} (h : m ≠ l) (v : Int) : (s.setTok l v).tokOf m = s.tokOf m := by
  simp [State.tokOf, State.setTok, Ne.symm h]

/-- A token count is a 32-bit signed number (R36). -/
theorem tokOf_bounds (s : State) (l : Nat) : -2147483648 ≤ s.tokOf l ∧ s.tokOf l ≤ 2147483647 := by
  have h1 := BitVec.le_toInt ((s.mux.tok[l]?).getD 0)
  have h2 := BitVec.toInt_lt (x := (s.mux.tok[l]?).getD 0)
  unfold State.tokOf
  omega

end Sys2Proof.Machine
end

