-- ==== Sys2Proof/Laws/Encoder.lean ====
section
/-! SUPPORT. The encoder's invariant under each change of the encoder: the accounting of R38 (R137), the
record table, `LAST_SDU` (R27), and the exact size of the block WRITE lays out (R179). -/

namespace Sys2Proof.Machine

open Sys2Proof.Config

/-- Leaving one index out of a sum over a range, and adding its term again. -/
theorem sum_range_without (g : Nat → Nat) (k : Nat) :
    ∀ n, k < n → ((List.range n).map fun i => if i = k then 0 else g i).sum + g k
      = ((List.range n).map g).sum
  | 0, h => absurd h (by omega)
  | n + 1, h => by
    rw [List.range_succ, List.map_append, List.map_append, List.sum_append, List.sum_append]
    by_cases hk : k = n
    · subst hk
      have : ((List.range k).map fun i => if i = k then 0 else g i) = (List.range k).map g := by
        apply List.map_congr_left
        intro i hi
        have := List.mem_range.1 hi
        simp; omega
      simp [this]
    · have ih := sum_range_without g k n (by omega)
      have : ¬ n = k := by omega
      simp [this]; omega

/-- The committed records as a walk over the indices below `NSUB`. -/
theorem committed_map (e : Enc) (f : SubRec → Nat) :
    e.committed.map f = (List.range e.nsub.toNat).map fun i => f (e.recAt (BitVec.ofNat 5 i)) := by
  apply List.ext_getElem
  · simp
  · intro i h1 h2
    have h5 := e.nsub.isLt
    have hi : i < e.nsub.toNat := by simpa using h1
    have hm : i % 32 = i := by omega
    have := committed_getElem (e := e) (i := BitVec.ofNat 5 i) (by simpa [hm] using hi)
    simp only [BitVec.toNat_ofNat, Nat.reducePow, hm] at this
    simp [this]

/-- The header bytes the last SDU may still need, as a term of the table. -/
theorem lastExtra_eq {e : Enc} {i : BitVec 5} (h : e.lastSdu = some i) :
    e.lastExtra = hdrSize (recLen (e.recAt i)) - 1 := by
  simp [Enc.lastExtra, h]

/-- With `LAST_SDU` right, the second sum of R38 and the last SDU's own term make the full header sizes. -/
theorem nonLastExtra_add_lastExtra {e : Enc} (h : e.lastSduOk) :
    e.nonLastExtra + e.lastExtra = (e.committed.map sduHeaderExtra).sum := by
  rw [committed_map]
  unfold Enc.nonLastExtra
  unfold Enc.lastSduOk at h
  have h5 := e.nsub.isLt
  cases hl : e.lastSdu with
  | none => simp [Enc.lastExtra, hl]
  | some i =>
    rw [hl] at h
    obtain ⟨hi, hs, -⟩ := h
    have key := sum_range_without (fun j => sduHeaderExtra (e.recAt (BitVec.ofNat 5 j))) i.toNat e.nsub.toNat hi
    have hcongr : ((List.range e.nsub.toNat).map fun j =>
          if some i = some (BitVec.ofNat 5 j) then 0 else sduHeaderExtra (e.recAt (BitVec.ofNat 5 j)))
        = (List.range e.nsub.toNat).map fun j =>
          if j = i.toNat then 0 else sduHeaderExtra (e.recAt (BitVec.ofNat 5 j)) := by
      apply List.map_congr_left
      intro j hj
      have hj := List.mem_range.1 hj
      have hm : j % 32 = j := by omega
      have : (some i = some (BitVec.ofNat 5 j)) ↔ j = i.toNat := by
        rw [Option.some.injEq]
        constructor
        · rintro rfl; simp [hm]
        · rintro rfl; simp
      simp only [this]
    rw [hcongr, ← key, lastExtra_eq hl]
    simp [sduHeaderExtra, hs]

/-- The accounting law of R38 in the form the commits keep. -/
theorem accounted_iff {e : Enc} (h : e.lastSduOk) :
    e.accounted ↔ e.n.toNat + e.lastExtra
      = e.rem.toNat + (e.committed.map fun r => 1 + recLen r).sum + (e.committed.map sduHeaderExtra).sum := by
  have := nonLastExtra_add_lastExtra h
  unfold Enc.accounted Enc.committedBytes
  omega

/-- `H(n) - 1` is 1 or 2. -/
theorem hdrSize_bounds (n : Nat) : 2 ≤ hdrSize n ∧ hdrSize n ≤ 3 := by
  unfold hdrSize; split <;> omega

/-- The correction for the last SDU is at most 2 bytes. -/
theorem lastExtra_le (e : Enc) : e.lastExtra ≤ 2 := by
  unfold Enc.lastExtra
  split
  · omega
  · have := hdrSize_bounds (recLen (e.recAt ‹_›)); omega

/-- Committing an SDU appends its record (R126). -/
theorem committed_commitSdu {e : Enc} (h : e.nsub.toNat < 31) (l k : Nat) (b : Bytes) :
    (e.commitSdu l k b).committed = e.committed ++ [.sdu (BitVec.ofNat 5 l) (BitVec.ofNat 15 k)] :=
  committed_commitRec h _ (k + 1 + e.lastExtra)

/-- Committing a CE appends its record (R127). -/
theorem committed_commitCe {e : Enc} (h : e.nsub.toNat < 31) (t : CeType) (p : Bytes) :
    (e.commitCe t p).committed = e.committed ++ [.ce t (ceLcid t) (BitVec.ofNat 15 p.length) p] :=
  committed_commitRec h _ (p.length + 1)

/-- Committing an SDU keeps `LAST_SDU` right (R27, R126). -/
theorem lastSduOk_commitSdu {e : Enc} (hn : e.nsub.toNat < 31) (l k : Nat) (b : Bytes) :
    (e.commitSdu l k b).lastSduOk := by
  unfold Enc.lastSduOk
  have h1 := nsub_succ_toNat hn
  simp only [commitSdu_lastSdu, commitSdu_nsub, h1]
  refine ⟨by omega, ?_, fun j h2 h3 => absurd h3 (by omega)⟩
  have := recAt_commitRec_self e (.sdu (BitVec.ofNat 5 l) (BitVec.ofNat 15 k)) (k + 1 + e.lastExtra)
  simp only [Enc.recAt, commitRec_sub, commitSdu_sub] at this ⊢
  rw [this]; rfl

/-- Committing a CE keeps `LAST_SDU` right (R27, R127). -/
theorem lastSduOk_commitCe {e : Enc} (hn : e.nsub.toNat < 31) (h : e.lastSduOk) (t : CeType) (p : Bytes) :
    (e.commitCe t p).lastSduOk := by
  have h1 := nsub_succ_toNat hn
  have hr : ∀ j : BitVec 5, j ≠ e.nsub → (e.commitCe t p).recAt j = e.recAt j :=
    fun j hj => recAt_commitRec_ne hj _ (p.length + 1)
  have hself : (e.commitCe t p).recAt e.nsub = .ce t (ceLcid t) (BitVec.ofNat 15 p.length) p :=
    recAt_commitRec_self e _ (p.length + 1)
  unfold Enc.lastSduOk at h ⊢
  cases hl : e.lastSdu with
  | none =>
    rw [hl] at h
    simp only [commitCe_lastSdu, hl]
    intro r hmem
    rw [committed_commitCe hn, List.mem_append, List.mem_singleton] at hmem
    rcases hmem with hmem | rfl
    · exact h r hmem
    · rfl
  | some i =>
    rw [hl] at h
    simp only [commitCe_lastSdu, commitCe_nsub, hl, h1]
    obtain ⟨a, b, c⟩ := h
    refine ⟨by omega, ?_, ?_⟩
    · rw [hr i (fun hi => by rw [hi] at a; omega)]; exact b
    · intro j hj1 hj2
      by_cases hj : j = e.nsub
      · rw [hj, hself]; rfl
      · rw [hr j hj]
        refine c j hj1 ?_
        have : j.toNat ≠ e.nsub.toNat := fun k => hj (BitVec.eq_of_toNat_eq k)
        omega

/-- The SDU bytes are among the committed bytes (R38). -/
theorem sdu_le_committed (rs : List SubRec) :
    ((rs.filter recIsSdu).map recLen).sum ≤ (rs.map fun r => 1 + recLen r).sum := by
  induction rs with
  | nil => exact Nat.le_refl _
  | cons r rest ih =>
    cases h : recIsSdu r <;>
      simp only [List.filter_cons, h, Bool.false_eq_true, if_true, if_false, List.map_cons, List.sum_cons] <;> omega

/-- The SDU bytes of a PDU under construction and its remaining capacity are within its size (R38, R63). -/
theorem sduTotal_le_size {p : Params} {e : Enc} (h : EncOk p e) (hm : e.mode = .build) :
    e.sduTotal + e.rem.toNat ≤ e.n.toNat := by
  have h1 := h.accounting hm
  have h2 := sdu_le_committed e.committed
  have h3 := h.sdu_bytes
  unfold Enc.accounted Enc.committedBytes at h1
  omega

/-- Committing an SDU of `k` bytes that fits keeps the encoder's invariant (R126, R137). -/
theorem encOk_commitSdu {p : Params} {e : Enc} (hp : p.maxSubh ≤ 31) (ht : p.maxTbBytes ≤ 32767)
    (h : EncOk p e) (hm : e.mode = .build) (ho : e.isOpen = true) {l k : Nat} {b : Bytes}
    (hl : l ≤ lcidSduMax) (hk : 1 ≤ k) (hs : (k : Int) ≤ e.sduSpace) (hb : b.length = k) :
    EncOk p (e.commitSdu l k b) := by
  have hopen := h.open_slot_free ho
  have hn : e.nsub.toNat < 31 := by omega
  have h1 := nsub_succ_toNat hn
  have hsz := h.size_in_range (by simp [hm])
  have hrem := h.rem_le_size
  have hr16 := e.rem.isLt
  unfold Enc.sduSpace at hs
  have hcost : (BitVec.ofNat 16 (e.rem.toNat - (k + 1 + e.lastExtra))).toNat
      = e.rem.toNat - (k + 1 + e.lastExtra) := by
    rw [BitVec.toNat_ofNat]; omega
  have hk15 : (BitVec.ofNat 15 k).toNat = k := by rw [BitVec.toNat_ofNat]; omega
  have hl5 : (BitVec.ofNat 5 l).toNat = l := by
    unfold lcidSduMax at hl; rw [BitVec.toNat_ofNat]; omega
  have hc := committed_commitSdu hn l k b
  have hlast := lastSduOk_commitSdu hn l k b
  have hextra : (e.commitSdu l k b).lastExtra = hdrSize k - 1 := by
    have hx : (e.commitSdu l k b).lastSdu = some e.nsub := rfl
    rw [lastExtra_eq hx]
    have : (e.commitSdu l k b).recAt e.nsub = .sdu (BitVec.ofNat 5 l) (BitVec.ofNat 15 k) :=
      recAt_commitRec_self e _ (k + 1 + e.lastExtra)
    rw [this]; simp only [recLen, hk15]
  constructor
  · intro _; simpa using hsz
  · simp only [commitSdu_rem, commitSdu_n, hcost]; omega
  · simp only [commitSdu_nsub, h1]; omega
  · simp
  · simpa using h.valid_iff_done
  · simp [hm]
  · rw [hc]
    intro r hr
    rw [List.mem_append, List.mem_singleton] at hr
    rcases hr with hr | rfl
    · exact h.records_wf r hr
    · exact ⟨by rw [hl5]; exact hl, by rw [hk15]; exact hk⟩
  · exact hlast
  · have := h.sdu_bytes
    rw [hc]
    simp only [Enc.sduTotal, commitSdu_sduData, List.length_append, hb] at this ⊢
    have hf : [SubRec.sdu (BitVec.ofNat 5 l) (BitVec.ofNat 15 k)].filter recIsSdu
        = [.sdu (BitVec.ofNat 5 l) (BitVec.ofNat 15 k)] := rfl
    rw [List.filter_append, List.map_append, List.sum_append, hf, ← this]
    simp only [List.map_cons, List.map_nil, List.sum_cons, List.sum_nil, recLen, hk15]; omega
  · intro _
    have hacc := (accounted_iff h.last_sdu).1 (h.accounting hm)
    have hlen : recLen (.sdu (BitVec.ofNat 5 l) (BitVec.ofNat 15 k)) = k := hk15
    have hx : sduHeaderExtra (.sdu (BitVec.ofNat 5 l) (BitVec.ofNat 15 k)) = hdrSize k - 1 := by
      simp only [sduHeaderExtra, hlen]; rfl
    rw [accounted_iff hlast, hextra, hc]
    simp only [commitSdu_n, commitSdu_rem, hcost, List.map_append, List.sum_append, List.map_cons,
      List.map_nil, List.sum_cons, List.sum_nil, hlen, hx]
    omega
  · have := sduTotal_le_size h hm
    simp only [Enc.sduTotal, commitSdu_sduData, List.length_append, hb] at this ⊢
    omega
  · simpa using h.tb_out_fits

/-- Committing a CE that fits keeps the encoder's invariant (R127, R137). -/
theorem encOk_commitCe {p : Params} {e : Enc} (hp : p.maxSubh ≤ 31)
    (h : EncOk p e) (hm : e.mode = .build) (ho : e.isOpen = true) {t : CeType} {b : Bytes}
    (ha : allowed e.dir t = true) (hb : b.length = ceSize t) (hs : b.length + 1 ≤ e.rem.toNat) :
    EncOk p (e.commitCe t b) := by
  have hopen := h.open_slot_free ho
  have hn : e.nsub.toNat < 31 := by omega
  have h1 := nsub_succ_toNat hn
  have hsz := h.size_in_range (by simp [hm])
  have hrem := h.rem_le_size
  have hr16 := e.rem.isLt
  have hcost : (BitVec.ofNat 16 (e.rem.toNat - (b.length + 1))).toNat = e.rem.toNat - (b.length + 1) := by
    rw [BitVec.toNat_ofNat]; omega
  have hsize : ceSize t ≤ 6 := by cases t <;> decide
  have hk15 : (BitVec.ofNat 15 b.length).toNat = b.length := by rw [BitVec.toNat_ofNat]; omega
  have hc := committed_commitCe hn t b
  have hlast := lastSduOk_commitCe hn h.last_sdu t b
  have hextra : (e.commitCe t b).lastExtra = e.lastExtra := by
    cases hl : e.lastSdu with
    | none => simp [Enc.lastExtra, hl]
    | some i =>
      have hi := h.last_sdu
      unfold Enc.lastSduOk at hi
      rw [hl] at hi
      have hne : i ≠ e.nsub := fun k => by rw [k] at hi; omega
      have hl' : (e.commitCe t b).lastSdu = some i := hl
      rw [lastExtra_eq hl, lastExtra_eq hl']
      have : (e.commitCe t b).recAt i = e.recAt i := recAt_commitRec_ne hne _ (b.length + 1)
      rw [this]
  constructor
  · intro _; simpa using hsz
  · simp only [commitCe_rem, commitCe_n, hcost]; omega
  · simp only [commitCe_nsub, h1]; omega
  · simp
  · simpa using h.valid_iff_done
  · simp [hm]
  · rw [hc]
    intro r hr
    rw [List.mem_append, List.mem_singleton] at hr
    rcases hr with hr | rfl
    · exact h.records_wf r hr
    · exact ⟨ha, rfl, by rw [hk15]; exact hb, hb⟩
  · exact hlast
  · have := h.sdu_bytes
    rw [hc]
    simp only [Enc.sduTotal, commitCe_sduData] at this ⊢
    have hf : [SubRec.ce t (ceLcid t) (BitVec.ofNat 15 b.length) b].filter recIsSdu = [] := rfl
    rw [List.filter_append, List.map_append, List.sum_append, hf, ← this]; rfl
  · intro _
    have hacc := (accounted_iff h.last_sdu).1 (h.accounting hm)
    have hlen : recLen (.ce t (ceLcid t) (BitVec.ofNat 15 b.length) b) = b.length := hk15
    have hx : sduHeaderExtra (.ce t (ceLcid t) (BitVec.ofNat 15 b.length) b) = 0 := rfl
    rw [accounted_iff hlast, hextra, hc]
    simp only [commitCe_n, commitCe_rem, hcost, List.map_append, List.sum_append, List.map_cons,
      List.map_nil, List.sum_cons, List.sum_nil, hlen, hx]
    omega
  · simpa [Enc.sduTotal] using h.sdu_data_fits
  · simpa using h.tb_out_fits

/-- What the setters need of legal parameters (R7). -/
theorem legal_bounds {p : Params} (h : p.legal = true) :
    1 ≤ p.maxSubh ∧ p.maxSubh ≤ 31 ∧ 3 ≤ p.maxTbBytes ∧ p.maxTbBytes ≤ 32767 ∧ p.maxSubh + 2 ≤ p.maxSubhRx ∧
      p.maxSubhRx ≤ 63 := by
  simp only [Params.legal, Bool.and_eq_true, decide_eq_true_eq] at h
  omega

/-- An encoder without a record has the invariant: after INIT_TX, a Msg3 retransmission or a reset (R39, R123,
R259). -/
theorem encOk_empty {p : Params} {e : Enc} (hn : e.nsub = 0) (ho : e.isOpen = false) (hl : e.lastSdu = none)
    (hd : e.sduData = []) (hs : e.mode ≠ .idle → 1 ≤ e.n.toNat ∧ e.n.toNat ≤ p.maxTbBytes)
    (hr : e.rem.toNat ≤ e.n.toNat) (hv : e.tbValid = true ↔ e.mode = .done)
    (hb : e.mode = .done → e.tbOut.length = e.n.toNat) (ha : e.mode = .build → e.rem = e.n)
    (hf : e.tbOut.length ≤ p.maxTbBytes) : EncOk p e := by
  have hc : e.committed = [] := List.eq_nil_of_length_eq_zero (by rw [committed_length, hn]; rfl)
  constructor
  · exact hs
  · exact hr
  · rw [hn]; exact Nat.zero_le _
  · simp [ho]
  · exact hv
  · exact hb
  · simp [hc]
  · unfold Enc.lastSduOk; rw [hl]; simp [hc]
  · rw [hc]; simp [Enc.sduTotal, hd]
  · intro hm
    simp [Enc.accounted, Enc.committedBytes, Enc.nonLastExtra, hc, hn, ha hm]
  · simp [Enc.sduTotal, hd]
  · exact hf

/-- The invariant does not depend on an encoder's open slot beyond its place in the table (R25). -/
theorem encOk_setOpen {p : Params} {e : Enc} (h : EncOk p e) {o : Bool} (ho : o = true → e.nsub.toNat < p.maxSubh) :
    EncOk p { e with isOpen := o } :=
  ⟨h.size_in_range, h.rem_le_size, h.nsub_le, ho, h.valid_iff_done, h.block_has_size, h.records_wf, h.last_sdu,
    h.sdu_bytes, h.accounting, h.sdu_data_fits, h.tb_out_fits⟩

/-- Going idle keeps the invariant (R123, R176). -/
theorem encOk_toIdle {p : Params} {e : Enc} (h : EncOk p e) : EncOk p e.toIdle :=
  ⟨fun hm => absurd rfl hm, h.rem_le_size, h.nsub_le, h.open_slot_free, by simp [Enc.toIdle], by simp [Enc.toIdle],
    h.records_wf, h.last_sdu, h.sdu_bytes, by simp [Enc.toIdle], h.sdu_data_fits, h.tb_out_fits⟩

/-- Storing a block of the right size in DONE keeps the invariant (R178). -/
theorem encOk_commitTb {p : Params} {e : Enc} (h : EncOk p e) (hm : e.mode = .build) {out : Bytes}
    (hl : out.length = e.n.toNat) :
    EncOk p { e with isOpen := false, tbOut := out, mode := .done, tbValid := true } :=
  ⟨fun _ => h.size_in_range (by simp [hm]), h.rem_le_size, h.nsub_le, by simp, by simp, fun _ => hl, h.records_wf,
    h.last_sdu, h.sdu_bytes, by simp, h.sdu_data_fits, hl ▸ (h.size_in_range (by simp [hm])).2⟩

end Sys2Proof.Machine
end

