-- ==== Sys2Proof/Laws/Encoding.lean ====
section
/-! SUPPORT. The bit fields of a word given by its value (R9, R80). -/

namespace Sys2Proof

/-- A field of a word, as a number. -/
theorem field_toNat {v : Nat} (h : v < 2 ^ 128) (hi lo : Nat) :
    ((BitVec.ofNat 128 v).extractLsb hi lo).toNat = v / 2 ^ lo % 2 ^ (hi - lo + 1) := by
  rw [BitVec.extractLsb_toNat, BitVec.toNat_ofNat, Nat.mod_eq_of_lt h, Nat.shiftRight_eq_div_pow]

/-- A bit of a word, as a test on a number. -/
theorem bit_eq_decide {v k : Nat} (hk : k < 128) :
    (BitVec.ofNat 128 v).getLsbD k = decide (v / 2 ^ k % 2 = 1) := by
  rw [BitVec.getLsbD_ofNat, Nat.testBit_eq_decide_div_mod_eq]; simp [hk]

/-- A field is below the power of two of its width. -/
theorem field_lt {w : Word} (hi lo b : Nat) (h : 2 ^ (hi - lo + 1) ≤ b) : (w.extractLsb hi lo).toNat < b :=
  Nat.lt_of_lt_of_le (BitVec.isLt _) h

/-- A signed 16-bit value fits the `PH` field. -/
theorem fitsPh_toInt (v : BitVec 16) : fitsPh v.toInt = true := by
  have h1 := BitVec.toInt_lt (x := v)
  have h2 := BitVec.le_toInt (x := v)
  simp [fitsPh]; omega

/-- The `PH` field holds 16 bits. -/
theorem encodePh_lt (ph : Int) : encodePh ph < 65536 := (BitVec.ofInt 16 ph).isLt

/-- Reading the `PH` field back (R85). -/
theorem toInt_encodePh {ph : Int} (h : fitsPh ph = true) {v : BitVec 16} (hv : v.toNat = encodePh ph) :
    v.toInt = ph := by
  have hv : v = BitVec.ofInt 16 ph := BitVec.eq_of_toNat_eq hv
  rw [hv, BitVec.toInt_ofInt]
  simp only [fitsPh, decide_eq_true_eq] at h
  rw [Int.bmod_def]
  split <;> omega

/-- A word whose operand bits fit W[119:0] has its opcode in W[127:120] (R80). -/
theorem opcode_encode {i : Instr} (h : i.operandBits < 2 ^ 120) (ho : i.opcode < 256) :
    (opcode (encode i)).toNat = i.opcode := by
  unfold opcode encode
  rw [field_toNat (by omega)]
  omega

/-- Clearing bits that a field does not have leaves the field. -/
theorem extractLsb_and_mask {w m : Word} {hi lo : Nat} (h : m.extractLsb hi lo = BitVec.allOnes _) :
    (w &&& m).extractLsb hi lo = w.extractLsb hi lo := by
  have : (w &&& m).extractLsb hi lo = w.extractLsb hi lo &&& m.extractLsb hi lo := by
    ext i hi; simp
  rw [this, h, BitVec.and_allOnes]

end Sys2Proof
end

