-- ==== Sys2Proof/Laws/Grant.lean ====
section
/-! SUPPORT. The laws of the uplink grant: the induction over its assembly, packaged once. What each of its five
sub-steps keeps, the whole assembly keeps (R258, R261-R266). -/

namespace Sys2Proof.Machine

open Sys2Proof.Config

/-- A property of states that every sub-step of the two service phases keeps: a buffer-state query, a new slot, an
SDU requested within the space, tokens consumed (R264-R266). -/
structure ServiceKeeps (P : State → Prop) : Prop where
  ask : ∀ l s, l ≤ lcidSduMax → P s → P (srcBufferState l s).2
  slot : ∀ s, P s → P (newSubhBody s).1
  pull : ∀ (l q : Nat) (s : State), l ≤ lcidSduMax → 1 ≤ q → (q : Int) ≤ s.enc.sduSpace → P s → P (setSduBody l q s).1
  consume : ∀ l k s, l ≤ lcidSduMax → 0 < k → P s → P (consumeTokens l k s)

/-- A property of states that every sub-step of the assembly of a grant keeps: those of the service phases, and a
control element (R261-R266). -/
structure AssemblyKeeps (P : State → Prop) : Prop extends ServiceKeeps P where
  ce : ∀ t pay s, pay.length = ceSize t → P s → P (ceSetter t pay s).1

/-- Inserting into the service order keeps its members. -/
theorem mem_insertChannel (s : State) (a x : Nat) :
    ∀ ls : List Nat, x ∈ insertChannel s a ls ↔ x = a ∨ x ∈ ls
  | [] => by simp [insertChannel]
  | b :: rest => by
    unfold insertChannel
    split
    · simp
    · rw [List.mem_cons, mem_insertChannel s a x rest, List.mem_cons]; tauto

/-- The service order holds the active channels (R255). -/
theorem mem_serviceOrder {s : State} {x : Nat} : x ∈ serviceOrder s ↔ x ∈ activeChannels s := by
  unfold serviceOrder
  induction activeChannels s with
  | nil => simp
  | cons a rest ih => rw [List.foldr_cons, mem_insertChannel, ih, List.mem_cons]

/-- An active channel has an LCID of the table (R35). -/
theorem activeChannels_le {s : State} {x : Nat} (h : x ∈ activeChannels s) : x ≤ lcidSduMax := by
  have := List.mem_range.1 (List.mem_filter.1 h).1
  unfold lcidSduMax; omega

/-- The request of a pass is at least 1 and within the space (R266, R269). -/
theorem requestSize_bounds {ph : Phase} {l p : Nat} {space : Int} {s : State}
    (ht : tokensExhausted ph l s = false) (hs : 0 < space) (hp : p ≠ 0) :
    1 ≤ requestSize ph l p space s ∧ (requestSize ph l p space s : Int) ≤ space := by
  unfold requestSize
  split
  · rename_i h
    have : 0 < s.tokOf l := by
      simp only [tokensExhausted, h, Bool.true_and, decide_eq_false_iff_not] at ht
      omega
    omega
  · omega

/-- The model's test is the rule's (R264, R266). -/
@[simp] theorem tokensExhausted_iff {ph : Phase} {l : Nat} {s : State} :
    tokensExhausted ph l s = true ↔ outOfTokens ph l s := by
  simp [tokensExhausted, outOfTokens, and_assoc]

/-- The model's request is the rule's (R266). -/
theorem requestSize_eq {ph : Phase} {l p : Nat} {s : State} (h : asksSource ph l s) :
    requestSize ph l p s.enc.sduSpace s = passRequest ph l p s := by
  have h2 := h.2
  have h1 := h.1
  unfold requestSize passRequest
  by_cases hg : ph = .guaranteed ∧ s.limited l = true
  · have : 0 < s.tokOf l := by
      by_contra hc
      exact h1 ⟨hg.1, hg.2, by omega⟩
    rw [if_pos (by simpa using hg), if_pos hg]; omega
  · rw [if_neg (by simpa using hg), if_neg hg]; omega

/-- The request of a pass is at least 1 and within the space (R266, R269). -/
theorem passRequest_bounds {ph : Phase} {l p : Nat} {s : State} (h : asksSource ph l s) (hp : p ≠ 0) :
    1 ≤ passRequest ph l p s ∧ (passRequest ph l p s : Int) ≤ s.enc.sduSpace := by
  have := requestSize_bounds (ph := ph) (l := l) (s := s) (p := p)
    (Bool.eq_false_iff.2 fun hc => h.1 (tokensExhausted_iff.1 hc)) h.2 hp
  rwa [requestSize_eq h] at this

/-- In BUILD, NEW_SUBH leaves an open slot exactly where one is available (R124). -/
theorem newSubhBody_build {s : State} (hm : s.enc.mode = .build) :
    (slotAvailable s ∧ newSubhBody s = ok 1 { s with enc := { s.enc with isOpen := true } }) ∨
    (¬ slotAvailable s ∧ newSubhBody s = fail .noSubh (-1) s) := by
  unfold slotAvailable
  rcases newSubhBody_cases s with ⟨-, h⟩ | ⟨h1, -, h3⟩ | ⟨h1, -, h3, h4⟩ | ⟨h1, -, h3, h4⟩
  · exact absurd hm h
  · exact .inl ⟨.inl h3, by rw [h1, ← h3]⟩
  · exact .inr ⟨by simp [h3, h4], h1⟩
  · exact .inl ⟨.inr h4, h1⟩

/-- SET_SDU with an open slot and a request within the space commits the answer exactly where it is usable (R126). -/
theorem setSduBody_open {l q : Nat} {s : State} (hm : s.enc.mode = .build) (ho : s.enc.isOpen = true)
    (hl : l ≤ lcidSduMax) (h1 : 1 ≤ q) (hq : (q : Int) ≤ s.enc.sduSpace) :
    let a := (nextPduAnswer l q s.agents).1
    (answerCommits q a ∧ setSduBody l q s =
      ok a.k { (srcReadPdu l q s).2 with enc := s.enc.commitSdu l a.k.toNat a.bytes }) ∨
    (¬ answerCommits q a ∧ (setSduBody l q s).1 = (srcReadPdu l q s).2 ∧
      ((setSduBody l q s).2.err ≠ .ok ∨ (setSduBody l q s).2.res ≤ 0)) := by
  intro a
  have h : setSduBody l q s = setSduAnswered l q a (srcReadPdu l q s).2 := by
    unfold setSduBody
    rw [setterCheck_none.2 ⟨hm, ho⟩]
    simp only
    rw [if_neg (by omega), if_neg (by omega), if_neg (by omega)]
    rfl
  rw [h]
  unfold setSduAnswered answerCommits
  split
  · rename_i hb
    refine .inr ⟨fun hc => ?_, rfl, .inl (by simp)⟩
    have := badAnswer_false.2 ⟨⟨by omega, hc.2.1⟩, hc.2.2⟩
    simp [this] at hb
  rename_i hb
  have hb := badAnswer_false.1 (by simpa using hb)
  split
  · exact .inr ⟨by omega, rfl, .inr (by simp)⟩
  · exact .inl ⟨⟨by omega, hb.1.2, hb.2⟩, rfl⟩

/-- Committing an answer and taking its bytes from the tokens is the rule's update (R126, R266, R271). -/
theorem consumeTokens_commitSdu (l : Nat) (a : ReadAnswer) (s : State) (hk : 0 ≤ a.k) :
    consumeTokens l a.k { s with enc := s.enc.commitSdu l a.k.toNat a.bytes } = s.answerCommitted l a := by
  have hhi := BitVec.toInt_lt (x := (s.mux.tok[l]?).getD 0)
  have he : s.enc.commitSdu l a.k.toNat a.bytes = (s.answerCommitted l a).enc := by
    have h := Nat.sub_sub s.enc.rem.toNat (a.k.toNat + 1) s.enc.lastExtra
    simp only [Enc.commitSdu, Enc.commitRec, ← h]
    rfl
  rw [he]
  generalize hu : ({ s with enc := (s.answerCommitted l a).enc } : State) = u
  have hs : sat32 (u.tokOf l - a.k) = max (-2 ^ 31) (s.tokOf l - a.k) := by
    have ht : u.tokOf l = s.tokOf l := by subst hu; rfl
    rw [ht]; unfold sat32 State.tokOf; omega
  have hlim : u.limited l = s.limited l := by subst hu; rfl
  unfold consumeTokens State.setTok
  rw [hlim, hs]
  subst hu
  split <;> rename_i h <;> simp only [State.answerCommitted, h, if_true, if_false, Bool.false_eq_true]

/-- Everything one pass of the service loop can do in BUILD (R266): the ends of a pass, one for each constructor of
`ServesChannel`, and the pass that is followed by another. -/
theorem servePass_cases {ph : Phase} {l : Nat} {s : State} (hl : l ≤ lcidSduMax) (hm : s.enc.mode = .build) :
    let p := (nextCountAnswer l s.agents).1
    let q := passRequest ph l p s
    let a := (nextPduAnswer l q (s.countAsked l).agents).1
    (outOfTokens ph l s ∧ servePass ph l s = (s, .channelDone)) ∨
    (¬ outOfTokens ph l s ∧ s.enc.sduSpace ≤ 0 ∧ servePass ph l s = (s, .stop)) ∨
    (asksSource ph l s ∧ p = 0 ∧ servePass ph l s = (s.countAsked l, .channelDone)) ∨
    (asksSource ph l s ∧ p ≠ 0 ∧ ¬ slotAvailable s ∧ servePass ph l s = (s.countAsked l, .stop)) ∨
    (asksSource ph l s ∧ p ≠ 0 ∧ slotAvailable s ∧ ¬ answerCommits q a ∧
      servePass ph l s = ((s.countAsked l).pduAsked l q, .channelDone)) ∨
    (asksSource ph l s ∧ p ≠ 0 ∧ slotAvailable s ∧ answerCommits q a ∧
      servePass ph l s = (((s.countAsked l).pduAsked l q).answerCommitted l a, .again)) := by
  intro p q a
  unfold servePass
  split
  · rename_i h; exact .inl ⟨tokensExhausted_iff.1 h, rfl⟩
  rename_i ht
  rw [tokensExhausted_iff] at ht
  split
  · rename_i h; exact .inr (.inl ⟨ht, h, rfl⟩)
  rename_i hs
  have ha : asksSource ph l s := ⟨ht, by omega⟩
  split
  · rename_i h; exact .inr (.inr (.inl ⟨ha, h, rfl⟩))
  rename_i hp
  rw [requestSize_eq ha]
  have hq : 1 ≤ q ∧ (q : Int) ≤ s.enc.sduSpace := passRequest_bounds ha hp
  change _ ∨ _ ∨ _ ∨ (_ ∧ _ ∧ _ ∧ serveAllot l q (s.countAsked l) = _) ∨
    (_ ∧ _ ∧ _ ∧ _ ∧ serveAllot l q (s.countAsked l) = _) ∨ (_ ∧ _ ∧ _ ∧ _ ∧ serveAllot l q (s.countAsked l) = _)
  refine .inr (.inr (.inr ?_))
  unfold serveAllot
  rcases newSubhBody_build (s := s.countAsked l) hm with ⟨hsl, h⟩ | ⟨hsl, h⟩ <;> rw [h]
  · rw [if_neg (by simp)]
    refine .inr ?_
    unfold servePull
    rcases setSduBody_open (l := l) (q := q)
      (s := { s.countAsked l with enc := { (s.countAsked l).enc with isOpen := true } }) hm rfl hl hq.1 hq.2 with
      ⟨hc, h2⟩ | ⟨hc, h2, h3⟩
    · have hk : 1 ≤ a.k := hc.1
      refine .inr ⟨ha, hp, hsl, hc, ?_⟩
      rw [ok_fst, h2]
      refine (if_neg (show ¬ (ErrCode.ok ≠ .ok ∨ a.k ≤ 0) by simp; omega)).trans ?_
      exact congrArg (·, PassEnd.again) (consumeTokens_commitSdu l a ((s.countAsked l).pduAsked l q) (by omega))
    · refine .inl ⟨ha, hp, hsl, hc, ?_⟩
      rw [ok_fst, if_pos h3, h2]
      rfl
  · exact .inl ⟨ha, hp, hsl, by rw [if_pos (by simp)]; rfl⟩
variable {P : State → Prop}

namespace ServiceKeeps

/-- Asking the sources for their counts keeps the property (R262). -/
theorem askCounts (K : ServiceKeeps P) : ∀ (ls : List Nat) {s : State}, (∀ l ∈ ls, l ≤ lcidSduMax) → P s →
    P (askCounts ls s).2
  | [], _, _, h => h
  | l :: rest, s, hl, h =>
    askCounts K rest (fun x hx => hl x (by simp [hx])) (K.ask l s (hl l (by simp)) h)

/-- One pass of the service loop keeps the property (R266). -/
theorem servePass (K : ServiceKeeps P) {ph : Phase} {l : Nat} {s : State} (hl : l ≤ lcidSduMax) (h : P s) :
    P (servePass ph l s).1 := by
  unfold Machine.servePass
  split
  · exact h
  rename_i ht
  split
  · exact h
  rename_i hs
  have ha := K.ask l s hl h
  split
  · exact ha
  rename_i hp
  have hb := requestSize_bounds (ph := ph) (l := l) (s := s) (space := s.enc.sduSpace) (Bool.eq_false_iff.2 ht) (by omega) hp
  unfold serveAllot
  have hslot := K.slot _ ha
  split
  · exact hslot
  have hspace : (newSubhBody (srcBufferState l s).2).1.enc.sduSpace = s.enc.sduSpace := by
    rcases newSubhBody_cases (srcBufferState l s).2 with ⟨h1, -⟩ | ⟨h1, -⟩ | ⟨h1, -⟩ | ⟨h1, -⟩ <;>
      rw [h1] <;> rfl
  have hpull := K.pull l _ _ hl hb.1 (hspace ▸ hb.2) hslot
  unfold servePull
  split
  · exact hpull
  · rename_i hk
    exact K.consume l _ _ hl (by rw [not_or] at hk; omega) hpull

/-- Serving one channel keeps the property (R266). -/
theorem serve (K : ServiceKeeps P) {ph : Phase} {l : Nat} (hl : l ≤ lcidSduMax) :
    ∀ (fuel : Nat) {s : State}, P s → P (serve ph l fuel s).1
  | 0, _, h => h
  | fuel + 1, s, h => by
    have h1 := K.servePass (ph := ph) hl h
    unfold Machine.serve
    split
    · rename_i h2; rw [h2] at h1; exact h1
    · rename_i h2; rw [h2] at h1; exact h1
    · rename_i h2; rw [h2] at h1; exact serve K hl fuel h1

/-- A phase keeps the property (R264, R265). -/
theorem servePhase (K : ServiceKeeps P) {ph : Phase} : ∀ (ls : List Nat) {s : State}, (∀ l ∈ ls, l ≤ lcidSduMax) →
    P s → P (servePhase ph ls s).1
  | [], _, _, h => h
  | l :: rest, s, hl, h => by
    have hrest : ∀ x ∈ rest, x ≤ lcidSduMax := fun x hx => hl x (by simp [hx])
    have h1 := K.serve (ph := ph) (hl l (by simp)) (s.params.maxSubh + 1) h
    unfold Machine.servePhase
    split
    · exact servePhase K rest hrest h
    split
    · exact h1
    · exact servePhase K rest hrest h1

/-- The two service phases keep the property (R264, R265). -/
theorem servePhases (K : ServiceKeeps P) {s : State} (h : P s) : P (servePhases s) := by
  have hm : ∀ t : State, ∀ l ∈ serviceOrder t, l ≤ lcidSduMax :=
    fun t l hl => activeChannels_le (mem_serviceOrder.1 hl)
  have h1 := K.servePhase (ph := .guaranteed) _ (hm s) h
  unfold Machine.servePhases
  split
  · exact h1
  · exact K.servePhase _ (hm _) h1

end ServiceKeeps

namespace AssemblyKeeps

/-- Adding a control element keeps the property (R263). -/
theorem addCe (K : AssemblyKeeps P) {c : Nat} {setter : State → State × Ret}
    (hset : ∀ s, P s → P (setter s).1) {s : State} (h : P s) : P (addCe c setter s) := by
  unfold Machine.addCe
  split
  · exact h
  split
  · exact K.slot s h
  · exact hset _ (K.slot s h)

/-- A buffer-status report keeps the property (R128). -/
theorem setBsr (K : AssemblyKeeps P) (f : BsrFmt) (g : BitVec 2) (b0 b1 b2 b3 : Nat) {s : State} (h : P s) :
    P (setBsrBody f g b0 b1 b2 b3 s).1 := by
  rcases setBsrBody_cases f g b0 b1 b2 b3 s with ⟨h1, -⟩ | ⟨p, hp, -, h1⟩ | ⟨p, hp, -, h1⟩ | ⟨p, hp, -, h1⟩
  · rw [h1]; exact h
  · rw [h1]; exact K.ce _ _ _ hp h
  · rw [h1]; exact K.ce _ _ _ hp h
  · rw [h1]; exact K.ce _ _ _ hp h

/-- The control-element phase keeps the property (R261). -/
theorem cePhase (K : AssemblyKeeps P) (ci bt pt : Bool) (rnti : BitVec 16) (ph : Int) {s : State} (h : P s) :
    P (cePhasePhr pt ph (cePhaseBsr bt (cePhaseCrnti ci rnti s))) := by
  have h1 : P (cePhaseCrnti ci rnti s) := by
    unfold cePhaseCrnti
    split
    · exact K.addCe (fun s hs => K.ce _ _ s rfl hs) h
    · exact h
  have h2 : P (cePhaseBsr bt (cePhaseCrnti ci rnti s)) := by
    unfold cePhaseBsr
    split
    · have ha := K.askCounts (activeChannels (cePhaseCrnti ci rnti s)) (fun _ => activeChannels_le) h1
      split
      · exact ha
      · exact K.addCe (fun s hs => K.setBsr _ _ _ _ _ _ hs) ha
    · exact h1
  unfold cePhasePhr
  split
  · exact K.addCe (fun s hs => K.ce _ _ s rfl hs) h2
  · exact h2

/-- The whole assembly of a grant keeps the property, from the empty PDU on (R258, R260). -/
theorem grantAssemble (K : AssemblyKeeps P) {n : Nat} {ci bt pt : Bool} {rnti : BitVec 16} {ph : Int} {s : State}
    (h : P (initTxBody .ul n s).1) : P (grantAssemble n ci bt pt rnti ph s) :=
  K.servePhases (K.cePhase ci bt pt rnti ph h)

end AssemblyKeeps

end Sys2Proof.Machine
end

