-- ==== Sys2Proof/Laws/PerInstr.lean ====
section
/-! SUPPORT. Statements about every command, one lemma per constructor. EncodedOpcode: the operands of a
well-formed command stay below the opcode byte, and its word carries its opcode (R80, R82). -/

namespace Sys2Proof.Laws

/-- The operands of a well-formed command fit W[119:0], and W[127:120] is its opcode (R80, R82). -/
def EncodedOpcode.Statement (i : Instr) : Prop :=
  i.wellFormed = true → i.operandBits < 2 ^ 120 ∧ (opcode (encode i)).toNat = i.opcode

/-- The second half follows from the first. -/
theorem EncodedOpcode.of_bits {i : Instr} (ho : i.opcode < 256)
    (h : i.wellFormed = true → i.operandBits < 2 ^ 120) : EncodedOpcode.Statement i :=
  fun hw => ⟨h hw, opcode_encode (h hw) ho⟩

theorem EncodedOpcode.initTx (dir : Dir) (n : Nat) : EncodedOpcode.Statement (.initTx dir n) :=
  EncodedOpcode.of_bits (by simp [Instr.opcode]) fun h => by
    have hd : encodeDir dir < 2 := by cases dir <;> decide
    simp only [Instr.wellFormed, fitsU, decide_eq_true_eq] at h
    simp only [Instr.operandBits]; omega

theorem EncodedOpcode.newSubh : EncodedOpcode.Statement .newSubh :=
  EncodedOpcode.of_bits (by simp [Instr.opcode]) fun _ => by decide

theorem EncodedOpcode.setSdu (lcid : Nat) (req : Nat) : EncodedOpcode.Statement (.setSdu lcid req) :=
  EncodedOpcode.of_bits (by simp [Instr.opcode]) fun h => by
    simp only [Instr.wellFormed, fitsU, Bool.and_eq_true, decide_eq_true_eq] at h
    simp only [Instr.operandBits]; omega

theorem EncodedOpcode.setBsr (fmt : BsrFmt) (lcg : BitVec 2) (b0 : Nat) (b1 : Nat) (b2 : Nat) (b3 : Nat) : EncodedOpcode.Statement (.setBsr fmt lcg b0 b1 b2 b3) :=
  EncodedOpcode.of_bits (by simp [Instr.opcode]) fun h => by
    have hf : encodeFmt fmt < 4 := by cases fmt <;> decide
    have hg := lcg.isLt
    simp only [Instr.wellFormed, fitsU, Bool.and_eq_true, decide_eq_true_eq] at h
    simp only [Instr.operandBits]; omega

theorem EncodedOpcode.setPhr (ph : Int) : EncodedOpcode.Statement (.setPhr ph) :=
  EncodedOpcode.of_bits (by simp [Instr.opcode]) fun _ => by
    have h1 := encodePh_lt ph
    simp only [Instr.operandBits]; omega

theorem EncodedOpcode.setCrnti (rnti : BitVec 16) : EncodedOpcode.Statement (.setCrnti rnti) :=
  EncodedOpcode.of_bits (by simp [Instr.opcode]) fun _ => by
    have h1 := rnti.isLt
    simp only [Instr.operandBits]; omega

theorem EncodedOpcode.setConres (id : BitVec 48) : EncodedOpcode.Statement (.setConres id) :=
  EncodedOpcode.of_bits (by simp [Instr.opcode]) fun _ => by
    have h1 := id.isLt
    simp only [Instr.operandBits]; omega

theorem EncodedOpcode.setTa (ta : BitVec 6) : EncodedOpcode.Statement (.setTa ta) :=
  EncodedOpcode.of_bits (by simp [Instr.opcode]) fun _ => by
    have h1 := ta.isLt
    simp only [Instr.operandBits]; omega

theorem EncodedOpcode.hasSpaceSdu (nb : Nat) : EncodedOpcode.Statement (.hasSpaceSdu nb) :=
  EncodedOpcode.of_bits (by simp [Instr.opcode]) fun h => by
    simp only [Instr.wellFormed, fitsU, decide_eq_true_eq] at h
    simp only [Instr.operandBits]; omega

theorem EncodedOpcode.hasSpaceCe (nb : Nat) : EncodedOpcode.Statement (.hasSpaceCe nb) :=
  EncodedOpcode.of_bits (by simp [Instr.opcode]) fun h => by
    simp only [Instr.wellFormed, fitsU, decide_eq_true_eq] at h
    simp only [Instr.operandBits]; omega

theorem EncodedOpcode.sduSpace : EncodedOpcode.Statement .sduSpace :=
  EncodedOpcode.of_bits (by simp [Instr.opcode]) fun _ => by decide

theorem EncodedOpcode.remSize : EncodedOpcode.Statement .remSize :=
  EncodedOpcode.of_bits (by simp [Instr.opcode]) fun _ => by decide

theorem EncodedOpcode.write : EncodedOpcode.Statement .write :=
  EncodedOpcode.of_bits (by simp [Instr.opcode]) fun _ => by decide

theorem EncodedOpcode.read (dir : Dir) (n : Nat) : EncodedOpcode.Statement (.read dir n) :=
  EncodedOpcode.of_bits (by simp [Instr.opcode]) fun h => by
    have hd : encodeDir dir < 2 := by cases dir <;> decide
    simp only [Instr.wellFormed, fitsU, decide_eq_true_eq] at h
    simp only [Instr.operandBits]; omega

theorem EncodedOpcode.bsrLevel (b : Nat) : EncodedOpcode.Statement (.bsrLevel b) :=
  EncodedOpcode.of_bits (by simp [Instr.opcode]) fun h => by
    simp only [Instr.wellFormed, fitsU, decide_eq_true_eq] at h
    simp only [Instr.operandBits]; omega

theorem EncodedOpcode.phrLevel (ph : Int) : EncodedOpcode.Statement (.phrLevel ph) :=
  EncodedOpcode.of_bits (by simp [Instr.opcode]) fun _ => by
    have h1 := encodePh_lt ph
    simp only [Instr.operandBits]; omega

theorem EncodedOpcode.addBearer (lcid : Nat) : EncodedOpcode.Statement (.addBearer lcid) :=
  EncodedOpcode.of_bits (by simp [Instr.opcode]) fun h => by
    simp only [Instr.wellFormed, fitsU, decide_eq_true_eq] at h
    simp only [Instr.operandBits]; omega

theorem EncodedOpcode.setPriority (lcid : Nat) (prio : BitVec 8) (pbr : BitVec 32) (bsd : BitVec 32) : EncodedOpcode.Statement (.setPriority lcid prio pbr bsd) :=
  EncodedOpcode.of_bits (by simp [Instr.opcode]) fun h => by
    have h1 := prio.isLt
    have h2 := pbr.isLt
    have h3 := bsd.isLt
    simp only [Instr.wellFormed, fitsU, decide_eq_true_eq] at h
    simp only [Instr.operandBits]; omega

theorem EncodedOpcode.setLcg (lcid : Nat) (lcg : BitVec 2) : EncodedOpcode.Statement (.setLcg lcid lcg) :=
  EncodedOpcode.of_bits (by simp [Instr.opcode]) fun h => by
    have h1 := lcg.isLt
    simp only [Instr.wellFormed, fitsU, decide_eq_true_eq] at h
    simp only [Instr.operandBits]; omega

theorem EncodedOpcode.resetBearers : EncodedOpcode.Statement .resetBearers :=
  EncodedOpcode.of_bits (by simp [Instr.opcode]) fun _ => by decide

theorem EncodedOpcode.ttiTick (tti : BitVec 32) : EncodedOpcode.Statement (.ttiTick tti) :=
  EncodedOpcode.of_bits (by simp [Instr.opcode]) fun _ => by
    have h1 := tti.isLt
    simp only [Instr.operandBits]; omega

theorem EncodedOpcode.ulGrant (n : Nat) (msg3 : Bool) (retx : Bool) (ci : Bool) (bt : Bool) (pt : Bool) (rnti : BitVec 16) (ph : Int) : EncodedOpcode.Statement (.ulGrant n msg3 retx ci bt pt rnti ph) :=
  EncodedOpcode.of_bits (by simp [Instr.opcode]) fun h => by
    have h1 := rnti.isLt
    have h2 := encodePh_lt ph
    have h3 := msg3.toNat_le
    have h4 := retx.toNat_le
    have h5 := ci.toNat_le
    have h6 := bt.toNat_le
    have h7 := pt.toNat_le
    simp only [Instr.wellFormed, fitsU, Bool.and_eq_true, decide_eq_true_eq] at h
    simp only [Instr.operandBits]; omega

theorem EncodedOpcode.dlTb (n : Nat) : EncodedOpcode.Statement (.dlTb n) :=
  EncodedOpcode.of_bits (by simp [Instr.opcode]) fun h => by
    simp only [Instr.wellFormed, fitsU, decide_eq_true_eq] at h
    simp only [Instr.operandBits]; omega

theorem EncodedOpcode.softReset : EncodedOpcode.Statement .softReset :=
  EncodedOpcode.of_bits (by simp [Instr.opcode]) fun _ => by decide

end Sys2Proof.Laws
end

