-- ==== Sys2Proof/Laws/Read.lean ====
section
/-! SUPPORT. The laws of the parser: what a complete header walk has read, what the resolved lengths add up to,
and where the records lie (R202-R204). -/

namespace Sys2Proof.Machine

open Sys2Proof.Config

/-- A data-in list is taken exactly where it has `N` bytes, within the capacity (R63, R81). -/
@[simp] theorem refusesDin_false {s : State} {n : Nat} {d : Bytes} :
    s.refusesDin n d = false ↔ d.length = n ∧ n ≤ s.params.maxTbBytes := by
  simp only [State.refusesDin, Bool.or_eq_false_iff, decide_eq_false_iff_not, Decidable.not_not]
  omega

/-- A data-in list is refused exactly where its length is not `N`, or above the capacity (R63, R81). -/
@[simp] theorem refusesDin_true {s : State} {n : Nat} {d : Bytes} :
    s.refusesDin n d = true ↔ d.length ≠ n ∨ s.params.maxTbBytes < d.length := by
  simp [State.refusesDin]

/-- A walked subheader has the kind of its LCID, and a control element its fixed size (R200, R202). -/
def walkRecOk (dir : Dir) (r : WalkRec) : Prop :=
  classOf dir r.lcid = some r.cls ∧ ∀ t, r.cls = .ce t → r.len = ceSize t

/-- The codes of a failed parse (R205). -/
def isParseError (e : ErrCode) : Prop := e = .pTrunc ∨ e = .pLcid ∨ e = .pLen ∨ e = .pTooMany

/-- Everything a header walk can answer (R202): one of its three errors, or the subheaders it read, with the
bytes it consumed. -/
theorem walkHeader_cases (dir : Dir) (maxRx : Nat) :
    ∀ (d : Bytes) (pos : Nat) (recs : List WalkRec), recs.length ≤ maxRx → (∀ r ∈ recs, walkRecOk dir r) →
      (∃ e, isParseError e ∧ walkHeader dir maxRx d pos recs = .error e) ∨
      (∃ w, walkHeader dir maxRx d pos recs = .ok w ∧ pos < w.hend ∧ w.hend ≤ pos + d.length ∧
        w.before.length < maxRx ∧ (∀ r ∈ w.before, walkRecOk dir r) ∧
        classOf dir w.last.lcid = some w.last.cls)
  | [], pos, recs, _, _ => .inl ⟨.pTrunc, .inl rfl, by simp [walkHeader]⟩
  | b :: rest, pos, recs, hl, hr => by
    unfold walkHeader
    by_cases hm : recs.length = maxRx
    · exact .inl ⟨.pTooMany, .inr (.inr (.inr rfl)), by simp [hm]⟩
    rw [if_neg hm]
    cases hcls : classOf dir (b.extractLsb 4 0) with
    | none => exact .inl ⟨.pLcid, .inr (.inl rfl), rfl⟩
    | some cls =>
      simp only
      by_cases hb : b.getLsbD 5 = false
      · refine .inr ⟨⟨recs, ⟨cls, b.extractLsb 4 0, 0⟩, pos + 1⟩, by rw [if_pos hb], ?_⟩
        exact ⟨by simp, by simp, by simpa using Nat.lt_of_le_of_ne hl hm, hr, hcls⟩
      rw [if_neg hb]
      have happ : ∀ n, (∀ t, cls = .ce t → n = ceSize t) →
          ∀ r ∈ recs ++ [WalkRec.mk cls (b.extractLsb 4 0) n], walkRecOk dir r := by
        intro n hn r hmem
        rcases List.mem_append.1 hmem with h | h
        · exact hr r h
        · rw [List.mem_singleton.1 h]; exact ⟨hcls, hn⟩
      have hlen : ∀ n, (recs ++ [WalkRec.mk cls (b.extractLsb 4 0) n]).length ≤ maxRx := by
        intro n; simp; omega
      cases cls with
      | pad =>
        rcases walkHeader_cases dir maxRx rest (pos + 1) _ (hlen 0) (happ 0 (by simp)) with h | ⟨w, h1, h2, h3, h4⟩
        · exact .inl h
        · exact .inr ⟨w, h1, by omega, by simp; omega, h4⟩
      | ce t =>
        rcases walkHeader_cases dir maxRx rest (pos + 1) _ (hlen (ceSize t))
          (happ _ (by rintro t' ⟨⟩; rfl)) with h | ⟨w, h1, h2, h3, h4⟩
        · exact .inl h
        · exact .inr ⟨w, h1, by omega, by simp; omega, h4⟩
      | sdu =>
        cases rest with
        | nil => exact .inl ⟨.pTrunc, .inl rfl, rfl⟩
        | cons f rest1 =>
          simp only
          by_cases hf : f.getLsbD 7 = false
          · rw [if_pos hf]
            rcases walkHeader_cases dir maxRx rest1 (pos + 2) _ (hlen (f.extractLsb 6 0).toNat)
              (happ _ (by simp)) with h | ⟨w, h1, h2, h3, h4⟩
            · exact .inl h
            · exact .inr ⟨w, h1, by omega, by simp; omega, h4⟩
          · rw [if_neg hf]
            cases rest1 with
            | nil => exact .inl ⟨.pTrunc, .inl rfl, rfl⟩
            | cons g rest2 =>
              rcases walkHeader_cases dir maxRx rest2 (pos + 3) _ (hlen ((f.extractLsb 6 0) ++ g).toNat)
                (happ _ (by simp)) with h | ⟨w, h1, h2, h3, h4⟩
              · exact .inl h
              · exact .inr ⟨w, h1, by omega, by simp; omega, h4⟩

/-- Everything the resolution of the last length can answer (R203). -/
theorem resolveLengths_cases {dir : Dir} {n : Nat} {w : Walk} (hb : ∀ r ∈ w.before, walkRecOk dir r)
    (hl : classOf dir w.last.lcid = some w.last.cls) :
    resolveLengths n w = .error .pLen ∨
    (∃ recs, resolveLengths n w = .ok recs ∧ recs.length = w.before.length + 1 ∧
      w.hend + declaredLen recs = n ∧ ∀ r ∈ recs, walkRecOk dir r) := by
  unfold resolveLengths
  split
  · exact .inl rfl
  rename_i h
  have hlen : ∀ rest, w.hend + declaredLen w.before + rest = n →
      w.hend + declaredLen (w.before ++ [{ w.last with len := rest }]) = n := by
    intro rest hr; simp [declaredLen] at hr ⊢; omega
  have hok : ∀ rest, (∀ t, w.last.cls = .ce t → rest = ceSize t) →
      ∀ r ∈ w.before ++ [{ w.last with len := rest }], walkRecOk dir r := by
    intro rest hr r hmem
    rcases List.mem_append.1 hmem with h | h
    · exact hb r h
    · rw [List.mem_singleton.1 h]; exact ⟨hl, hr⟩
  cases hc : w.last.cls with
  | ce t =>
    simp only
    split
    · exact .inl rfl
    · rename_i h2
      refine .inr ⟨_, rfl, by simp, hlen _ (by omega), hok _ ?_⟩
      intro t' ht; rw [hc] at ht; injection ht with ht; subst ht; omega
  | sdu => exact .inr ⟨_, rfl, by simp, hlen _ (by omega), hok _ (by simp [hc])⟩
  | pad => exact .inr ⟨_, rfl, by simp, hlen _ (by omega), hok _ (by simp [hc])⟩

@[simp] theorem withOffsets_length : ∀ (off : Nat) (recs : List WalkRec), (withOffsets off recs).length = recs.length
  | _, [] => rfl
  | off, r :: rest => by simp [withOffsets, withOffsets_length (off + r.len) rest]

/-- The records lie one after the other, from the end of the header to the end of the block (R103, R204). -/
theorem withOffsets_cover : ∀ (off n : Nat) (recs : List WalkRec), off + declaredLen recs = n → n < 65536 →
    recsCover off (withOffsets off recs) n
  | off, n, [], h, _ => by simpa [declaredLen, recsCover, withOffsets] using h
  | off, n, r :: rest, h, hn => by
    simp only [declaredLen, List.map_cons, List.sum_cons] at h
    have h1 : (BitVec.ofNat 16 off).toNat = off := by rw [BitVec.toNat_ofNat]; omega
    have h2 : (BitVec.ofNat 16 r.len).toNat = r.len := by rw [BitVec.toNat_ofNat]; omega
    refine ⟨h1, ?_⟩
    simp only [h2]
    exact withOffsets_cover (off + r.len) n rest (by simp only [declaredLen]; omega) hn

/-- The records keep their kind, and a control element its size (R203, R204). -/
theorem withOffsets_wf {dir : Dir} : ∀ (off : Nat) (recs : List WalkRec), (∀ r ∈ recs, walkRecOk dir r) →
    ∀ r ∈ withOffsets off recs, decRecWf dir r
  | _, [], _ => by simp [withOffsets]
  | off, x :: rest, h => by
    intro r hr
    rcases List.mem_cons.1 hr with rfl | hr
    · refine ⟨(h x (by simp)).1, fun t ht => ?_⟩
      have hx := (h x (by simp)).2 t ht
      have : ceSize t ≤ 6 := by cases t <;> decide
      simp only [BitVec.toNat_ofNat]; omega
    · exact withOffsets_wf _ rest (fun y hy => h y (by simp [hy])) r hr

/-- Everything a parse can answer (R202-R205): a parse error, or at least one record, at most `maxRx`, lying one
after the other from the end of the header to the end of the block. -/
theorem parse_cases (dir : Dir) (maxRx : Nat) (d : Bytes) (hd : d.length < 65536) :
    (∃ e, isParseError e ∧ parse dir maxRx d.length d = .error e) ∨
    (∃ recs, parse dir maxRx d.length d = .ok recs ∧ 1 ≤ recs.length ∧ recs.length ≤ maxRx ∧
      (∃ hend, 1 ≤ hend ∧ hend ≤ d.length ∧ recsCover hend recs d.length) ∧ ∀ r ∈ recs, decRecWf dir r) := by
  unfold parse
  rcases walkHeader_cases dir maxRx d 0 [] (Nat.zero_le _) (by simp) with ⟨e, he, hw⟩ | ⟨w, hw, h1, h2, h3, h4, h5⟩
  · exact .inl ⟨e, he, by rw [hw]⟩
  · rcases resolveLengths_cases (n := d.length) h4 h5 with h | ⟨recs, h, h6, h7, h8⟩
    · exact .inl ⟨.pLen, .inr (.inr (.inl rfl)), by simp [hw, h]⟩
    · refine .inr ⟨withOffsets w.hend recs, by simp [hw, h], by simp; omega, by simp; omega,
        ⟨w.hend, by omega, by omega, withOffsets_cover _ _ _ h7 hd⟩, withOffsets_wf _ _ h8⟩

end Sys2Proof.Machine
end

