-- ==== Sys2Proof/Laws/Write.lean ====
section
/-! SUPPORT. The laws of WRITE: how long the header and the control-element payloads are, and why the pieces add
up to the block's size (R173, R174, R177, R179). -/

namespace Sys2Proof.Machine

open Sys2Proof.Config

/-- The bytes a non-last subheader has beyond its first (R173). -/
def itemExtra : LayoutItem → Nat
  | .pad => 0
  | .entry r => sduHeaderExtra r

/-- A non-last subheader has 1 byte, or `H(LEN)` for an SDU (R173). -/
theorem subheader_false_length (x : LayoutItem) : (subheader false x).length = 1 + itemExtra x := by
  rcases x with _ | (⟨l, n⟩ | ⟨t, l, n, p⟩)
  · rfl
  · by_cases hn : n.toNat < 128 <;>
      simp [subheader, itemExtra, sduHeaderExtra, recIsSdu, recLen, hdrSize, hn]
  · rfl

/-- A last subheader has 1 byte (R92, R173). -/
theorem subheader_true_length (x : LayoutItem) : (subheader true x).length = 1 := by
  rcases x with _ | (⟨l, n⟩ | ⟨t, l, n, p⟩) <;> simp [subheader]

/-- A header of `xs` and a last subheader `x` has one byte each, and the extra bytes of `xs` (R173). -/
theorem subheaderBytes_length (xs : List LayoutItem) (x : LayoutItem) :
    (subheaderBytes (xs ++ [x])).length = xs.length + 1 + (xs.map itemExtra).sum := by
  induction xs with
  | nil => simp [subheaderBytes, subheader_true_length]
  | cons y ys ih =>
    cases ys with
    | nil => simp [subheaderBytes, subheader_true_length, subheader_false_length]; omega
    | cons z zs =>
      simp only [List.cons_append, subheaderBytes, List.length_append, subheader_false_length] at ih ⊢
      simp only [List.length_cons, List.map_cons, List.sum_cons] at ih ⊢
      omega

/-- Splitting a list of records by kind splits a sum over it. -/
theorem sum_by_kind (f : SubRec → Nat) (rs : List SubRec) :
    ((rs.filter fun r => !recIsSdu r).map f).sum + ((rs.filter recIsSdu).map f).sum = (rs.map f).sum := by
  induction rs with
  | nil => rfl
  | cons r rs ih =>
    cases h : recIsSdu r <;> simp [h] <;> omega

/-- The payload bytes of well-formed control elements (R174). -/
theorem pay_length_sum {dir : Dir} : ∀ rs : List SubRec, (∀ r ∈ rs, recWf dir r) →
    ((rs.filter fun r => !recIsSdu r).flatMap recPay).length
      = ((rs.filter fun r => !recIsSdu r).map recLen).sum
  | [], _ => rfl
  | .sdu l n :: rs, h => by
    rw [List.filter_cons_of_neg (by simp [recIsSdu])]
    exact pay_length_sum rs fun r hr => h r (by simp [hr])
  | .ce t l n p :: rs, h => by
    have ih := pay_length_sum rs fun r hr => h r (by simp [hr])
    obtain ⟨-, -, h1, h2⟩ := h (.ce t l n p) (by simp)
    rw [List.filter_cons_of_pos (by simp [recIsSdu])]
    simp only [List.flatMap_cons, List.length_append, List.map_cons, List.sum_cons, ih, recPay, recLen]
    omega

/-- A sum of extra header bytes over control elements is 0. -/
theorem ceRecs_extra (rs : List SubRec) : ((rs.filter fun r => !recIsSdu r).map sduHeaderExtra).sum = 0 := by
  induction rs with
  | nil => rfl
  | cons r rs ih =>
    cases h : recIsSdu r
    · simpa [h, sduHeaderExtra] using ih
    · simpa [h] using ih

/-- The control-element payloads of the PDU, in bytes (R174). -/
theorem cePayloadBytes_length {p : Params} {e : Enc} (h : EncOk p e) :
    e.cePayloadBytes.length = (e.ceRecs.map recLen).sum := pay_length_sum _ h.records_wf

/-- Where `LAST_SDU` is a record, it is the last of the SDU records (R27, R172). -/
theorem sduRecs_last {e : Enc} {i : BitVec 5} (h : e.lastSduOk) (hi : e.lastSdu = some i) :
    ∃ xs, e.sduRecs = xs ++ [e.recAt i] := by
  unfold Enc.lastSduOk at h
  rw [hi] at h
  obtain ⟨h1, h2, h3⟩ := h
  have hlen : i.toNat < e.committed.length := by simpa using h1
  have hsplit : e.committed = e.committed.take i.toNat ++ e.recAt i :: e.committed.drop (i.toNat + 1) := by
    conv => lhs; rw [← List.take_append_drop i.toNat e.committed]
    rw [List.drop_eq_getElem_cons hlen, committed_getElem h1]
  have hrest : (e.committed.drop (i.toNat + 1)).filter recIsSdu = [] := by
    rw [List.filter_eq_nil_iff]
    intro r hr
    obtain ⟨j, hj, rfl⟩ := List.mem_iff_getElem.1 hr
    rw [List.getElem_drop]
    have h5 := e.nsub.isLt
    rw [List.length_drop, committed_length] at hj
    have hj2 : i.toNat + 1 + j < e.nsub.toNat := by omega
    have hm : (i.toNat + 1 + j) % 32 = i.toNat + 1 + j := by omega
    have hg := committed_getElem (e := e) (i := BitVec.ofNat 5 (i.toNat + 1 + j)) (by simpa [hm] using hj2)
    have := h3 (BitVec.ofNat 5 (i.toNat + 1 + j)) (by simp [hm]; omega) (by simpa [hm] using hj2)
    simp only [BitVec.toNat_ofNat, Nat.reducePow, hm] at hg
    rw [hg, this]; simp
  refine ⟨(e.committed.take i.toNat).filter recIsSdu, ?_⟩
  unfold Enc.sduRecs
  conv => lhs; rw [hsplit]
  rw [List.filter_append, List.filter_cons_of_pos h2, hrest]

/-- Without an SDU record the encoder holds none (R27). -/
theorem sduRecs_none {e : Enc} (h : e.lastSduOk) (hi : e.lastSdu = none) : e.sduRecs = [] := by
  unfold Enc.lastSduOk at h
  rw [hi] at h
  exact List.filter_eq_nil_iff.2 fun r hr => by simp [h r hr]

/-- The layout's items without the padding: the control elements, then the SDUs (R172). -/
def Enc.entries (e : Enc) : List LayoutItem := e.ceRecs.map .entry ++ e.sduRecs.map .entry

/-- As many entries as records. -/
theorem entries_length (e : Enc) : e.entries.length = e.nsub.toNat := by
  have h := sum_by_kind (fun _ => 1) e.committed
  have h1 := committed_length e
  simp only [List.map_const', List.sum_replicate, smul_eq_mul, mul_one] at h
  simp only [Enc.entries, Enc.ceRecs, Enc.sduRecs, List.length_append, List.length_map]
  omega

/-- The extra header bytes of all entries (R38, R173). -/
theorem entries_extra (e : Enc) :
    (e.entries.map itemExtra).sum = (e.committed.map sduHeaderExtra).sum := by
  have h := sum_by_kind sduHeaderExtra e.committed
  simp only [Enc.entries, List.map_append, List.sum_append, List.map_map]
  exact h

/-- The last entry's extra bytes are the last SDU's; a control element has none (R171, R172). -/
theorem entries_last {e : Enc} (h : e.lastSduOk) (hn : e.entries ≠ []) :
    ∃ xs x, e.entries = xs ++ [x] ∧ itemExtra x = e.lastExtra := by
  cases hl : e.lastSdu with
  | some i =>
    obtain ⟨xs, hx⟩ := sduRecs_last h hl
    refine ⟨e.ceRecs.map .entry ++ xs.map .entry, .entry (e.recAt i), by simp [Enc.entries, hx], ?_⟩
    unfold Enc.lastSduOk at h
    rw [hl] at h
    simp [itemExtra, sduHeaderExtra, h.2.1, lastExtra_eq hl]
  | none =>
    have hs := sduRecs_none h hl
    have he : e.entries = e.ceRecs.map .entry := by simp [Enc.entries, hs]
    obtain ⟨x, hx⟩ := List.exists_cons_of_ne_nil hn
    have hc : e.ceRecs ≠ [] := fun hc => by rw [he, hc] at hn; exact hn rfl
    refine ⟨(e.ceRecs.dropLast).map .entry, .entry (e.ceRecs.getLast hc), ?_, ?_⟩
    · have h2 := congrArg (List.map LayoutItem.entry) (List.dropLast_append_getLast hc)
      rw [List.map_append] at h2
      rw [he]; exact h2.symm
    · have hm : e.ceRecs.getLast hc ∈ e.ceRecs := List.getLast_mem hc
      have : recIsSdu (e.ceRecs.getLast hc) = false := by
        have := (List.mem_filter.1 hm).2
        simpa using this
      simp [itemExtra, sduHeaderExtra, this, Enc.lastExtra, hl]

/-- The length of the header WRITE lays out (R173): one byte for each subheader, and the extra bytes of every
SDU that is not last. -/
theorem headerBytes_length {e : Enc} (h : e.lastSduOk) (hsome : e.nsub.toNat ≠ 0 ∨ e.rem.toNat ≠ 0) :
    e.headerBytes.length + (if e.rem.toNat > 2 then 0 else e.lastExtra)
      = e.nsub.toNat + (if e.rem.toNat > 2 then 1 else e.rem.toNat)
        + (e.committed.map sduHeaderExtra).sum := by
  have hlen := entries_length e
  have hext := entries_extra e
  unfold Enc.headerBytes Enc.padRegime
  split
  · have hL : e.layoutList { multi := true, p12 := 0, padn := e.rem.toNat - 1 - e.lastExtra }
        = e.entries ++ [.pad] := by simp [Enc.layoutList, Enc.entries]
    rw [hL, subheaderBytes_length, hext, hlen]; simp
  · have hL : e.layoutList { multi := false, p12 := e.rem.toNat, padn := 0 }
        = List.replicate e.rem.toNat .pad ++ e.entries := by simp [Enc.layoutList, Enc.entries]
    rw [hL]
    have hpads : ∀ k, ((List.replicate k LayoutItem.pad).map itemExtra).sum = 0 := by
      intro k; simp [itemExtra]
    by_cases hn : e.entries = []
    · have h0 : e.nsub.toNat = 0 := by rw [← hlen, hn]; rfl
      have hr : e.rem.toNat ≠ 0 := by omega
      obtain ⟨k, hk⟩ := Nat.exists_eq_succ_of_ne_zero hr
      have hx : e.lastExtra = 0 := by
        cases hl : e.lastSdu with
        | none => simp [Enc.lastExtra, hl]
        | some i =>
          unfold Enc.lastSduOk at h
          rw [hl] at h
          omega
      rw [hn, List.append_nil, hk, List.replicate_succ', subheaderBytes_length, hpads, ← hext, hn]
      simp [hx]; omega
    · obtain ⟨xs, x, hxs, hxe⟩ := entries_last h hn
      rw [hxs, ← List.append_assoc, subheaderBytes_length, List.map_append, List.sum_append, hpads]
      rw [hxs] at hlen hext
      simp only [List.length_append, List.length_replicate, List.length_singleton, List.map_append,
        List.sum_append, List.map_cons, List.map_nil, List.sum_cons, List.sum_nil] at hlen hext ⊢
      omega

/-- The pieces WRITE lays out add up to the block's size (R179). -/
theorem block_size_exact {p : Params} {e : Enc} (h : EncOk p e) (hm : e.mode = .build) :
    e.headerBytes.length + e.cePayloadBytes.length + e.sduTotal + e.padRegime.padn = e.n.toNat := by
  have hsz := h.size_in_range (by simp [hm])
  have hacc := (accounted_iff h.last_sdu).1 (h.accounting hm)
  have hx := lastExtra_le e
  have hsum : (e.committed.map fun r => 1 + recLen r).sum = e.nsub.toNat + (e.committed.map recLen).sum := by
    rw [← committed_length e]
    generalize e.committed = rs
    induction rs with
    | nil => rfl
    | cons r rs ih => simp [ih]; omega
  have hkind := sum_by_kind recLen e.committed
  have hs := h.sdu_bytes
  have hc := cePayloadBytes_length h
  unfold Enc.ceRecs at hc
  have hsome : e.nsub.toNat ≠ 0 ∨ e.rem.toNat ≠ 0 := by
    by_contra hcon
    rw [not_or, not_not, not_not] at hcon
    have hnil : e.committed = [] := List.eq_nil_of_length_eq_zero (by rw [committed_length]; exact hcon.1)
    rw [hnil] at hacc hsum
    simp only [List.map_nil, List.sum_nil] at hacc
    omega
  have hh := headerBytes_length h.last_sdu hsome
  have hpad : e.padRegime.padn = if e.rem.toNat > 2 then e.rem.toNat - 1 - e.lastExtra else 0 := by
    unfold Enc.padRegime; split <;> rfl
  rw [hpad]
  by_cases hr : e.rem.toNat > 2
  · rw [if_pos hr, if_pos hr] at hh
    rw [if_pos hr]; omega
  · rw [if_neg hr, if_neg hr] at hh
    rw [if_neg hr]; omega

/-- Every record costs at most 7 bytes of header and control-element payload (R177). -/
theorem reserve_bound {p : Params} {e : Enc} (h : EncOk p e) (hm : e.mode = .build) :
    e.headerBytes.length + e.cePayloadBytes.length ≤ 7 * p.maxSubh + 2 := by
  have hsize := block_size_exact h hm
  have hn := h.nsub_le
  have hc := cePayloadBytes_length h
  have hsome : e.nsub.toNat ≠ 0 ∨ e.rem.toNat ≠ 0 := by
    by_contra hcon
    rw [not_or, not_not, not_not] at hcon
    have hnil : e.committed = [] := List.eq_nil_of_length_eq_zero (by rw [committed_length]; exact hcon.1)
    have hacc := (accounted_iff h.last_sdu).1 (h.accounting hm)
    have := h.size_in_range (by simp [hm])
    rw [hnil] at hacc
    simp only [List.map_nil, List.sum_nil] at hacc
    omega
  have hh := headerBytes_length h.last_sdu hsome
  have hbound : ∀ rs : List SubRec, (∀ r ∈ rs, recWf e.dir r) →
      (rs.map sduHeaderExtra).sum + ((rs.filter fun r => !recIsSdu r).map recLen).sum ≤ 6 * rs.length := by
    intro rs
    induction rs with
    | nil => simp
    | cons r rs ih =>
      intro hr
      have ih := ih fun x hx => hr x (by simp [hx])
      have hw := hr r (by simp)
      cases r with
      | sdu l n =>
        have := hdrSize_bounds (recLen (.sdu l n))
        rw [List.filter_cons_of_neg (by simp [recIsSdu])]
        have hx : sduHeaderExtra (.sdu l n) = hdrSize (recLen (.sdu l n)) - 1 := rfl
        simp only [List.map_cons, List.sum_cons, List.length_cons, hx]
        omega
      | ce t l n pay =>
        have h6 : ceSize t ≤ 6 := by cases t <;> decide
        obtain ⟨-, -, h1, -⟩ := hw
        rw [List.filter_cons_of_pos (by simp [recIsSdu])]
        have hx : sduHeaderExtra (.ce t l n pay) = 0 := rfl
        have hl : recLen (.ce t l n pay) = n.toNat := rfl
        simp only [List.map_cons, List.sum_cons, List.length_cons, hx, hl]
        omega
  have hb := hbound e.committed h.records_wf
  rw [committed_length] at hb
  unfold Enc.ceRecs at hc
  split at hh <;> omega

end Sys2Proof.Machine
end

