-- ==== Sys2Proof/Tests/Slice0.lean ====
section
/-! SUPPORT. The model's own tests: the well-formedness smoke, the decoding of written-out words, one or two small
steps of each command with the expected values of 95_test_vectors.md, and for each statement with hypotheses a state
and operands that meet them. -/

set_option Elab.async false

open Sys2Proof Sys2Proof.Config Sys2Proof.Machine

namespace Sys2Proof.Tests

/-! ### Well-formedness: an ill-formed term for each check (R82, R105, R7, R230, R81) -/

theorem test_wf_initTx : (Instr.initTx .ul 65536).wellFormed = false := by decide
theorem test_wf_setSdu_lcid : (Instr.setSdu 32 0).wellFormed = false := by decide
theorem test_wf_setSdu_req : (Instr.setSdu 0 65536).wellFormed = false := by decide
theorem test_wf_setBsr_b0 : (Instr.setBsr .long 0 262144 0 0 0).wellFormed = false := by decide
theorem test_wf_setBsr_b1 : (Instr.setBsr .long 0 0 262144 0 0).wellFormed = false := by decide
theorem test_wf_setBsr_b2 : (Instr.setBsr .long 0 0 0 262144 0).wellFormed = false := by decide
theorem test_wf_setBsr_b3 : (Instr.setBsr .long 0 0 0 0 262144).wellFormed = false := by decide
theorem test_wf_setPhr_high : (Instr.setPhr 32768).wellFormed = false := by decide
theorem test_wf_setPhr_low : (Instr.setPhr (-32769)).wellFormed = false := by decide
theorem test_wf_hasSpaceSdu : (Instr.hasSpaceSdu 65536).wellFormed = false := by decide
theorem test_wf_hasSpaceCe : (Instr.hasSpaceCe 65536).wellFormed = false := by decide
theorem test_wf_read : (Instr.read .dl 65536).wellFormed = false := by decide
theorem test_wf_bsrLevel : (Instr.bsrLevel 262144).wellFormed = false := by decide
theorem test_wf_phrLevel : (Instr.phrLevel 32768).wellFormed = false := by decide
theorem test_wf_addBearer : (Instr.addBearer 32).wellFormed = false := by decide
theorem test_wf_setPriority : (Instr.setPriority 32 0 0 0).wellFormed = false := by decide
theorem test_wf_setLcg : (Instr.setLcg 32 0).wellFormed = false := by decide
theorem test_wf_ulGrant_n :
    (Instr.ulGrant 65536 false false false false false 0 0).wellFormed = false := by decide
theorem test_wf_ulGrant_ph :
    (Instr.ulGrant 1 false false false false false 0 32768).wellFormed = false := by decide
theorem test_wf_dlTb : (Instr.dlTb 65536).wellFormed = false := by decide
theorem test_din_length : (Instr.read .ul 2).dinFits [0x1F] = false := by decide
theorem test_din_none : Instr.newSubh.dinFits [0x1F] = false := by decide
theorem test_legal_standard : Params.standard.legal = true := by decide +kernel
theorem test_illegal_maxSubh : ({ Params.standard with maxSubh := 32, maxSubhRx := 34 } : Params).legal = false := by
  decide +kernel
theorem test_illegal_maxTbBytes : ({ Params.standard with maxTbBytes := 32768 } : Params).legal = false := by
  decide +kernel
theorem test_illegal_maxSubhRx : ({ Params.standard with maxSubhRx := 21 } : Params).legal = false := by decide +kernel
theorem test_illegal_thresh_count : legalThresh (bsrThreshLow ++ bsrThreshLow) = false := by decide +kernel
theorem test_illegal_thresh_order : legalThresh (bsrThreshHigh ++ bsrThreshLow) = false := by decide +kernel
theorem test_illegal_thresh_top :
    legalThresh (bsrThreshLow ++ bsrThreshHigh.take 31 ++ [262143]) = false := by decide +kernel

/-! ### Decoding: words of 95_test_vectors.md 3.1, one for each command -/

theorem test_decode_initTx : decode 0x0180000000000000000000000000012C = .ok (.initTx .dl 300) := by decide +kernel
theorem test_decode_newSubh : decode 0x02000000000000000000000000000000 = .ok .newSubh := by decide +kernel
theorem test_decode_setSdu : decode 0x030A00000000000000000000000003E8 = .ok (.setSdu 10 1000) := by decide +kernel
theorem test_decode_setBsr_long :
    decode 0x0400100000000000000000A0019249F1 = .ok (.setBsr .long 0 0 10 100 150001) := by decide +kernel
theorem test_decode_setBsr_trunc :
    decode 0x0400220000000000000000000FA00000 = .ok (.setBsr .trunc 2 0 0 1000 0) := by decide +kernel
theorem test_decode_setPhr : decode 0x0500000000000000000000000000FA80 = .ok (.setPhr (-1408)) := by decide +kernel
theorem test_decode_setCrnti : decode 0x06000000000000000000000000001234 = .ok (.setCrnti 0x1234) := by
  decide +kernel
theorem test_decode_setConres : decode 0x07000000000000000000A1B2C3D4E5F6 = .ok (.setConres 0xA1B2C3D4E5F6) := by
  decide +kernel
theorem test_decode_setTa : decode 0x0800000000000000000000000000003F = .ok (.setTa 63) := by decide +kernel
theorem test_decode_hasSpaceSdu : decode 0x09000000000000000000000000000007 = .ok (.hasSpaceSdu 7) := by
  decide +kernel
theorem test_decode_hasSpaceCe : decode 0x0A000000000000000000000000000003 = .ok (.hasSpaceCe 3) := by decide +kernel
theorem test_decode_sduSpace : decode 0x0B000000000000000000000000000000 = .ok .sduSpace := by decide +kernel
theorem test_decode_remSize : decode 0x0C000000000000000000000000000000 = .ok .remSize := by decide +kernel
theorem test_decode_write : decode 0x0D000000000000000000000000000000 = .ok .write := by decide +kernel
theorem test_decode_read : decode 0x0E80000000000000000000000000000C = .ok (.read .dl 12) := by decide +kernel
theorem test_decode_bsrLevel : decode 0x0F00000000000000000000000003FFFF = .ok (.bsrLevel 262143) := by
  decide +kernel
theorem test_decode_phrLevel : decode 0x10000000000000000000000000002800 = .ok (.phrLevel 10240) := by decide +kernel
theorem test_decode_addBearer : decode 0x20010000000000000000000000000000 = .ok (.addBearer 1) := by decide +kernel
theorem test_decode_setPriority :
    decode 0x2103000700000000000003E800000014 = .ok (.setPriority 3 7 1000 20) := by decide +kernel
theorem test_decode_setLcg : decode 0x220A0300000000000000000000000000 = .ok (.setLcg 10 3) := by decide +kernel
theorem test_decode_resetBearers : decode 0x23000000000000000000000000000000 = .ok .resetBearers := by decide +kernel
theorem test_decode_ttiTick : decode 0x30000000000000000000000012345678 = .ok (.ttiTick 0x12345678) := by
  decide +kernel
theorem test_decode_ulGrant : decode 0x310000000000F6000000BEEF00150064
    = .ok (.ulGrant 100 true false true false true 0xBEEF (-2560)) := by decide +kernel
theorem test_decode_dlTb : decode 0x4000000000000000000000000000012C = .ok (.dlTb 300) := by decide +kernel
theorem test_decode_softReset : decode 0x7F000000000000000000000000000000 = .ok .softReset := by decide +kernel
/-- 95_test_vectors.md 3.1: reserved bits are ignored. -/
theorem test_decode_reserved_bits : decode 0x02FFFFFFFFFFFFFFFFFFFFFFFFFFFFFF = .ok .newSubh := by decide +kernel
/-- R83: the illegal opcodes, at both ends of each range of the rule. -/
theorem test_decode_illegal :
    ∀ op ∈ [0x00, 0x11, 0x1F, 0x24, 0x2F, 0x32, 0x3F, 0x41, 0x7E, 0x80, 0xFF],
      decode (BitVec.ofNat 128 (op * 2 ^ 120)) = .error (.illegalOpcode (BitVec.ofNat 8 op)) := by decide +kernel
theorem test_encode_setPriority : encode (.setPriority 3 7 1000 20) = 0x2103000700000000000003E800000014 := by
  decide +kernel
theorem test_table_word : decodeTableWord 128 0x0C000000000000000000000000000000 = some .remSize := by decide +kernel

/-! ### The states the tests start from -/

/-- Reset, then a PDU under construction of `n` bytes with `rem` left, its slot open, the sources answering `ans`. -/
def building (dir : Dir) (n rem : BitVec 16) (ans : List ReadAnswer) : State :=
  { State.reset with
    enc := { Enc.reset with mode := .build, dir := dir, n := n, rem := rem, isOpen := true }
    agents := { pduAnswers := ans, countAnswers := [], draws := 0 } }

/-- A PDU of 4 bytes whose one record is an SDU of 2 bytes: 1 byte is left (R171). -/
def withSdu : State :=
  { State.reset with
    enc := { Enc.reset with
      mode := .build, n := 4, rem := 1, nsub := 1, sub := Enc.reset.sub.set 0 (.sdu 3 2), lastSdu := some 0,
      sduData := [0xAA, 0xBB] } }

/-- Reset with a data-in list on the port. -/
def receiving (din : Bytes) : State := { State.reset with host := { State.reset.host with din := din } }

/-- The state an outcome holds. -/
def after : Host.Outcome State Fault Refusal → State
  | .next t => t
  | .fault _ => State.reset
  | .refused _ => State.reset

/-- The outcome is a next state. -/
def goesOn : Host.Outcome State Fault Refusal → Bool
  | .next _ => true
  | .fault _ => false
  | .refused _ => false

/-! ### One step of each command (expected values: the vectors of 95_test_vectors.md named) -/

/-- B3, B2. -/
theorem test_initTx : let t := after (exec (.initTx .ul 32767) State.reset)
    t.res = 32767 ∧ t.err = .ok ∧ t.enc.mode = .build ∧ t.enc.rem = 32767 := by decide +kernel
theorem test_initTx_size : let t := after (exec (.initTx .ul 32768) (building .ul 9 9 []))
    t.res = -1 ∧ t.err = .tbSize ∧ t.enc.mode = .idle := by decide +kernel
/-- B33; NEW_SUBH reuses the open slot (R124). -/
theorem test_newSubh_idle : let t := after (exec .newSubh State.reset)
    t.res = -1 ∧ t.err = .state := by decide +kernel
theorem test_newSubh_reuse : let t := after (exec .newSubh (building .ul 9 9 []))
    t.res = 1 ∧ t.err = .ok ∧ t.enc.isOpen = true ∧ t.enc.nsub = 0 := by decide +kernel
/-- B11: a short answer is committed. -/
theorem test_setSdu_short : let t := after (exec (.setSdu 1 10) (building .ul 50 50 [⟨2, [7, 8]⟩]))
    t.res = 2 ∧ t.err = .ok ∧ t.enc.rem = 47 ∧ t.enc.isOpen = false ∧ t.enc.nsub = 1 ∧ t.enc.lastSdu = some 0
      ∧ t.enc.sduData = [7, 8] ∧ t.trace = [.readPdu 1 10] := by decide +kernel
/-- B14: an inconsistent answer is discarded. -/
theorem test_setSdu_source : let t := after (exec (.setSdu 1 5) (building .ul 50 50 [⟨3, [7, 8]⟩]))
    t.res = -1 ∧ t.err = .src ∧ t.enc.isOpen = true ∧ t.enc.rem = 50 := by decide +kernel
/-- B35: the LONG_BSR payload `00 14 3F`. -/
theorem test_setBsr_long :
    let t := after (exec (.setBsr .long 0 0 10 100 150001) (building .ul 10 10 []))
    t.res = 3 ∧ t.enc.rem = 6 ∧ t.enc.recAt 0 = .ce .longBsr 30 3 [0x00, 0x14, 0x3F] := by decide +kernel
/-- B36: the TRUNC_BSR payload `9F`. -/
theorem test_setBsr_trunc :
    let t := after (exec (.setBsr .trunc 2 0 0 1000 0) (building .ul 10 10 []))
    t.enc.recAt 0 = .ce .truncBsr 28 1 [0x9F] := by decide +kernel
/-- B22, and the row `PH` = 1408 of section 3.2. -/
theorem test_setPhr : let t := after (exec (.setPhr 1408) (building .ul 2 2 []))
    t.res = 1 ∧ t.enc.rem = 0 ∧ t.enc.recAt 0 = .ce .phr 26 1 [0x1C] := by decide +kernel
/-- R130 example; B21. -/
theorem test_setCrnti : let t := after (exec (.setCrnti 0x1234) (building .ul 9 4 []))
    t.res = 2 ∧ t.enc.rem = 1 ∧ t.enc.recAt 0 = .ce .crnti 27 2 [0x12, 0x34] := by decide +kernel
theorem test_setCrnti_space : let t := after (exec (.setCrnti 1) (building .ul 2 2 []))
    t.res = -1 ∧ t.err = .space := by decide +kernel
/-- R131 example; B17. -/
theorem test_setConres : let t := after (exec (.setConres 0x010203040506) (building .dl 8 8 []))
    t.res = 6 ∧ t.enc.rem = 1 ∧ t.enc.recAt 0 = .ce .conres 28 6 [1, 2, 3, 4, 5, 6] := by decide +kernel
theorem test_setConres_dir : let t := after (exec (.setConres 1) (building .ul 50 50 []))
    t.res = -1 ∧ t.err = .dir := by decide +kernel
/-- R132 example. -/
theorem test_setTa : let t := after (exec (.setTa 31) (building .dl 8 8 []))
    t.res = 1 ∧ t.enc.recAt 0 = .ce .ta 29 1 [0x1F] := by decide +kernel
/-- R133: a last SDU of 2 bytes needs 1 byte more, so with 1 byte left the space is -1. -/
theorem test_hasSpaceSdu : (after (exec (.hasSpaceSdu 0) withSdu)).res = 0
    ∧ (after (exec (.hasSpaceSdu 8) (building .ul 9 9 []))).res = 1 := by decide +kernel
/-- R134 example. -/
theorem test_hasSpaceCe : (after (exec (.hasSpaceCe 1) (building .ul 2 2 []))).res = 1
    ∧ (after (exec (.hasSpaceCe 2) (building .ul 2 2 []))).res = 0 := by decide +kernel
/-- B8, B34. -/
theorem test_sduSpace : (after (exec .sduSpace (building .ul 20 20 []))).res = 19
    ∧ (after (exec .sduSpace withSdu)).res = -1 := by decide +kernel
theorem test_sduSpace_idle : let t := after (exec .sduSpace State.reset)
    t.res = 0 ∧ t.err = .state := by decide +kernel
theorem test_remSize : (after (exec .remSize withSdu)).res = 1 := by decide +kernel
/-- R171: 1 byte left, one front padding subheader. -/
theorem test_write : let t := after (exec .write withSdu)
    t.res = 4 ∧ t.err = .ok ∧ t.enc.tbOut = [0x3F, 0x03, 0xAA, 0xBB] ∧ t.enc.mode = .done ∧ t.enc.tbValid = true := by
  decide +kernel
/-- 95_test_vectors.md 3.3, `HDR_RESERVE` below the header. -/
theorem test_write_reserve :
    let t := after (exec .write { withSdu with params := { Params.standard with hdrReserve := 1 } })
    t.res = -1 ∧ t.err = .hdrReserve ∧ t.fault = true ∧ t.enc.mode = .idle := by decide +kernel
/-- R201 example. -/
theorem test_read : let t := after (exec (.read .ul 4) (receiving [0x3F, 0x1B, 0x12, 0x34]))
    t.res = 2 ∧ t.dec.valid = true ∧ t.dec.recs = [⟨.pad, 31, 0, 2⟩, ⟨.ce .crnti, 27, 2, 2⟩] := by decide +kernel
/-- RD5; R63: a list above the capacity is refused. -/
theorem test_read_errors :
    let t := after (exec (.read .ul 5) (receiving [0x21, 0x7F, 0x02, 0x00, 0x00]))
    let u := after (exec (.read .ul 2) { receiving [0x1F, 0] with params := { Params.standard with maxTbBytes := 1 } })
    t.res = -1 ∧ t.err = .pLen ∧ t.decStatus = 0x00051200 ∧ u.err = .arg ∧ u.res = -1 ∧ u.dec = State.reset.dec := by
  decide +kernel
/-- L1. -/
theorem test_bsrLevel : (after (exec (.bsrLevel 100) State.reset)).res = 16
    ∧ (after (exec (.bsrLevel 150000) State.reset)).res = 62
    ∧ (after (exec (.bsrLevel 150001) State.reset)).res = 63 := by decide +kernel
/-- L2. -/
theorem test_phrLevel : (after (exec (.phrLevel (-5633)) State.reset)).res = 0
    ∧ (after (exec (.phrLevel (-5632)) State.reset)).res = 1
    ∧ (after (exec (.phrLevel 10239) State.reset)).res = 62 := by decide +kernel
/-- R251 example; M5. -/
theorem test_addBearer : let t := after (exec (.addBearer 3) State.reset)
    t.res = 1 ∧ (t.lch 3).active = true ∧ (t.lch 4).active = false := by decide +kernel
theorem test_addBearer_lcid : (after (exec (.addBearer 11) State.reset)).err = .arg := by decide +kernel
/-- R252, R253 examples. -/
theorem test_setPriority : let t := after (exec (.setPriority 1 1 10 3) State.reset)
    t.lch 1 = { active := false, prio := 1, pbr := 10, bsd := 3, lcg := 0 } := by decide +kernel
theorem test_setLcg : (after (exec (.setLcg 2 1) State.reset)).lch 2
    = { active := false, prio := 255, pbr := 0, bsd := 0, lcg := 1 } := by decide +kernel

/-- Channel 1 active with rate 10, duration 3 and `tok` tokens (M1, M2). -/
def limited (tok : BitVec 32) : State :=
  { State.reset with
    cfg := resetCfg.set 1 { active := true, prio := 1, pbr := 10, bsd := 3, lcg := 0 }
    mux := { Mux.reset with tok := Mux.reset.tok.set 1 tok } }

/-- R254 example. -/
theorem test_resetBearers : let t := after (exec .resetBearers (limited 7))
    (t.lch 1).active = false ∧ (t.lch 0).active = true ∧ t.tokOf 1 = 0 := by decide +kernel
/-- R256 example: 25 gives min(35, 30) = 30; M2: -50 gives -40. -/
theorem test_ttiTick : (after (exec (.ttiTick 0) (limited 25))).tokOf 1 = 30
    ∧ (after (exec (.ttiTick 0) (limited (-50)))).tokOf 1 = -40 := by decide +kernel

/-- Channels 0 and 1 active, unlimited, with the sources' answers `counts` and `ans`. -/
def granted (counts : List Nat) (ans : List ReadAnswer) : State :=
  { State.reset with
    cfg := resetCfg.set 1 { active := true, prio := 1, pbr := pbrInf, bsd := 0, lcg := 0 }
    agents := { pduAnswers := ans, countAnswers := counts, draws := 0 } }

/-- R274: channel 1 first, channel 2 without tokens only in phase 2, which ends with the block full. -/
theorem test_ulGrant_phases :
    let s : State := { granted [50, 0, 0, 0, 100] [⟨50, List.replicate 50 0xE1⟩, ⟨7, List.replicate 7 0xE2⟩] with
      cfg := (resetCfg.set 1 { active := true, prio := 1, pbr := pbrInf, bsd := 0, lcg := 0 }).set 2
        { active := true, prio := 2, pbr := 0, bsd := 0, lcg := 0 } }
    let t := after (exec (.ulGrant 60 false false false false false 0 0) s)
    t.res = 60 ∧ t.enc.tbOut = [0x21, 0x32, 0x02] ++ List.replicate 50 0xE1 ++ List.replicate 7 0xE2 ∧ t.tokOf 2 = -7 ∧
    t.requests = [.bufferState 1, .readPdu 1 50, .bufferState 1, .bufferState 0, .bufferState 1, .bufferState 2,
      .readPdu 2 7] := by decide +kernel
/-- R275, stored as Msg3; and R262, R263: with data in the groups 0 and 3 and fewer than 4 bytes left, TRUNC for the group
of channel 1, the first in service order with data, and no room for the PHR. -/
theorem test_ulGrant_elements :
    let s := fun (g : BitVec 2) (counts : List Nat) (ans : List ReadAnswer) => ({ granted counts ans with
      cfg := resetCfg.set 1 { active := true, prio := 1, pbr := pbrInf, bsd := 0, lcg := g } } : State)
    let t := after (exec (.ulGrant 20 true false true true true 0x1234 0)
      (s 1 [0, 10, 10] [⟨10, List.replicate 10 0xE1⟩]))
    let u := after (exec (.ulGrant 6 false false true true true 0x1234 0) (s 3 [5, 30] []))
    t.enc.tbOut = [0x3F, 0x3F, 0x3B, 0x3D, 0x3A, 0x01, 0x12, 0x34, 0x41, 0x17] ++ List.replicate 10 0xE1 ∧
    t.mux.msg3 = { valid := true, len := 20, bytes := t.enc.tbOut } ∧
    u.enc.committed = [.ce .crnti 27 2 [0x12, 0x34], .ce .truncBsr 28 1 [0xC8]] := by decide +kernel
/-- P8-like: a TA element, then an SDU on the active LCID 0 (R303 words). -/
theorem test_dlTb : let t := after (exec (.dlTb 4) (receiving [0x3D, 0x00, 0x1F, 0xD0]))
    t.res = 1 ∧ t.trace = [.event 0x030000000000001F, .writePdu 0 [0xD0], .event 0x0100000000000001] := by
  decide +kernel
/-- X2. -/
theorem test_dlTb_truncated : let t := after (exec (.dlTb 0) (receiving []))
    t.res = -1 ∧ t.err = .pTrunc ∧ t.trace = [.event 0x8001000000000010] := by decide +kernel
/-- R351 example. -/
theorem test_softReset : let t := after (exec .softReset { limited 7 with fault := true })
    t.res = 1 ∧ t.fault = false ∧ t.tokOf 1 = 0 ∧ (t.lch 1).active = true := by decide +kernel

/-- The host's entry runs the given word as the next command; an illegal word gives `E_ILLEGAL` (R83). -/
theorem test_step_runs_word :
    let t := after (step (State.reset.withFetchWord 128 0x0100000000000000000000000000003C))
    t.enc.mode = .build ∧ t.enc.n = 60 ∧ t.host.pos = 1 ∧ t.trace = [.result 60 .ok] := by decide +kernel
theorem test_step_illegal :
    let t := after (step (State.reset.withFetchWord 128 0x11000000000000000000000000000000))
    t.err = .illegal ∧ t.res = -1 := by decide +kernel
/-- R106: `ADD_SHORT_BSR 1, 5` expands to NEW_SUBH and SET_BSR SHORT with the count in position 1. -/
theorem test_assemble_pseudo : (AsmStmt.addShortBsr 1 5).expand
    = [(.newSubh, []), (.setBsr .short 1 0 5 0 0, [])] := by decide +kernel
/-- R105, 95_test_vectors.md 3.1: lines of text to their words; a byte list of the wrong length is refused. -/
theorem test_assemble_text :
    (assembleLine "SET_BSR LONG, 0, 0, 10, 100, 150001".toList).toOption
      = some [⟨0x0400100000000000000000A0019249F1, []⟩] ∧
    (assembleLine "READ DL, 2, [0x1F, 7] ; two bytes".toList).toOption
      = some [⟨0x0E800000000000000000000000000002, [0x1F, 7]⟩] ∧
    (assembleLine "READ DL, 2, [0x1F]".toList).toOption = none := by decide +kernel

/-! ### States of the invariant -/

/-- An encoder with one SDU record of 2 bytes in a block of 4 bytes, 1 byte left. -/
theorem encOk_withSdu : EncOk Params.standard withSdu.enc where
  size_in_range := by decide
  rem_le_size := by decide
  nsub_le := by decide
  open_slot_free := by decide
  valid_iff_done := by decide
  block_has_size := by decide
  records_wf := by
    intro r hr
    rw [show withSdu.enc.committed = [.sdu 3 2] by decide, List.mem_singleton] at hr
    have h : r = .sdu 3 2 := hr
    subst h; exact ⟨by decide, by decide⟩
  last_sdu := ⟨by decide, by decide, fun j h1 h2 => by
    have e1 : (0 : BitVec 5).toNat = 0 := rfl
    have e2 : withSdu.enc.nsub.toNat = 1 := rfl
    omega⟩
  sdu_bytes := by decide
  accounting := fun _ => by unfold Enc.accounted; decide
  sdu_data_fits := by decide
  tb_out_fits := by decide

/-- A decoder that holds the parse of `[0x3F, 0x1F]`. -/
def twoPads : Dec :=
  { valid := true, dir := .ul, n := 2, data := [0x3F, 0x1F], nrec := 2, recs := [⟨.pad, 31, 0, 2⟩, ⟨.pad, 31, 0, 2⟩],
    err := .ok }

theorem decOk_twoPads : DecOk Params.standard twoPads where
  size_is_length := by decide
  count_is_length := by decide
  count_in_range := by decide
  records_cover := fun _ => ⟨2, rfl, rfl, rfl⟩
  records_wf := fun _ r hr => by
    have h : r = ⟨.pad, 31, 0, 2⟩ := by simpa [twoPads] using hr
    subst h; exact ⟨by decide, fun t ht => by simp at ht⟩
  data_fits := by decide

/-- A state with a PDU under construction, a parsed block, a stored Msg3, and WRITE as the next command. -/
def sample : State :=
  { withSdu with
    dec := twoPads
    mux := { Mux.reset with msg3 := { valid := true, len := 1, bytes := [0x1F] } }
    host := { cmds := [⟨0x0D000000000000000000000000000000, []⟩], din := [], pos := 0 } }

theorem inv_sample : BlockInv sample where
  params_legal := test_legal_standard
  enc_ok := encOk_withSdu
  dec_ok := decOk_twoPads
  msg3_ok := ⟨by decide, by decide, by decide⟩
  ccch_active := by decide

/-- `sample` after its WRITE. -/
def written : State :=
  { sample with
    enc := { withSdu.enc with mode := .done, tbOut := [0x3F, 0x03, 0xAA, 0xBB], tbValid := true }
    trace := [.tbOut [0x3F, 0x03, 0xAA, 0xBB]], res := 4 }

theorem inv_written : BlockInv written where
  params_legal := test_legal_standard
  enc_ok :=
    { encOk_withSdu with
      valid_iff_done := by decide
      block_has_size := by decide
      size_in_range := by decide
      accounting := by intro h; exact absurd h (by decide)
      tb_out_fits := by decide }
  dec_ok := decOk_twoPads
  msg3_ok := ⟨by decide, by decide, by decide⟩
  ccch_active := by decide

/-- A PDU of a C-RNTI element and an SDU, and the same PDU with the records committed in the other order. -/
def ceThenSdu (first : Bool) : Enc :=
  { Enc.reset with
    mode := .build, n := 10, rem := 4, nsub := 2, sduData := [0xAA, 0xBB]
    lastSdu := some (if first then 1 else 0)
    sub := (Enc.reset.sub.set 0 (if first then .ce .crnti 27 2 [1, 2] else .sdu 3 2)).set 1
      (if first then .sdu 3 2 else .ce .crnti 27 2 [1, 2]) }

theorem encOk_ceThenSdu (first : Bool) : EncOk Params.standard (ceThenSdu first) where
  size_in_range := by revert first; decide
  rem_le_size := by revert first; decide
  nsub_le := by revert first; decide
  open_slot_free := by revert first; decide
  valid_iff_done := by revert first; decide
  block_has_size := by revert first; decide
  records_wf := by
    intro r hr
    have h : r = .sdu 3 2 ∨ r = .ce .crnti 27 2 [1, 2] := by
      have hc : (ceThenSdu first).committed = if first then [.ce .crnti 27 2 [1, 2], .sdu 3 2]
          else [.sdu 3 2, .ce .crnti 27 2 [1, 2]] := by clear hr; revert first; decide
      rw [hc] at hr
      cases first <;> simp at hr <;> tauto
    rcases h with rfl | rfl
    · exact ⟨by decide, by decide⟩
    · exact ⟨rfl, rfl, rfl, rfl⟩
  last_sdu := by
    cases first
    · exact ⟨by decide, by decide, by decide⟩
    · exact ⟨by decide, by decide, by decide⟩
  sdu_bytes := by revert first; decide
  accounting := fun _ => by unfold Enc.accounted; revert first; decide
  sdu_data_fits := by revert first; decide
  tb_out_fits := by revert first; decide

/-! ### For each statement with hypotheses: a state and operands that meet them, at the ends of their ranges -/

theorem witness_DecodeOfEncode :
    (Instr.ulGrant 65535 true true true true true 0xFFFF (-32768)).wellFormed = true
      ∧ (Instr.setBsr .reserved 3 262143 262143 262143 262143).wellFormed = true
      ∧ (Instr.setPhr 32767).wellFormed = true := by decide
theorem witness_DecodeGivesFieldValues :
    decode 0x7F000000000000000000000000000000 = .ok .softReset := test_decode_softReset
theorem witness_UnassignedOpcodeFails_illegal :
    (opcode 0x00000000000000000000000000000000).toNat = 0x00 ∧ (opcode 0x11000000000000000000000000000000).toNat = 0x11
      ∧ (opcode 0x1F000000000000000000000000000000).toNat = 0x1F
      ∧ (opcode 0x24000000000000000000000000000000).toNat = 0x24
      ∧ (opcode 0x2F000000000000000000000000000000).toNat = 0x2F
      ∧ (opcode 0x32000000000000000000000000000000).toNat = 0x32
      ∧ (opcode 0x3F000000000000000000000000000000).toNat = 0x3F
      ∧ (opcode 0x41000000000000000000000000000000).toNat = 0x41
      ∧ (opcode 0x7E000000000000000000000000000000).toNat = 0x7E
      ∧ (opcode 0x80000000000000000000000000000000).toNat = 0x80
      ∧ (opcode 0xFF000000000000000000000000000000).toNat = 0xFF := by decide +kernel
theorem witness_UnassignedOpcodeFails_legal : (opcode 0x10000000000000000000000000000000).toNat = 0x10
    ∧ (opcode 0x7F000000000000000000000000000000).toNat = 0x7F := by decide +kernel
/-- Every operand at the end of its range, then each one past it, and a data-in list of the wrong length. -/
theorem witness_AssembledWordsDecode :
    (AsmStmt.addSdu 31 65535).assemble
      = .ok [⟨0x02000000000000000000000000000000, []⟩, ⟨0x031F000000000000000000000000FFFF, []⟩] ∧
    (AsmStmt.command (.read .ul 1) [0x1F]).assemble = .ok [⟨0x0E000000000000000000000000000001, [0x1F]⟩] ∧
    (AsmStmt.addSdu 32 65535).assemble = .error .doesNotFit ∧
    (AsmStmt.addSdu 31 65536).assemble = .error .doesNotFit ∧
    (AsmStmt.command (.read .ul 1) []).assemble = .error .doesNotFit ∧
    (AsmStmt.command .write [0x1F]).assemble = .error .doesNotFit := by decide +kernel
theorem witness_StepRunsDecodedCommand : sample.host.cmds = ⟨0x0D000000000000000000000000000000, []⟩ :: []
    ∧ decode 0x0D000000000000000000000000000000 = .ok .write := ⟨rfl, test_decode_write⟩
theorem witness_StepWithoutCommand :
    (State.reset.withFetchWord 128 0).host.cmds = ⟨0, []⟩ :: [] ∧ decode 0 = .error (.illegalOpcode 0)
      ∧ State.reset.host.cmds = [] := by decide +kernel
theorem witness_StepAdvancesByOne : sample.host.cmds ≠ [] := by decide
/-- A list of the wrong length, and one of the right length one byte above the capacity. -/
theorem witness_DataInLengthAndUse :
    let s : State := { receiving [0x1F, 0x00] with params := { Params.standard with maxTbBytes := 1 } }
    State.reset.host.din.length ≠ 1 ∧ s.host.din.length = 2 ∧ s.params.maxTbBytes < s.host.din.length
      ∧ Instr.newSubh.dinField = none ∧ exec .newSubh sample = .next (after (exec .newSubh sample)) :=
  ⟨by decide, by decide, by decide, rfl, rfl⟩
theorem witness_InitTxStartsPdu : 1 ≤ 1 ∧ 1 ≤ State.reset.params.maxTbBytes ∧ 1 ≤ 32767
    ∧ 32767 ≤ State.reset.params.maxTbBytes ∧ State.reset.params.maxTbBytes < 32768 := by decide
theorem witness_NewSubhOpensSlot_idle : State.reset.enc.mode ≠ .build := by decide
theorem witness_NewSubhOpensSlot_open : (building .ul 1 1 []).enc.mode = .build
    ∧ (building .ul 1 1 []).enc.isOpen = true := by decide
theorem witness_NewSubhOpensSlot_full :
    let s : State := { withSdu with enc := { withSdu.enc with nsub := 20 } }
    s.enc.mode = .build ∧ s.enc.isOpen = false ∧ s.enc.nsub.toNat = s.params.maxSubh := by decide
theorem witness_NewSubhOpensSlot_free :
    let s : State := { withSdu with enc := { withSdu.enc with nsub := 19 } }
    s.enc.mode = .build ∧ s.enc.isOpen = false ∧ s.enc.nsub.toNat ≠ s.params.maxSubh := by decide
theorem witness_OutsideBuildRefused : State.reset.enc.mode ≠ .build ∧ written.enc.mode ≠ .build
    ∧ isSetter (.setTa 0) = true ∧ isQuery .remSize = true := by decide
theorem witness_SetterNeedsOpenSlot : isSetter (.setSdu 1 5) = true ∧ withSdu.enc.mode = .build
    ∧ withSdu.enc.isOpen = false ∧ (building .ul 1 1 []).enc.mode = .build ∧ (building .ul 1 1 []).enc.isOpen = true := by
  decide
theorem witness_SduSpaceFormula :
    let e : Enc := { withSdu.enc with rem := 0, sub := Enc.reset.sub.set 0 (.sdu 3 128) }
    (building .ul 1 1 []).enc.lastSdu = none ∧ e.lastSdu = some 0 ∧ e.rem = 0 ∧ 128 ≤ recLen (e.recAt 0)
      ∧ e.sduSpace = -3 := by decide
theorem witness_SetSduCommitsAnswer_largest :
    let s := building .ul 3 3 [⟨2, [7, 8]⟩]
    s.enc.mode = .build ∧ s.enc.isOpen = true ∧ ((2 : Nat) : Int) ≤ s.enc.sduSpace
      ∧ (nextPduAnswer 10 2 s.agents).1.k = (2 : Nat) ∧ (nextPduAnswer 10 2 s.agents).1.bytes.length = 2 := by decide
theorem witness_SetSduCommitsAnswer_afterSdu :
    let s : State := { building .ul 9 3 [⟨1, [7]⟩] with
      enc := { withSdu.enc with n := 9, rem := 3, isOpen := true } }
    s.enc.mode = .build ∧ s.enc.isOpen = true ∧ ((1 : Nat) : Int) ≤ s.enc.sduSpace ∧ s.enc.lastSdu = some 0
      ∧ (nextPduAnswer 0 1 s.agents).1.k = (1 : Nat) ∧ (nextPduAnswer 0 1 s.agents).1.bytes.length = 1 := by decide
theorem witness_SetSduCommitsNothing :
    let s := fun (a : ReadAnswer) => building .ul 3 3 [a]
    (s ⟨0, []⟩).enc.mode = .build ∧ (s ⟨0, []⟩).enc.isOpen = true ∧ 10 < 11 ∧ (s ⟨0, []⟩).enc.sduSpace < (3 : Nat)
      ∧ ((2 : Nat) : Int) ≤ (s ⟨0, []⟩).enc.sduSpace ∧ (nextPduAnswer 10 2 (s ⟨0, []⟩).agents).1 = ⟨0, []⟩
      ∧ (nextPduAnswer 10 2 (s ⟨-1, []⟩).agents).1.k < 0
      ∧ ((2 : Nat) : Int) < (nextPduAnswer 10 2 (s ⟨3, [1, 2, 3]⟩).agents).1.k
      ∧ ((nextPduAnswer 10 2 (s ⟨2, [1]⟩).agents).1.bytes.length : Int) ≠ (nextPduAnswer 10 2 (s ⟨2, [1]⟩).agents).1.k := by
  decide
theorem witness_CeSetterCommitsPayload :
    let ul := fun (r : BitVec 16) => (building .ul 9 r []).enc
    let dl := fun (r : BitVec 16) => (building .dl 9 r []).enc
    (ul 2).mode = .build ∧ (ul 2).isOpen = true ∧ (ul 2).dir = .ul ∧ (dl 2).dir = .dl ∧ 2 ≤ (ul 2).rem.toNat
      ∧ 4 ≤ (ul 4).rem.toNat ∧ 3 ≤ (ul 3).rem.toNat ∧ 7 ≤ (dl 7).rem.toNat ∧ 2 ≤ (dl 2).rem.toNat := by decide
theorem witness_CeSetterRefusals :
    let ul := fun (r : BitVec 16) => (building .ul 9 r []).enc
    let dl := fun (r : BitVec 16) => (building .dl 9 r []).enc
    (ul 1).mode = .build ∧ (ul 1).isOpen = true ∧ (ul 1).dir = .ul ∧ (dl 1).dir = .dl ∧ (dl 6).rem.toNat < 7
      ∧ (dl 1).rem.toNat < 2 ∧ (ul 3).rem.toNat < 4 ∧ (ul 1).rem.toNat < 2 ∧ (ul 2).rem.toNat < 3
      ∧ BsrFmt.short ≠ .reserved := by decide
theorem witness_CapacityQueriesAnswer : withSdu.enc.mode = .build := by decide
theorem witness_SpaceQueriesAgreeWithSetters :
    let s := building .ul 9 4 []
    let d := building .dl 9 6 []
    s.enc.mode = .build ∧ s.enc.isOpen = true ∧ s.enc.dir = .ul ∧ d.enc.mode = .build ∧ d.enc.isOpen = true
      ∧ d.enc.dir = .dl ∧ 10 ≤ 10 ∧ 0 < 1 := by decide
theorem witness_RemIndependentOfInterleaving :
    EncOk Params.standard (ceThenSdu true) ∧ EncOk Params.standard (ceThenSdu false)
      ∧ (ceThenSdu true).mode = .build ∧ (ceThenSdu false).mode = .build ∧ (ceThenSdu true).n = (ceThenSdu false).n
      ∧ (ceThenSdu true).committed.Perm (ceThenSdu false).committed
      ∧ (ceThenSdu true).lastSdu.map (fun i => recLen ((ceThenSdu true).recAt i))
        = (ceThenSdu false).lastSdu.map (fun i => recLen ((ceThenSdu false).recAt i)) :=
  ⟨encOk_ceThenSdu true, encOk_ceThenSdu false, rfl, rfl, rfl, by decide, by decide⟩
theorem witness_WriteProducesExactBlock : BlockInv sample ∧ reserveSuffices sample.params ∧ sample.enc.mode = .build :=
  ⟨inv_sample, by unfold reserveSuffices; decide, rfl⟩
theorem witness_HeaderOrderAndPadding : 2 < ({ withSdu.enc with rem := 3 } : Enc).rem.toNat
    ∧ ({ withSdu.enc with rem := 2 } : Enc).rem.toNat = 2 ∧ withSdu.enc.rem.toNat = 1
    ∧ ({ withSdu.enc with rem := 0 } : Enc).rem.toNat = 0 := by decide
theorem witness_PaddingOnlyBlocks : State.reset.params.legal = true ∧ 2 ≤ State.reset.params.hdrReserve
    ∧ 3 ≤ State.reset.params.maxTbBytes ∧ 32767 ≤ State.reset.params.maxTbBytes :=
  ⟨test_legal_standard, by decide, by decide, by decide⟩
theorem witness_FatalWriteAborts_reserve :
    let s : State := { withSdu with params := { Params.standard with hdrReserve := 1 } }
    s.enc.mode = .build ∧ s.params.hdrReserve < s.enc.headerBytes.length + s.enc.cePayloadBytes.length := by decide
theorem witness_FatalWriteAborts_size :
    let s : State := { withSdu with enc := { withSdu.enc with n := 5 } }
    let hc := s.enc.headerBytes.length + s.enc.cePayloadBytes.length
    s.enc.mode = .build ∧ hc ≤ s.params.hdrReserve
      ∧ hc + s.enc.sduTotal + s.enc.padRegime.padn ≠ s.enc.n.toNat := by decide
theorem witness_InPlaceLayoutGivesBlock :
    let hdr : Bytes := [0x21, 0x01, 0x1F]
    let sdu : Bytes := [0xAA]
    hdr.length + ([] : Bytes).length ≤ 3 ∧ 3 + sdu.length + 1 ≤ (List.replicate 5 (0 : Byte)).length := by decide
theorem witness_WriteThenReadRoundTrip : BlockInv sample ∧ sample.enc.mode = .build
    ∧ exec .write sample = .next (after (exec .write sample)) ∧ (after (exec .write sample)).err = .ok :=
  ⟨inv_sample, rfl, rfl, by decide +kernel⟩
theorem witness_ReadStoresParse :
    (receiving [0x1F]).host.din.length = 1 ∧ 1 ≤ (receiving [0x1F]).params.maxTbBytes
      ∧ parse .ul (receiving [0x1F]).params.maxSubhRx 1 [0x1F] = .ok [⟨.pad, 31, 0, 1⟩]
      ∧ parse .ul (receiving [0x3F]).params.maxSubhRx 1 [0x3F] = .error .pTrunc := by decide +kernel
theorem witness_ReadPayloadsCoverBlock :
    let s := receiving [0x1F]
    s.params.legal = true ∧ exec (.read .ul 1) s = .next (after (exec (.read .ul 1) s))
      ∧ (after (exec (.read .ul 1) s)).err = .ok :=
  ⟨test_legal_standard, rfl, by decide +kernel⟩
/-- The lenient forms of R206: padding before an SDU, any R bits, an SDU of length 0, a 3-byte subheader of a length below
128, an element after the SDUs. -/
def lenient : List HeaderForm := [.bare 3 31, .short 1 3 0, .long 2 10 1, .bare 0 27]
/-- One subheader fewer than `MAX_SUBH_RX`. -/
def full : List HeaderForm := List.replicate 22 (.bare 0 31)
theorem witness_ReadAnySubheaderSequence_forms : ∀ h ∈ lenient ++ full, h.fits .ul := by
  intro h hh
  simp only [lenient, full, List.mem_append, List.mem_cons, List.not_mem_nil, or_false, List.mem_replicate] at hh
  rcases hh with (rfl | rfl | rfl | rfl) | ⟨-, rfl⟩ <;> unfold HeaderForm.fits <;> decide
/-- For each clause a block that meets it: one that parses, too few payload bytes, an element of the wrong size, a reserved
LCID, a header without end, one cut short, and one subheader too many. -/
theorem witness_ReadAnySubheaderSequence :
    let read := fun (d : Bytes) => (after (exec (.read .ul d.length) (receiving d))).err
    State.reset.params.legal = true ∧ (receiving (full.flatMap HeaderForm.bytes)).host.din.length ≤ 32767 ∧
    State.reset.params.maxSubhRx = 23 ∧ full.length < 23 ∧
    lenient.flatMap HeaderForm.bytes = [0xFF, 0x63, 0x00, 0xAA, 0x80, 0x01, 0x3B] ∧
    (lenient.map (HeaderForm.declared .ul)).sum = 3 ∧
    read (lenient.flatMap HeaderForm.bytes ++ 0x1B :: [1, 2, 3, 4, 5]) = .ok ∧
    read (lenient.flatMap HeaderForm.bytes ++ 0x1F :: [1, 2]) = .pLen ∧
    read (lenient.flatMap HeaderForm.bytes ++ 0x1B :: [1, 2, 3, 4]) = .pLen ∧
    read (lenient.flatMap HeaderForm.bytes ++ 0x0B :: [1, 2]) = .pLcid ∧
    read (full.flatMap HeaderForm.bytes ++ 0x00 :: [1, 2]) = .ok ∧
    read ((full ++ [HeaderForm.bare 0 31]).flatMap HeaderForm.bytes) = .pTrunc ∧
    read (full.flatMap HeaderForm.bytes ++ [0x2A]) = .pTrunc ∧
    read (full.flatMap HeaderForm.bytes ++ [0x2A, 0x80]) = .pTrunc ∧
    read ((full ++ [HeaderForm.bare 0 31]).flatMap HeaderForm.bytes ++ 0x1F :: []) = .pTooMany := by
  decide +kernel
/-- A block for each clause: no byte, an SDU, padding, the reserved LCIDs at both ends of their ranges, each control
element. -/
theorem witness_ReadOneSubheader :
    (receiving []).host.din = [] ∧ (receiving [0x00]).host.din = 0x00 :: [] ∧
    (∀ b ∈ ([0x00, 0x0A, 0x0B, 0x19, 0x1B, 0x1A, 0x1C, 0x1D, 0x1E, 0x1F] : Bytes), b.getLsbD 5 = false) ∧
    ((0x0A : Byte).extractLsb 4 0).toNat = 10 ∧ ((0x1F : Byte).extractLsb 4 0).toNat = 31 ∧
    ((0x0B : Byte).extractLsb 4 0).toNat = 11 ∧ ((0x19 : Byte).extractLsb 4 0).toNat = 25 ∧
    ((0x1B : Byte).extractLsb 4 0).toNat = 27 ∧ ((0x1A : Byte).extractLsb 4 0).toNat = 26 ∧
    ((0x1C : Byte).extractLsb 4 0).toNat = 28 ∧ ((0x1D : Byte).extractLsb 4 0).toNat = 29 ∧
    ((0x1E : Byte).extractLsb 4 0).toNat = 30 ∧ ([] : Bytes).length < (receiving []).params.maxTbBytes := by decide
theorem witness_BsrLevelAnswers : State.reset.params.legal = true := test_legal_standard
theorem witness_BsrLevelLaws : legalThresh Params.standard.bsrThresh = true ∧ 128125 < 128126 ∧ 150000 ≤ 150000 := by
  decide +kernel
theorem witness_PhrLevelAnswers : (-5888 : Int) ≤ -5888 ∧ (10240 : Int) ≤ 10240 ∧ (-5888 : Int) ≤ 10239
    ∧ (10239 : Int) < 10240 := by decide
theorem witness_AddBearerActivates : 10 < 11 ∧ (State.reset.lch 0).active = true ∧ (State.reset.lch 10).active = false := by
  decide
theorem witness_ChannelFieldsWritten : 10 < 11 ∧ 10 ≤ 10 := by decide
theorem witness_GrantRetransmitsOrRefuses : State.reset.mux.msg3.valid = false ∧ sample.mux.msg3.valid = true
    ∧ sample.mux.msg3.len.toNat ≠ 2 ∧ sample.mux.msg3.len.toNat = 1 ∧ sample.params.maxTbBytes < 32768 := by decide
theorem witness_GrantBuildsBlock : BlockInv sample ∧ reserveSuffices sample.params ∧ 1 ≤ sample.params.maxTbBytes
    ∧ 32767 ≤ sample.params.maxTbBytes :=
  ⟨inv_sample, by unfold reserveSuffices; decide, by decide, by decide⟩
theorem witness_GrantAddsControlElements : BlockInv sample ∧ reserveSuffices sample.params
    ∧ 1 ≤ sample.params.maxTbBytes ∧ 32767 ≤ sample.params.maxTbBytes := witness_GrantBuildsBlock
theorem witness_GrantOfOneByte : sample.params.legal = true ∧ 1 ≤ sample.params.hdrReserve :=
  ⟨test_legal_standard, by decide⟩
/-- A state of the invariant whose grant of 2 bytes makes one request. -/
def grantable : State := { granted [10] [⟨1, [0xE1]⟩] with enc := withSdu.enc }
theorem witness_GrantRequestsBounded :
    let o := exec (.ulGrant 2 false false false false false 0 0) grantable
    BlockInv grantable ∧ o = .next (after o)
      ∧ (after o).trace = grantable.trace ++ [.bufferState 1, .readPdu 1 1, .tbOut [0x01, 0xE1]]
      ∧ Obs.readPdu 1 1 ∈ [Obs.bufferState 1, .readPdu 1 1, .tbOut [0x01, 0xE1]] :=
  ⟨⟨test_legal_standard, encOk_withSdu,
      ⟨by decide, by decide, by decide, by intro h; exact absurd h (by decide), by intro h; exact absurd h (by decide),
        by decide⟩,
      ⟨by decide, by decide, by decide⟩, by decide⟩,
    rfl, by decide +kernel, by decide⟩
/-- A limited channel with 5 tokens, 7 bytes pending, and an answer of 5 bytes. -/
def servable (pbr : BitVec 32) : State :=
  { building .ul 20 20 [⟨5, [1, 2, 3, 4, 5]⟩] with
    agents := { pduAnswers := [⟨5, [1, 2, 3, 4, 5]⟩], countAnswers := [7], draws := 0 }
    cfg := resetCfg.set 1 { active := true, prio := 1, pbr := pbr, bsd := 3, lcg := 0 }
    mux := { Mux.reset with tok := Mux.reset.tok.set 1 5 } }
theorem witness_ServePassTakesTokens :
    (servePass .guaranteed 1 (servable 10)).2 = .again ∧ (servable 10).limited 1 = true
      ∧ (servePass .bestEffort 1 (servable pbrInf)).2 = .again ∧ (servable pbrInf).limited 1 = false := by
  decide +kernel
theorem witness_ServeFuelSuffices : withSdu.params.legal = true ∧ EncOk withSdu.params withSdu.enc :=
  ⟨test_legal_standard, encOk_withSdu⟩
theorem witness_DlTbDispatchesRecords :
    let s := receiving [0x00, 0xD0]
    s.params.legal = true ∧ 2 ≤ s.params.maxTbBytes ∧ s.host.din.length = 2
      ∧ parse .dl s.params.maxSubhRx 2 s.host.din = .ok [⟨.sdu, 0, 1, 1⟩] :=
  ⟨test_legal_standard, by decide, rfl, by decide +kernel⟩
theorem witness_DlTbDropsMalformedBlock : (receiving [0x1B]).host.din.length = 1
    ∧ 1 ≤ (receiving [0x1B]).params.maxTbBytes
    ∧ parse .dl (receiving [0x1B]).params.maxSubhRx 1 (receiving [0x1B]).host.din = .error .pLcid := by decide +kernel
theorem witness_OnlyActiveChannelsServed :
    let o := exec (.dlTb 2) (receiving [0x00, 0xD0])
    (receiving [0x00, 0xD0]).params.legal = true ∧ o = .next (after o)
      ∧ (after o).trace = [] ++ [.writePdu 0 [0xD0], .event 0x0100000000000001]
      ∧ Obs.writePdu 0 [0xD0] ∈ [Obs.writePdu 0 [0xD0], .event 0x0100000000000001] :=
  ⟨test_legal_standard, rfl, by decide +kernel, by decide⟩
theorem witness_ResetValues : State.reset = State.reset ∧ powerOnReset sample = powerOnReset sample := ⟨rfl, rfl⟩
/-- REM_SIZE meets the hypothesis of every clause. -/
theorem witness_GroupsChangedOnlyByTheirCommands :
    (∀ l, Instr.remSize ≠ .addBearer l) ∧ (∀ l p r d, Instr.remSize ≠ .setPriority l p r d)
      ∧ (∀ l g, Instr.remSize ≠ .setLcg l g) ∧ Instr.remSize ≠ .resetBearers ∧ (∀ d n, Instr.remSize ≠ .read d n)
      ∧ (∀ n, Instr.remSize ≠ .dlTb n) ∧ Instr.remSize ≠ .softReset ∧ (∀ x, Instr.remSize ≠ .ttiTick x)
      ∧ (∀ n m r ci b p x ph, Instr.remSize ≠ .ulGrant n m r ci b p x ph) ∧ (∀ d n, Instr.remSize ≠ .initTx d n)
      ∧ Instr.remSize ≠ .newSubh ∧ isSetter .remSize = false ∧ Instr.remSize ≠ .write
      ∧ ({ sample with fault := true } : State).fault = true := by simp [isSetter]
theorem witness_StepKeepsInvariant : BlockInv sample ∧ step sample = .next (after (step sample)) := by
  refine ⟨inv_sample, ?_⟩
  have h : goesOn (step sample) = true := by decide +kernel
  revert h; cases step sample <;> simp [goesOn, after]
theorem witness_StepRaisesNoFatalError : BlockInv sample ∧ reserveSuffices sample.params ∧ noFault sample
    ∧ step sample = .next (after (step sample)) :=
  ⟨inv_sample, by unfold reserveSuffices; decide, rfl, witness_StepKeepsInvariant.2⟩
theorem witness_HostReadsWhileValid : BlockInv written ∧ written.enc.mode = .done ∧ written.dec.valid = true
    ∧ 1 < written.dec.nrec.toNat := ⟨inv_written, rfl, rfl, by decide⟩

end Sys2Proof.Tests
end

/-! SUPPORT. The command port (R5, R17, R40, R320): no command writes the parameters or the host's side of the port,
and none takes back an observation. From this, what one step does to the port. -/

namespace Sys2Proof.Machine

open Sys2Proof.Config

/-- What every meaning keeps on the way from `s` to `t`: the parameters (R7), the host's side of the command port
(R5), and everything observed so far (R17). -/
structure KeepsPort (s t : State) : Prop where
  params_eq : t.params = s.params
  host_eq : t.host = s.host
  trace_grows : ∃ new, t.trace = s.trace ++ new

namespace KeepsPort

theorem of_trace_eq {s t : State} (hp : t.params = s.params) (hh : t.host = s.host) (ht : t.trace = s.trace) :
    KeepsPort s t :=
  ⟨hp, hh, [], by rw [ht, List.append_nil]⟩

@[refl] theorem refl (s : State) : KeepsPort s s := of_trace_eq rfl rfl rfl

@[trans] theorem trans {s t u : State} (h : KeepsPort s t) (k : KeepsPort t u) : KeepsPort s u := by
  obtain ⟨new₁, h₁⟩ := h.trace_grows
  obtain ⟨new₂, h₂⟩ := k.trace_grows
  exact ⟨k.params_eq.trans h.params_eq, k.host_eq.trans h.host_eq, new₁ ++ new₂, by rw [h₂, h₁, List.append_assoc]⟩

/-! ### The shared operations -/

theorem emit (o : Obs) (s : State) : KeepsPort s (emit o s) := ⟨rfl, rfl, [o], rfl⟩

theorem emitEvent (e : Event) (s : State) : KeepsPort s (emitEvent e s) := emit _ s

theorem sinkWritePdu (l : Nat) (b : Bytes) (s : State) : KeepsPort s (sinkWritePdu l b s) := emit _ s

theorem srcReadPdu (l q : Nat) (s : State) : KeepsPort s (srcReadPdu l q s).2 := ⟨rfl, rfl, [.readPdu l q], rfl⟩

theorem srcBufferState (l : Nat) (s : State) : KeepsPort s (srcBufferState l s).2 := ⟨rfl, rfl, [.bufferState l], rfl⟩

theorem abortPdu (s : State) : KeepsPort s (abortPdu s) := of_trace_eq rfl rfl rfl

theorem commitTb (out : Bytes) (s : State) : KeepsPort s (commitTb out s) := ⟨rfl, rfl, [.tbOut out], rfl⟩

theorem setLch (s : State) (l : Nat) (c : Lch) : KeepsPort s (s.setLch l c) := of_trace_eq rfl rfl rfl

theorem setTok (s : State) (l : Nat) (v : Int) : KeepsPort s (s.setTok l v) := of_trace_eq rfl rfl rfl

/-- A command whose body keeps the port ends in a next state that keeps it (R320). -/
theorem complete {s : State} {p : State × Ret} (h : KeepsPort s p.1) :
    ∃ t, complete p = .next t ∧ KeepsPort s t :=
  ⟨finish p, complete_eq p, h.trans (of_trace_eq rfl rfl rfl)⟩

/-! ### The PDU builder and WRITE -/

theorem initTxBody (dir : Dir) (n : Nat) (s : State) : KeepsPort s (initTxBody dir n s).1 := by
  unfold Machine.initTxBody
  split <;> exact of_trace_eq rfl rfl rfl

theorem newSubhBody (s : State) : KeepsPort s (newSubhBody s).1 := by
  rcases newSubhBody_cases s with ⟨h, -⟩ | ⟨h, -⟩ | ⟨h, -⟩ | ⟨h, -⟩ <;> rw [h] <;> exact of_trace_eq rfl rfl rfl

theorem ceSetter (t : CeType) (pay : Bytes) (s : State) : KeepsPort s (ceSetter t pay s).1 := by
  rcases ceSetter_cases t pay s with ⟨h, -⟩ | ⟨-, -, -, -, h⟩ <;> rw [h]
  exact of_trace_eq rfl rfl rfl

theorem setSduBody (l q : Nat) (s : State) : KeepsPort s (setSduBody l q s).1 := by
  rcases setSduBody_cases l q s with ⟨h, -⟩ | ⟨-, -, -, -, -, h, -⟩ | ⟨-, -, -, -, -, k, -, -, -, -, h⟩ <;> rw [h]
  · exact srcReadPdu l q s
  · exact (srcReadPdu l q s).trans (of_trace_eq rfl rfl rfl)

theorem queryBody (r : Int) (s : State) : KeepsPort s (queryBody r s).1 := by
  unfold Machine.queryBody
  split <;> rfl

theorem writeBody (s : State) : KeepsPort s (writeBody s).1 := by
  have hdrop : KeepsPort s { s with enc := { s.enc with isOpen := false } } := of_trace_eq rfl rfl rfl
  rcases writeBody_cases s with ⟨-, h⟩ | ⟨-, e, -, h⟩ | ⟨-, -, h⟩ <;> rw [h]
  · rfl
  · exact hdrop.trans (abortPdu _)
  · exact hdrop.trans (commitTb _ _)

/-! ### READ and DL_TB -/

theorem readBody (dir : Dir) (n : Nat) (d : Bytes) (s : State) : KeepsPort s (readBody dir n d s).1 := by
  unfold Machine.readBody
  split
  · rfl
  · split <;> exact of_trace_eq rfl rfl rfl

theorem dispatch (r : DecRec) (s : State) : KeepsPort s (dispatch r s).1 := by
  unfold Machine.dispatch
  split
  · split
    · exact emitEvent _ s
    · split
      · exact emitEvent _ s
      · exact (sinkWritePdu _ _ s).trans (emitEvent _ _)
  · exact emitEvent _ s
  · exact emitEvent _ s
  · exact emitEvent _ s
  -- the uplink control elements and padding are ignored (R302)
  all_goals rfl

theorem dispatchAll : ∀ (rs : List DecRec) (s : State), KeepsPort s (dispatchAll rs s).1
  | [], s => refl s
  | r :: rest, s => (dispatch r s).trans (dispatchAll rest _)

theorem dlTbBody (n : Nat) (d : Bytes) (s : State) : KeepsPort s (dlTbBody n d s).1 := by
  have hread := readBody .dl n d s
  unfold Machine.dlTbBody
  split
  · rfl
  · split
    · exact hread.trans (emitEvent _ _)
    · exact hread.trans (dispatchAll _ _)

/-! ### The channel configuration -/

theorem onChannel {s t : State} (lcid : Nat) (h : KeepsPort s t) : KeepsPort s (onChannel lcid t s).1 := by
  unfold Machine.onChannel
  split
  · rfl
  · exact h

theorem bindChannel (lcid : Nat) (s : State) : KeepsPort s (bindChannel lcid s) := by
  unfold Machine.bindChannel
  split
  · rfl
  · exact (setLch s lcid _).trans (setTok _ lcid 0)

/-! ### The uplink grant -/

theorem consumeTokens (l : Nat) (k : Int) (s : State) : KeepsPort s (consumeTokens l k s) := by
  unfold Machine.consumeTokens
  split
  · exact setTok s l _
  · rfl

/-- Every sub-step of a grant's assembly keeps the port of the state the grant began in (R258, R261-R266). -/
theorem assembly (s : State) : AssemblyKeeps (KeepsPort s) where
  ask l _ _ h := h.trans (srcBufferState l _)
  slot _ h := h.trans (newSubhBody _)
  pull l q _ _ _ _ h := h.trans (setSduBody l q _)
  consume l k _ _ _ h := h.trans (consumeTokens l k _)
  ce t pay _ _ h := h.trans (ceSetter t pay _)

theorem setBsrBody (f : BsrFmt) (g : BitVec 2) (b0 b1 b2 b3 : Nat) (s : State) :
    KeepsPort s (setBsrBody f g b0 b1 b2 b3 s).1 :=
  (assembly s).setBsr f g b0 b1 b2 b3 (refl s)

theorem msg3RetxBody (n : Nat) (s : State) : KeepsPort s (msg3RetxBody n s).1 := by
  unfold Machine.msg3RetxBody
  split
  · rfl
  · split
    · rfl
    · exact ⟨rfl, rfl, _, rfl⟩

theorem storeMsg3 (msg3 : Bool) (n : Nat) (s : State) : KeepsPort s (storeMsg3 msg3 n s) := by
  unfold Machine.storeMsg3
  split <;> exact of_trace_eq rfl rfl rfl

theorem grantFinalise (n : Nat) (msg3 : Bool) (s : State) : KeepsPort s (grantFinalise n msg3 s).1 := by
  unfold Machine.grantFinalise
  split
  · exact writeBody s
  · exact (writeBody s).trans (storeMsg3 msg3 n _)

theorem ulGrantBody (n : Nat) (msg3 retx ci bt pt : Bool) (rnti : BitVec 16) (ph : Int) (s : State) :
    KeepsPort s (ulGrantBody n msg3 retx ci bt pt rnti ph s).1 := by
  unfold Machine.ulGrantBody
  split
  · exact msg3RetxBody n s
  · split
    · exact of_trace_eq rfl rfl rfl
    · exact ((assembly s).grantAssemble (initTxBody .ul n s)).trans (grantFinalise n msg3 _)

end KeepsPort

/-- Every command answers a next state and keeps the port (R5, R7, R17, R320). -/
theorem exec_keepsPort (i : Instr) (s : State) : ∃ t, exec i s = .next t ∧ KeepsPort s t := by
  cases i with
  | initTx dir n => exact KeepsPort.complete (.initTxBody dir n s)
  | newSubh => exact KeepsPort.complete (.newSubhBody s)
  | setSdu lcid req => exact KeepsPort.complete (.setSduBody lcid req s)
  | setBsr fmt lcg b0 b1 b2 b3 => exact KeepsPort.complete (.setBsrBody fmt lcg b0 b1 b2 b3 s)
  | setPhr ph => exact KeepsPort.complete (.ceSetter .phr _ s)
  | setCrnti rnti => exact KeepsPort.complete (.ceSetter .crnti _ s)
  | setConres id => exact KeepsPort.complete (.ceSetter .conres _ s)
  | setTa ta => exact KeepsPort.complete (.ceSetter .ta _ s)
  | hasSpaceSdu nb => exact KeepsPort.complete (.queryBody _ s)
  | hasSpaceCe nb => exact KeepsPort.complete (.queryBody _ s)
  | sduSpace => exact KeepsPort.complete (.queryBody _ s)
  | remSize => exact KeepsPort.complete (.queryBody _ s)
  | write => exact KeepsPort.complete (.writeBody s)
  | read dir n => exact KeepsPort.complete (.readBody dir n s.host.din s)
  | bsrLevel b => exact KeepsPort.complete (.refl s)
  | phrLevel ph => exact KeepsPort.complete (.refl s)
  | addBearer lcid => exact KeepsPort.complete (.onChannel lcid (.bindChannel lcid s))
  | setPriority lcid prio pbr bsd => exact KeepsPort.complete (.onChannel lcid (.setLch s lcid _))
  | setLcg lcid lcg => exact KeepsPort.complete (.onChannel lcid (.setLch s lcid _))
  | resetBearers => exact KeepsPort.complete (.of_trace_eq rfl rfl rfl)
  | ttiTick tti => exact KeepsPort.complete (.of_trace_eq rfl rfl rfl)
  | ulGrant n msg3 retx ci bt pt rnti ph => exact KeepsPort.complete (.ulGrantBody n msg3 retx ci bt pt rnti ph s)
  | dlTb n => exact KeepsPort.complete (.dlTbBody n s.host.din s)
  | softReset => exact KeepsPort.complete (.of_trace_eq rfl rfl rfl)

/-! ### The word and the step -/

theorem execWord_of_decode_ok {w : Word} {i : Instr} (h : decode w = .ok i) (s : State) : execWord w s = exec i s := by
  unfold execWord; rw [h]

theorem execWord_of_decode_error {w : Word} {e : DecodeError} (h : decode w = .error e) (s : State) :
    execWord w s = .next (s.answered .illegal (-1)) := by
  unfold execWord; rw [h]; rfl

/-- Every word answers a next state and keeps the port, with a command assigned to its opcode or not (R83, R320). -/
theorem execWord_keepsPort (w : Word) (s : State) : ∃ t, execWord w s = .next t ∧ KeepsPort s t := by
  cases h : decode w with
  | ok i => rw [execWord_of_decode_ok h]; exact exec_keepsPort i s
  | error e => exact ⟨_, execWord_of_decode_error h s, .of_trace_eq rfl rfl rfl⟩

/-- The state in which the block executes the command `c`: accepted, its data-in list on the port, `rest` still to be
issued (R5, R81). -/
def State.accepting (c : Command) (rest : List Command) (s : State) : State :=
  { s with host := { s.host with cmds := rest, din := c.din } }

theorem fetch_nil {s : State} (h : s.host.cmds = []) : fetch s = none := by
  unfold fetch; rw [h]

theorem fetch_cons {s : State} {c : Command} {rest : List Command} (h : s.host.cmds = c :: rest) :
    fetch s = some (c.word, s.accepting c rest) := by
  unfold fetch; rw [h]; rfl

/-- With the list exhausted no command is run (R17; log entry 7). -/
theorem step_nil {s : State} (h : s.host.cmds = []) : step s = .fault .commandListEnded := by
  unfold step; rw [fetch_nil h]

/-- A step whose word answers `t` ends in `t` with the command retired (R17, R40). -/
theorem step_cons {s t : State} {c : Command} {rest : List Command} (h : s.host.cmds = c :: rest)
    (ht : execWord c.word (s.accepting c rest) = .next t) : step s = .next (retire t) := by
  unfold step; rw [fetch_cons h]; simp only [ht, retireOutcome]

end Sys2Proof.Machine

/-! ### The statements on the command port -/

namespace Sys2Proof.Proofs

open Sys2Proof.Machine

/-- Settles O9: the accepted state differs from `s` at the host port alone, the word keeps the port, and the
retirement writes the rest. -/
theorem stepAdvancesByOne : Obligations.StepAdvancesByOne := by
  intro s hne
  obtain ⟨c, rest, hc⟩ := List.exists_cons_of_ne_nil hne
  obtain ⟨t, ht, hparams, hhost, new, hnew⟩ := execWord_keepsPort c.word (s.accepting c rest)
  refine ⟨retire t, step_cons hc ht, ?_, ?_, rfl, hparams, new, ?_⟩
  · simp [hhost, hc, State.accepting]
  · simp [hhost, State.accepting]
  · simp [hnew, State.accepting]

/-- Settles O7: every command answers a next state, which the step then retires. -/
theorem stepRunsDecodedCommand : Obligations.StepRunsDecodedCommand := by
  intro s c rest i hc hi
  obtain ⟨t, ht, -⟩ := exec_keepsPort i (s.accepting c rest)
  exact ⟨t, ht, step_cons hc ((execWord_of_decode_ok hi _).trans ht)⟩

/-- Settles O8: an unassigned opcode answers `E_ILLEGAL` and is retired like a command; an empty list gives nothing to
fetch. -/
theorem stepWithoutCommand : Obligations.StepWithoutCommand :=
  ⟨fun _ _ _ _ hc he => step_cons hc (execWord_of_decode_error he _), fun _ => step_nil⟩

end Sys2Proof.Proofs

/-! SUPPORT. The groups of the state and the commands that may write each of them (R20, R32, R120, R201, R254, R273,
R323). -/

namespace Sys2Proof.Machine

open Sys2Proof.Config

/-- The groups of the state whose writers the rules name (R20). `block` is the part of `ENC` that the setters leave
alone: `TB_OUT`, `TB_VALID` and `MODE`. `fault` is the sticky `STATUS.FAULT` (R32, R323). -/
inductive StateGroup where
  | cfg
  | dec
  | msg3
  | tok
  | enc
  | block
  | fault

/-- From `s` to `t` the group is not written; `FAULT` may be set but not cleared (R323). -/
@[simp] def StateGroup.kept (s t : State) : StateGroup → Prop
  | .cfg => t.cfg = s.cfg
  | .dec => t.dec = s.dec
  | .msg3 => t.mux.msg3 = s.mux.msg3
  | .tok => t.mux.tok = s.mux.tok
  | .enc => t.enc = s.enc
  | .block => t.enc.tbOut = s.enc.tbOut ∧ t.enc.tbValid = s.enc.tbValid ∧ t.enc.mode = s.enc.mode
  | .fault => s.fault = true → t.fault = true

theorem StateGroup.kept_refl (s : State) (g : StateGroup) : g.kept s s := by
  cases g <;> simp

theorem StateGroup.kept_trans {s t u : State} {g : StateGroup} (h : g.kept s t) (k : g.kept t u) : g.kept s u := by
  cases g with
  | cfg => exact Eq.trans k h
  | dec => exact Eq.trans k h
  | msg3 => exact Eq.trans k h
  | tok => exact Eq.trans k h
  | enc => exact Eq.trans k h
  | block => exact ⟨k.1.trans h.1, k.2.1.trans h.2.1, k.2.2.trans h.2.2⟩
  | fault => exact fun hs => k (h hs)

/-- From `s` to `t` at most the listed groups are written. -/
def Changes (ws : List StateGroup) (s t : State) : Prop := ∀ g, g ∉ ws → g.kept s t

namespace Changes

theorem mono {ws ws' : List StateGroup} {s t : State} (h : Changes ws s t) (hs : ws ⊆ ws') : Changes ws' s t :=
  fun g hg => h g fun hw => hg (hs hw)

theorem refl (ws : List StateGroup) (s : State) : Changes ws s s := fun g _ => g.kept_refl s

theorem trans {ws : List StateGroup} {s t u : State} (h : Changes ws s t) (k : Changes ws t u) : Changes ws s u :=
  fun g hg => StateGroup.kept_trans (h g hg) (k g hg)

/-! ### One lemma per state update -/

theorem emit (o : Obs) (s : State) : Changes [] s (emit o s) := fun g _ => by cases g <;> simp

theorem srcReadPdu (l q : Nat) (s : State) : Changes [] s (srcReadPdu l q s).2 :=
  fun g _ => by cases g <;> simp

theorem srcBufferState (l : Nat) (s : State) : Changes [] s (srcBufferState l s).2 :=
  fun g _ => by cases g <;> simp

theorem finish (p : State × Ret) : Changes [] p.1 (finish p) := fun g _ => by cases g <;> simp

theorem setLch (s : State) (l : Nat) (c : Lch) : Changes [.cfg] s (s.setLch l c) :=
  fun g hg => by cases g <;> simp_all

theorem setTok (s : State) (l : Nat) (v : Int) : Changes [.tok] s (s.setTok l v) :=
  fun g hg => by cases g <;> simp_all

theorem abortPdu (s : State) : Changes [.enc, .block] s (abortPdu s) :=
  fun g hg => by cases g <;> simp_all

theorem withEnc (s : State) (e : Enc) : Changes [.enc, .block] s { s with enc := e } :=
  fun g hg => by cases g <;> simp_all

/-- An update of the encoder that leaves its finished block and its mode (R120). -/
theorem withRecords (s : State) (e : Enc) (ht : e.tbOut = s.enc.tbOut) (hv : e.tbValid = s.enc.tbValid)
    (hm : e.mode = s.enc.mode) : Changes [.enc] s { s with enc := e } :=
  fun g hg => by cases g <;> simp_all

theorem withDec (s : State) (d : Dec) : Changes [.dec] s { s with dec := d } :=
  fun g hg => by cases g <;> simp_all

theorem withMsg3 (s : State) (m : Msg3) : Changes [.msg3] s { s with mux := { s.mux with msg3 := m } } :=
  fun g hg => by cases g <;> simp_all

theorem withTok (s : State) (v : Vector (BitVec 32) 11) : Changes [.tok] s { s with mux := { s.mux with tok := v } } :=
  fun g hg => by cases g <;> simp_all

theorem commitTb (out : Bytes) (s : State) : Changes [.enc, .block] s (commitTb out s) :=
  (withEnc s _).trans ((emit _ _).mono (by simp))

/-- A command writes what its body writes: `RES` and `ERR` belong to no group. -/
theorem complete {ws : List StateGroup} {s : State} {p : State × Ret} (h : Changes ws s p.1) :
    ∃ t, complete p = .next t ∧ Changes ws s t :=
  ⟨_, complete_eq p, h.trans ((finish p).mono (by simp))⟩

/-! ### The PDU builder and WRITE -/

theorem initTxBody (dir : Dir) (n : Nat) (s : State) : Changes [.enc, .block] s (initTxBody dir n s).1 := by
  unfold Machine.initTxBody
  split <;> exact withEnc s _

theorem newSubhBody (s : State) : Changes [.enc] s (newSubhBody s).1 := by
  rcases newSubhBody_cases s with ⟨h, -⟩ | ⟨h, -⟩ | ⟨h, -⟩ | ⟨h, -⟩ <;> rw [h]
  · exact refl _ s
  · exact refl _ s
  · exact refl _ s
  · exact withRecords s _ rfl rfl rfl

theorem ceSetter (t : CeType) (pay : Bytes) (s : State) : Changes [.enc] s (ceSetter t pay s).1 := by
  rcases ceSetter_cases t pay s with ⟨h, -⟩ | ⟨-, -, -, -, h⟩ <;> rw [h]
  · exact refl _ s
  · exact withRecords s _ rfl rfl rfl

theorem setBsrBody (f : BsrFmt) (g : BitVec 2) (b0 b1 b2 b3 : Nat) (s : State) :
    Changes [.enc] s (setBsrBody f g b0 b1 b2 b3 s).1 := by
  rcases setBsrBody_cases f g b0 b1 b2 b3 s with ⟨h, -⟩ | ⟨p, -, -, h⟩ | ⟨p, -, -, h⟩ | ⟨p, -, -, h⟩ <;> rw [h]
  · exact refl _ s
  all_goals exact ceSetter _ p s

theorem setSduBody (l q : Nat) (s : State) : Changes [.enc] s (setSduBody l q s).1 := by
  have hsrc : Changes [.enc] s (Machine.srcReadPdu l q s).2 := (srcReadPdu l q s).mono (by simp)
  rcases setSduBody_cases l q s with ⟨h, -⟩ | ⟨-, -, -, -, -, h, -⟩ | ⟨-, -, -, -, -, k, -, -, -, -, h⟩ <;> rw [h]
  · exact refl _ s
  · exact hsrc
  · exact hsrc.trans (withRecords _ _ rfl rfl rfl)

theorem queryBody (r : Int) (s : State) : Changes [] s (queryBody r s).1 := by
  unfold Machine.queryBody
  split <;> exact refl _ s

theorem writeBody (s : State) : Changes [.enc, .block] s (writeBody s).1 := by
  rcases writeBody_cases s with ⟨-, h⟩ | ⟨-, e, -, h⟩ | ⟨-, -, h⟩ <;> rw [h]
  · exact refl _ s
  · exact (withEnc s _).trans (abortPdu _)
  · exact (withEnc s _).trans (commitTb _ _)

/-! ### READ and DL_TB -/

theorem readBody (dir : Dir) (n : Nat) (d : Bytes) (s : State) : Changes [.dec] s (readBody dir n d s).1 := by
  unfold Machine.readBody
  split
  · exact refl _ s
  · split <;> exact withDec s _

theorem dispatch (r : DecRec) (s : State) : Changes [] s (dispatch r s).1 := by
  unfold Machine.dispatch
  split
  · split
    · exact emit _ s
    · split
      · exact emit _ s
      · exact (emit _ s).trans (emit _ _)
  · exact emit _ s
  · exact emit _ s
  · exact emit _ s
  -- the uplink control elements and padding are ignored (R302)
  all_goals exact refl _ s

theorem dispatchAll : ∀ (rs : List DecRec) (s : State), Changes [] s (dispatchAll rs s).1
  | [], s => refl _ s
  | r :: rest, s => (dispatch r s).trans (dispatchAll rest _)

/-- After its READ, DL_TB writes no group (R300, R301). -/
theorem dlTbBody_after_read (n : Nat) (d : Bytes) (s : State) :
    Changes [] (Machine.readBody .dl n d s).1 (dlTbBody n d s).1 := by
  unfold Machine.dlTbBody
  split
  · rename_i h
    rw [show (Machine.readBody .dl n d s).1 = s by unfold Machine.readBody; rw [if_pos h]; rfl]
    exact refl _ s
  · split
    · exact emit _ _
    · exact dispatchAll _ _

theorem dlTbBody (n : Nat) (d : Bytes) (s : State) : Changes [.dec] s (dlTbBody n d s).1 :=
  (readBody .dl n d s).trans ((dlTbBody_after_read n d s).mono (by simp))

/-! ### The channel configuration -/

theorem onChannel {ws : List StateGroup} {s t : State} (lcid : Nat) (h : Changes ws s t) :
    Changes ws s (onChannel lcid t s).1 := by
  unfold Machine.onChannel
  split
  · exact refl _ s
  · exact h

theorem bindChannel (lcid : Nat) (s : State) : Changes [.cfg, .tok] s (bindChannel lcid s) := by
  unfold Machine.bindChannel
  split
  · exact refl _ s
  · exact ((setLch s lcid _).mono (by simp)).trans ((setTok _ lcid 0).mono (by simp))

theorem resetBearers (s : State) (c : Vector Lch 11) (v : Vector (BitVec 32) 11) :
    Changes [.cfg, .tok] s { s with cfg := c, mux := { s.mux with tok := v } } :=
  fun g hg => by cases g <;> simp_all

/-! ### The uplink grant -/

theorem consumeTokens (l : Nat) (k : Int) (s : State) : Changes [.tok] s (consumeTokens l k s) := by
  unfold Machine.consumeTokens
  split
  · exact setTok s l _
  · exact refl _ s

/-- Every sub-step of a grant's assembly writes the encoder and the tokens alone (R258, R261-R266). -/
theorem assembly (s : State) : AssemblyKeeps (Changes [.enc, .block, .tok] s) where
  ask l _ _ h := h.trans ((srcBufferState l _).mono (by simp))
  slot _ h := h.trans ((newSubhBody _).mono (by simp))
  pull l q _ _ _ _ h := h.trans ((setSduBody l q _).mono (by simp))
  consume l k _ _ _ h := h.trans ((consumeTokens l k _).mono (by simp))
  ce t pay _ _ h := h.trans ((ceSetter t pay _).mono (by simp))

theorem grantAssemble (n : Nat) (ci bt pt : Bool) (rnti : BitVec 16) (ph : Int) (s : State) :
    Changes [.enc, .block, .tok] s (grantAssemble n ci bt pt rnti ph s) :=
  (assembly s).grantAssemble ((initTxBody .ul n s).mono (by simp))

theorem msg3RetxBody (n : Nat) (s : State) : Changes [.enc, .block] s (msg3RetxBody n s).1 := by
  unfold Machine.msg3RetxBody
  split
  · exact refl _ s
  · split
    · exact refl _ s
    · exact (withEnc s _).trans ((emit _ _).mono (by simp))

theorem grantFinalise (n : Nat) (msg3 : Bool) (s : State) :
    Changes [.enc, .block, .msg3] s (grantFinalise n msg3 s).1 := by
  have hwrite : Changes [.enc, .block, .msg3] s (Machine.writeBody s).1 := (writeBody s).mono (by simp)
  unfold Machine.grantFinalise storeMsg3
  split
  · exact hwrite
  · cases msg3
    · exact hwrite
    · exact hwrite.trans ((withMsg3 _ _).mono (by simp))

theorem ulGrantBody_retx (n : Nat) (msg3 ci bt pt : Bool) (rnti : BitVec 16) (ph : Int) (s : State) :
    Changes [.enc, .block] s (ulGrantBody n msg3 true ci bt pt rnti ph s).1 := msg3RetxBody n s

theorem ulGrantBody_new (n : Nat) (msg3 ci bt pt : Bool) (rnti : BitVec 16) (ph : Int) (s : State) :
    Changes [.enc, .block, .tok, .msg3] s (ulGrantBody n msg3 false ci bt pt rnti ph s).1 := by
  unfold Machine.ulGrantBody
  rw [if_neg (by simp)]
  split
  · exact (withEnc s _).mono (by simp)
  · exact ((grantAssemble n ci bt pt rnti ph s).mono (by simp)).trans ((grantFinalise n msg3 _).mono (by simp))

/-! ### SOFT_RESET -/

theorem softResetBody (s : State) :
    Changes [.dec, .msg3, .tok, .enc, .block, .fault] s (softResetBody s).1 :=
  fun g hg => by cases g <;> simp_all [Machine.softResetBody]

end Changes

/-- The groups a command may write: `STATUS` and `DEC_STATUS` follow them, `RES` and `ERR` are written by all (R20,
R120, R201, R254, R273, R351). -/
def writtenGroups : Instr → List StateGroup
  | .initTx _ _ => [.enc, .block]
  | .newSubh => [.enc]
  | .setSdu _ _ => [.enc]
  | .setBsr _ _ _ _ _ _ => [.enc]
  | .setPhr _ => [.enc]
  | .setCrnti _ => [.enc]
  | .setConres _ => [.enc]
  | .setTa _ => [.enc]
  | .hasSpaceSdu _ => []
  | .hasSpaceCe _ => []
  | .sduSpace => []
  | .remSize => []
  | .write => [.enc, .block]
  | .read _ _ => [.dec]
  | .bsrLevel _ => []
  | .phrLevel _ => []
  | .addBearer _ => [.cfg, .tok]
  | .setPriority _ _ _ _ => [.cfg]
  | .setLcg _ _ => [.cfg]
  | .resetBearers => [.cfg, .tok]
  | .ttiTick _ => [.tok]
  | .ulGrant _ _ true _ _ _ _ _ => [.enc, .block]
  | .ulGrant _ _ false _ _ _ _ _ => [.enc, .block, .tok, .msg3]
  | .dlTb _ => [.dec]
  | .softReset => [.dec, .msg3, .tok, .enc, .block, .fault]

/-- Every command answers a next state and writes its groups alone (R20, R320). -/
theorem exec_changes (i : Instr) (s : State) : ∃ t, exec i s = .next t ∧ Changes (writtenGroups i) s t := by
  cases i with
  | initTx dir n => exact Changes.complete (.initTxBody dir n s)
  | newSubh => exact Changes.complete (.newSubhBody s)
  | setSdu lcid req => exact Changes.complete (.setSduBody lcid req s)
  | setBsr fmt lcg b0 b1 b2 b3 => exact Changes.complete (.setBsrBody fmt lcg b0 b1 b2 b3 s)
  | setPhr ph => exact Changes.complete (.ceSetter .phr _ s)
  | setCrnti rnti => exact Changes.complete (.ceSetter .crnti _ s)
  | setConres id => exact Changes.complete (.ceSetter .conres _ s)
  | setTa ta => exact Changes.complete (.ceSetter .ta _ s)
  | hasSpaceSdu nb => exact Changes.complete (.queryBody _ s)
  | hasSpaceCe nb => exact Changes.complete (.queryBody _ s)
  | sduSpace => exact Changes.complete (.queryBody _ s)
  | remSize => exact Changes.complete (.queryBody _ s)
  | write => exact Changes.complete (.writeBody s)
  | read dir n => exact Changes.complete (.readBody dir n s.host.din s)
  | bsrLevel b => exact Changes.complete (.refl _ s)
  | phrLevel ph => exact Changes.complete (.refl _ s)
  | addBearer lcid => exact Changes.complete (.onChannel lcid (.bindChannel lcid s))
  | setPriority lcid prio pbr bsd => exact Changes.complete (.onChannel lcid (.setLch s lcid _))
  | setLcg lcid lcg => exact Changes.complete (.onChannel lcid (.setLch s lcid _))
  | resetBearers => exact Changes.complete (.resetBearers s _ _)
  | ttiTick tti => exact Changes.complete (.withTok s _)
  | ulGrant n msg3 retx ci bt pt rnti ph =>
    cases retx with
    | true => exact Changes.complete (.ulGrantBody_retx n msg3 ci bt pt rnti ph s)
    | false => exact Changes.complete (.ulGrantBody_new n msg3 ci bt pt rnti ph s)
  | dlTb n => exact Changes.complete (.dlTbBody n s.host.din s)
  | softReset => exact Changes.complete (.softResetBody s)

/-! ### The writers of each group -/

theorem writer_of_cfg {i : Instr} (h : .cfg ∈ writtenGroups i) :
    (∃ l, i = .addBearer l) ∨ (∃ l p r d, i = .setPriority l p r d) ∨ (∃ l g, i = .setLcg l g) ∨
      i = .resetBearers := by
  unfold writtenGroups at h
  split at h <;> simp_all

theorem writer_of_dec {i : Instr} (h : .dec ∈ writtenGroups i) :
    (∃ d n, i = .read d n) ∨ (∃ n, i = .dlTb n) ∨ i = .softReset := by
  unfold writtenGroups at h
  split at h <;> simp_all

theorem writer_of_msg3 {i : Instr} (h : .msg3 ∈ writtenGroups i) :
    (∃ n m ci b p x ph, i = .ulGrant n m false ci b p x ph) ∨ i = .softReset := by
  unfold writtenGroups at h
  split at h <;> simp_all

theorem writer_of_tok {i : Instr} (h : .tok ∈ writtenGroups i) :
    (∃ l, i = .addBearer l) ∨ i = .resetBearers ∨ (∃ x, i = .ttiTick x) ∨
      (∃ n m ci b p x ph, i = .ulGrant n m false ci b p x ph) ∨ i = .softReset := by
  unfold writtenGroups at h
  split at h <;> simp_all

theorem writer_of_enc {i : Instr} (h : .enc ∈ writtenGroups i) :
    (∃ d n, i = .initTx d n) ∨ i = .newSubh ∨ isSetter i = true ∨ i = .write ∨
      (∃ n m r ci b p x ph, i = .ulGrant n m r ci b p x ph) ∨ i = .softReset := by
  unfold writtenGroups at h
  split at h <;> simp_all [isSetter]

theorem writer_of_block {i : Instr} (h : .block ∈ writtenGroups i) :
    (∃ d n, i = .initTx d n) ∨ i = .write ∨ (∃ n m r ci b p x ph, i = .ulGrant n m r ci b p x ph) ∨
      i = .softReset := by
  unfold writtenGroups at h
  split at h <;> simp_all

theorem writer_of_fault {i : Instr} (h : .fault ∈ writtenGroups i) : i = .softReset := by
  unfold writtenGroups at h
  split at h <;> simp_all

end Sys2Proof.Machine

namespace Sys2Proof.Proofs

open Sys2Proof.Machine

/-- Settles O56: a command that is none of a group's writers does not write it. -/
theorem groupsChangedOnlyByTheirCommands : Obligations.GroupsChangedOnlyByTheirCommands := by
  intro i s
  obtain ⟨t, ht, hparams, hhost, htrace⟩ := exec_keepsPort i s
  obtain ⟨t', ht', hch⟩ := exec_changes i s
  obtain rfl : t' = t := by rw [ht'] at ht; exact Host.Outcome.next.inj ht
  refine ⟨t', ht', hparams, hhost, htrace, ?_, ?_, ?_, ?_, ?_, ?_, ?_⟩
  · exact fun h1 h2 h3 h4 => hch .cfg (mt writer_of_cfg (by simp [h1, h2, h3, h4]))
  · exact fun h1 h2 h3 => hch .dec (mt writer_of_dec (by simp [h1, h2, h3]))
  · exact fun h1 h2 => hch .msg3 (mt writer_of_msg3 (by simp [h1, h2]))
  · exact fun h1 h2 h3 h4 h5 => hch .tok (mt writer_of_tok (by simp [h1, h2, h3, h4, h5]))
  · exact fun h1 h2 h3 h4 h5 h6 => hch .enc (mt writer_of_enc (by simp [h1, h2, h3, h4, h5, h6]))
  · exact fun h1 h2 h3 h4 => hch .block (mt writer_of_block (by simp [h1, h2, h3, h4]))
  · exact fun h => hch .fault (mt writer_of_fault h)

end Sys2Proof.Proofs

/-! SUPPORT. The invariant of each state group under the commands that write it (R21-R29, R33, R35, R37, R38, R63,
R137). -/

namespace Sys2Proof.Machine

open Sys2Proof.Config

/-! ### The state after a reset -/

/-- The free contents of a reset are within the capacity of their buffers (R39, R63). -/
theorem drawContents_fits (p : Params) (draw : Nat) :
    let c := Params.drawContents p draw
    c.tbOut.length ≤ p.maxTbBytes ∧ c.decData.length ≤ p.maxTbBytes ∧ c.msg3Bytes.length ≤ p.maxTbBytes := by
  simp [Params.drawContents]

/-- The encoder after a reset has its invariant, whatever fits `TB_OUT` (R39). -/
theorem encOk_resetWith {p : Params} {c : Contents} (h : c.tbOut.length ≤ p.maxTbBytes) :
    EncOk p (Enc.resetWith c) :=
  encOk_empty rfl rfl rfl rfl (fun hm => absurd rfl hm) (Nat.le_refl _) (by simp [Enc.resetWith, Enc.reset])
    (by simp [Enc.resetWith, Enc.reset]) (fun _ => rfl) h

/-- A decoder without a valid PDU has its invariant, whatever fits its data (R33, R63). -/
theorem decOk_invalid {p : Params} {d : Dec} (hv : d.valid = false) (h : d.data.length ≤ p.maxTbBytes) : DecOk p d := by
  constructor <;> simp [hv, h]

/-- A Msg3 buffer without a copy has its invariant, whatever fits its bytes (R37, R63). -/
theorem msg3Ok_invalid {p : Params} {m : Msg3} (hv : m.valid = false) (h : m.bytes.length ≤ p.maxTbBytes) :
    Msg3Ok p m := by
  constructor <;> simp [hv, h]

/-! ### The encoder -/

/-- The encoder's invariant under the parameters of the state, which are legal: what the sub-steps of a grant keep. -/
structure EncInv (s : State) : Prop where
  params_legal : s.params.legal = true
  enc_ok : EncOk s.params s.enc

/-- A block size in range is the value its 16-bit register holds (R7, R23). -/
theorem toNat_size {p : Params} (hp : p.legal = true) {n : Nat} (hn : n ≤ p.maxTbBytes) :
    (BitVec.ofNat 16 n).toNat = n := by
  have := legal_bounds hp
  rw [BitVec.toNat_ofNat]; omega

/-- The block WRITE assembles has the bytes of its pieces (R175). -/
theorem assembleTb_length (hdr cep sdu : Bytes) (padn : Nat) :
    (assembleTb hdr cep sdu padn).length = hdr.length + cep.length + sdu.length + padn := by
  simp [assembleTb]; omega

namespace EncInv

variable {s : State}

theorem srcBufferState (h : EncInv s) (l : Nat) : EncInv (srcBufferState l s).2 := ⟨h.params_legal, h.enc_ok⟩

theorem consumeTokens (h : EncInv s) (l : Nat) (k : Int) : EncInv (consumeTokens l k s) := by
  unfold Machine.consumeTokens
  split <;> exact ⟨h.params_legal, h.enc_ok⟩

theorem toIdle (h : EncInv s) : EncInv { s with enc := s.enc.toIdle } := ⟨h.params_legal, encOk_toIdle h.enc_ok⟩

theorem initTxBody (h : EncInv s) (dir : Dir) (n : Nat) : EncInv (initTxBody dir n s).1 := by
  unfold Machine.initTxBody
  split
  · exact h.toIdle
  · have hn := toNat_size h.params_legal (n := n) (by omega)
    refine ⟨h.params_legal, encOk_empty rfl rfl rfl rfl (fun _ => ?_) (Nat.le_refl _) (by simp) (by simp)
      (fun _ => rfl) h.enc_ok.tb_out_fits⟩
    simp only [ok_fst, start_n, hn]; omega

theorem newSubhBody (h : EncInv s) : EncInv (newSubhBody s).1 := by
  rcases newSubhBody_cases s with ⟨h1, -⟩ | ⟨h1, -⟩ | ⟨h1, -⟩ | ⟨h1, -, -, hfull⟩ <;> rw [h1]
  · exact h
  · exact h
  · exact h
  · have hle := h.enc_ok.nsub_le
    exact ⟨h.params_legal, encOk_setOpen h.enc_ok fun _ => by omega⟩

theorem ceSetter (h : EncInv s) {t : CeType} {pay : Bytes} (hpay : pay.length = ceSize t) :
    EncInv (ceSetter t pay s).1 := by
  rcases ceSetter_cases t pay s with ⟨h1, -⟩ | ⟨hm, ho, ha, hfits, h1⟩ <;> rw [h1]
  · exact h
  · obtain ⟨-, hsubh, -⟩ := legal_bounds h.params_legal
    exact ⟨h.params_legal, encOk_commitCe hsubh h.enc_ok hm ho ha hpay hfits⟩

theorem setBsrBody (h : EncInv s) (f : BsrFmt) (g : BitVec 2) (b0 b1 b2 b3 : Nat) :
    EncInv (setBsrBody f g b0 b1 b2 b3 s).1 := by
  rcases setBsrBody_cases f g b0 b1 b2 b3 s with ⟨h1, -⟩ | ⟨p, hp, -, h1⟩ | ⟨p, hp, -, h1⟩ | ⟨p, hp, -, h1⟩ <;> rw [h1]
  · exact h
  all_goals exact h.ceSetter hp

theorem setSduBody (h : EncInv s) (l q : Nat) : EncInv (setSduBody l q s).1 := by
  rcases setSduBody_cases l q s with
    ⟨h1, -⟩ | ⟨-, -, -, -, -, h1, -⟩ | ⟨hm, ho, hl, -, hq, k, hk, hkq, hlen, -, h1⟩ <;> rw [h1]
  · exact h
  · exact ⟨h.params_legal, h.enc_ok⟩
  · obtain ⟨-, hsubh, -, htb, -⟩ := legal_bounds h.params_legal
    exact ⟨h.params_legal, encOk_commitSdu hsubh htb h.enc_ok hm ho hl hk (by omega) hlen⟩

theorem writeBody (h : EncInv s) : EncInv (writeBody s).1 := by
  have hdrop : EncOk s.params { s.enc with isOpen := false } := encOk_setOpen h.enc_ok (by simp)
  rcases writeBody_cases s with ⟨-, h1⟩ | ⟨-, e, -, h1⟩ | ⟨hm, hsize, h1⟩ <;> rw [h1]
  · exact h
  · exact ⟨h.params_legal, encOk_toIdle hdrop⟩
  · exact ⟨h.params_legal, encOk_commitTb h.enc_ok hm (by rw [assembleTb_length]; exact hsize)⟩

/-- Every sub-step of a grant's assembly keeps the encoder's invariant (R258, R261-R266). -/
theorem assembly : AssemblyKeeps EncInv where
  ask l _ _ h := h.srcBufferState l
  slot _ h := h.newSubhBody
  pull l q _ _ _ _ h := h.setSduBody l q
  consume l k _ _ _ h := h.consumeTokens l k
  ce _ _ _ hpay h := h.ceSetter hpay

theorem msg3RetxBody (h : EncInv s) (hm : Msg3Ok s.params s.mux.msg3) (n : Nat) : EncInv (msg3RetxBody n s).1 := by
  unfold Machine.msg3RetxBody
  split
  · exact h
  rename_i hv
  split
  · exact h
  rename_i hn
  have hv : s.mux.msg3.valid = true := by simpa using hv
  have hlen := hm.length_ok hv
  have hrange := hm.size_in_range hv
  have hn : s.mux.msg3.len.toNat = n := not_not.1 hn
  have h16 := toNat_size h.params_legal (n := n) (by omega)
  refine ⟨h.params_legal, encOk_empty rfl rfl rfl rfl (fun _ => ?_) (Nat.zero_le _) (by simp) (fun _ => ?_) (by simp)
    hm.bytes_fit⟩
  · simp only [ok_fst, emit_enc, emit_params, start_n, h16]; omega
  · simp only [ok_fst, emit_enc, start_n, h16]; omega

theorem grantFinalise (h : EncInv s) (n : Nat) (msg3 : Bool) : EncInv (grantFinalise n msg3 s).1 := by
  unfold Machine.grantFinalise storeMsg3
  split
  · exact h.writeBody
  · cases msg3
    · exact h.writeBody
    · exact ⟨h.writeBody.params_legal, h.writeBody.enc_ok⟩

theorem ulGrantBody (h : EncInv s) (hm : Msg3Ok s.params s.mux.msg3) (n : Nat) (msg3 retx ci bt pt : Bool)
    (rnti : BitVec 16) (ph : Int) : EncInv (ulGrantBody n msg3 retx ci bt pt rnti ph s).1 := by
  unfold Machine.ulGrantBody
  split
  · exact h.msg3RetxBody hm n
  · split
    · exact h.toIdle
    · exact (assembly.grantAssemble (h.initTxBody .ul n)).grantFinalise n msg3

theorem softResetBody (h : EncInv s) : EncInv (softResetBody s).1 :=
  ⟨h.params_legal, encOk_resetWith (drawContents_fits _ _).1⟩

end EncInv

/-- A setter is SET_SDU, SET_BSR, or a control-element setter with a payload of its type's size (R126-R132). -/
theorem setter_cases {i : Instr} (h : isSetter i = true) :
    (∃ l q, i = .setSdu l q) ∨ (∃ f g b0 b1 b2 b3, i = .setBsr f g b0 b1 b2 b3) ∨
    (∃ t pay, pay.length = ceSize t ∧ ∀ s, exec i s = complete (ceSetter t pay s)) := by
  cases i with
  | setSdu l q => exact .inl ⟨l, q, rfl⟩
  | setBsr f g b0 b1 b2 b3 => exact .inr (.inl ⟨f, g, b0, b1, b2, b3, rfl⟩)
  | setPhr ph => exact .inr (.inr ⟨.phr, _, rfl, fun _ => rfl⟩)
  | setCrnti rnti => exact .inr (.inr ⟨.crnti, _, rfl, fun _ => rfl⟩)
  | setConres id => exact .inr (.inr ⟨.conres, _, rfl, fun _ => rfl⟩)
  | setTa ta => exact .inr (.inr ⟨.ta, _, rfl, fun _ => rfl⟩)
  | _ => simp [isSetter] at h

/-- A command's next state is the end of its body. -/
theorem complete_inj {p : State × Ret} {t : State} (h : complete p = .next t) : finish p = t :=
  Host.Outcome.next.inj h

/-- Every command keeps the encoder's invariant (R21-R29, R38, R137). -/
theorem exec_encOk {i : Instr} {s t : State} (h : BlockInv s) (ht : exec i s = .next t)
    (hch : Changes (writtenGroups i) s t) (hp : t.params = s.params) : EncOk s.params t.enc := by
  have hs : EncInv s := ⟨h.params_legal, h.enc_ok⟩
  have hend : ∀ p : State × Ret, exec i s = complete p → EncInv p.1 → EncOk s.params t.enc := by
    intro p hexec hinv
    obtain rfl := complete_inj (hexec.symm.trans ht)
    exact hp ▸ hinv.enc_ok
  by_cases hw : .enc ∈ writtenGroups i
  · rcases writer_of_enc hw with ⟨d, n, rfl⟩ | rfl | hset | rfl | ⟨n, m, r, ci, b, p, x, ph, rfl⟩ | rfl
    · exact hend _ rfl (hs.initTxBody d n)
    · exact hend _ rfl hs.newSubhBody
    · rcases setter_cases hset with ⟨l, q, rfl⟩ | ⟨f, g, b0, b1, b2, b3, rfl⟩ | ⟨c, pay, hpay, hexec⟩
      · exact hend _ rfl (hs.setSduBody l q)
      · exact hend _ rfl (hs.setBsrBody f g b0 b1 b2 b3)
      · exact hend _ (hexec s) (hs.ceSetter hpay)
    · exact hend _ rfl hs.writeBody
    · exact hend _ rfl (hs.ulGrantBody h.msg3_ok n m r ci b p x ph)
    · exact hend _ rfl hs.softResetBody
  · rw [show t.enc = s.enc from hch .enc hw]; exact h.enc_ok

/-! ### The decoder -/

/-- READ keeps the decoder's invariant (R33, R204, R205). -/
theorem decOk_readBody {s : State} (hp : s.params.legal = true) (h : DecOk s.params s.dec) (dir : Dir) (n : Nat)
    (d : Bytes) : DecOk s.params (readBody dir n d s).1.dec := by
  obtain ⟨-, -, -, htb, -, hrx⟩ := legal_bounds hp
  unfold readBody
  split
  · exact h
  rename_i hd
  obtain ⟨rfl, hfit⟩ := refusesDin_false.1 (Bool.eq_false_iff.2 hd)
  rcases parse_cases dir s.params.maxSubhRx d (by omega) with
    ⟨e, -, hparse⟩ | ⟨recs, hparse, h1, h2, ⟨hend, -, -, hcover⟩, hwf⟩ <;> rw [hparse]
  · exact decOk_invalid rfl hfit
  · have h16 := toNat_size hp hfit
    have h6 : (BitVec.ofNat 6 recs.length).toNat = recs.length := by rw [BitVec.toNat_ofNat]; omega
    exact ⟨fun _ => h16, fun _ => h6, fun _ => ⟨h1, h2⟩, fun _ => ⟨hend, h16.symm ▸ hcover⟩, fun _ => hwf, hfit⟩

/-- Every command keeps the decoder's invariant (R33, R204). -/
theorem exec_decOk {i : Instr} {s t : State} (h : BlockInv s) (ht : exec i s = .next t)
    (hch : Changes (writtenGroups i) s t) : DecOk s.params t.dec := by
  have hread := decOk_readBody h.params_legal h.dec_ok
  by_cases hw : .dec ∈ writtenGroups i
  · rcases writer_of_dec hw with ⟨dir, n, rfl⟩ | ⟨n, rfl⟩ | rfl
    · obtain rfl := complete_inj (p := readBody dir n s.host.din s) ht
      exact hread dir n s.host.din
    · obtain rfl := complete_inj (p := dlTbBody n s.host.din s) ht
      have hdec : (dlTbBody n s.host.din s).1.dec = (readBody .dl n s.host.din s).1.dec :=
        Changes.dlTbBody_after_read n s.host.din s .dec (by simp)
      exact hdec ▸ hread .dl n s.host.din
    · obtain rfl := complete_inj (p := softResetBody s) ht
      exact decOk_invalid rfl (drawContents_fits _ _).2.1
  · rw [show t.dec = s.dec from hch .dec hw]; exact h.dec_ok

/-! ### The Msg3 buffer -/

/-- Every sub-step of a grant's assembly keeps the size of the block (R258, R261-R266). -/
theorem assembly_keeps_size (n : BitVec 16) : AssemblyKeeps (fun s => s.enc.n = n) where
  ask _ _ _ h := h
  slot s h := by
    rcases newSubhBody_cases s with ⟨h1, -⟩ | ⟨h1, -⟩ | ⟨h1, -⟩ | ⟨h1, -⟩ <;> rw [h1] <;> exact h
  pull l q s _ _ _ h := by
    rcases setSduBody_cases l q s with
      ⟨h1, -⟩ | ⟨-, -, -, -, -, h1, -⟩ | ⟨-, -, -, -, -, k, -, -, -, -, h1⟩ <;> rw [h1] <;> exact h
  consume l k s _ _ h := by unfold consumeTokens; split <;> exact h
  ce t pay s _ h := by
    rcases ceSetter_cases t pay s with ⟨h1, -⟩ | ⟨-, -, -, -, h1⟩ <;> rw [h1] <;> exact h

/-- The PDU a grant assembles has the granted size (R258, R260). -/
theorem grantAssemble_size {n : Nat} {s : State} (hn : ¬ (n < 1 ∨ n > s.params.maxTbBytes)) (ci bt pt : Bool)
    (rnti : BitVec 16) (ph : Int) : (grantAssemble n ci bt pt rnti ph s).enc.n = BitVec.ofNat 16 n :=
  (assembly_keeps_size _).grantAssemble (by unfold initTxBody; rw [if_neg hn]; rfl)

/-- A WRITE that succeeds leaves a block of the PDU's size (R176, R178). -/
theorem writeBody_tbOut_length {s : State} (h : (writeBody s).2.err = .ok) :
    (writeBody s).1.enc.tbOut.length = s.enc.n.toNat := by
  rcases writeBody_cases s with ⟨-, h1⟩ | ⟨-, e, he, h1⟩ | ⟨-, hsize, h1⟩ <;> rw [h1] at h ⊢
  · simp at h
  · rcases he with rfl | rfl <;> simp at h
  · exact (assembleTb_length _ _ _ _).trans hsize

/-- `Finalise()` keeps the Msg3 buffer's invariant: a copy it stores is the block WRITE has produced (R267, R273). -/
theorem msg3Ok_grantFinalise {p : Params} {s : State} {n : Nat} (hp : p.legal = true) (h : Msg3Ok p s.mux.msg3)
    (h1 : 1 ≤ n) (hn : n ≤ p.maxTbBytes) (hsize : s.enc.n = BitVec.ofNat 16 n) (msg3 : Bool) :
    Msg3Ok p (grantFinalise n msg3 s).1.mux.msg3 := by
  have h16 := toNat_size hp hn
  have hkept : (writeBody s).1.mux.msg3 = s.mux.msg3 := Changes.writeBody s .msg3 (by simp)
  unfold grantFinalise storeMsg3
  split
  · exact hkept ▸ h
  rename_i herr
  have hlen := writeBody_tbOut_length (not_not.1 herr)
  rw [hsize] at hlen
  cases msg3 with
  | false => exact hkept ▸ h
  | true => exact ⟨fun _ => hlen, fun _ => by simp only [ok_fst, if_true, h16]; omega, by
      rw [h16] at hlen; exact hlen ▸ hn⟩

/-- Every command keeps the Msg3 buffer's invariant (R37). -/
theorem exec_msg3Ok {i : Instr} {s t : State} (h : BlockInv s) (ht : exec i s = .next t)
    (hch : Changes (writtenGroups i) s t) : Msg3Ok s.params t.mux.msg3 := by
  by_cases hw : .msg3 ∈ writtenGroups i
  · rcases writer_of_msg3 hw with ⟨n, m, ci, b, p, x, ph, rfl⟩ | rfl
    · obtain rfl := complete_inj (p := ulGrantBody n m false ci b p x ph s) ht
      rw [finish_mux]
      unfold ulGrantBody
      rw [if_neg (by simp)]
      split
      · exact h.msg3_ok
      rename_i hn
      have hkept : (grantAssemble n ci b p x ph s).mux.msg3 = s.mux.msg3 :=
        Changes.grantAssemble n ci b p x ph s .msg3 (by simp)
      exact msg3Ok_grantFinalise h.params_legal (hkept ▸ h.msg3_ok) (by omega) (by omega)
        (grantAssemble_size hn ci b p x ph) m
    · obtain rfl := complete_inj (p := softResetBody s) ht
      exact msg3Ok_invalid rfl (drawContents_fits _ _).2.2
  · rw [show t.mux.msg3 = s.mux.msg3 from hch .msg3 hw]; exact h.msg3_ok

/-! ### The channel table -/

/-- Writing a channel with an entry as active as its own keeps LCID 0 active (R35). -/
theorem ccch_setLch {s : State} {l : Nat} {c : Lch} (hl : l ≤ lcidSduMax) (h : (s.lch 0).active = true)
    (hc : (s.lch l).active = true → c.active = true) : ((s.setLch l c).lch 0).active = true := by
  by_cases hl0 : l = 0
  · subst hl0; rw [lch_setLch_self hl]; exact hc h
  · rw [lch_setLch_ne (Ne.symm hl0)]; exact h

/-- A configuration command on a channel keeps LCID 0 active where its writes do (R251-R253). -/
theorem ccch_onChannel {s t : State} {l : Nat} (h : (s.lch 0).active = true)
    (ht : l ≤ lcidSduMax → (t.lch 0).active = true) : ((onChannel l t s).1.lch 0).active = true := by
  unfold onChannel
  split
  · exact h
  · exact ht (by omega)

theorem ccch_bindChannel {s : State} {l : Nat} (h : (s.lch 0).active = true) (hl : l ≤ lcidSduMax) :
    ((bindChannel l s).lch 0).active = true := by
  unfold bindChannel
  split
  · exact h
  · exact ccch_setLch hl h fun _ => rfl

/-- Every command keeps LCID 0 active (R35, R254). -/
theorem exec_ccch_active {i : Instr} {s t : State} (h : BlockInv s) (ht : exec i s = .next t)
    (hch : Changes (writtenGroups i) s t) : (t.lch 0).active = true := by
  have h0 := h.ccch_active
  by_cases hw : .cfg ∈ writtenGroups i
  · rcases writer_of_cfg hw with ⟨l, rfl⟩ | ⟨l, p, r, d, rfl⟩ | ⟨l, g, rfl⟩ | rfl
    · obtain rfl := complete_inj (p := onChannel l (bindChannel l s) s) ht
      exact ccch_onChannel h0 (ccch_bindChannel h0)
    · obtain rfl := complete_inj (p := onChannel l (s.setLch l { s.lch l with prio := p, pbr := r, bsd := d }) s) ht
      exact ccch_onChannel h0 fun hl => ccch_setLch hl h0 id
    · obtain rfl := complete_inj (p := onChannel l (s.setLch l { s.lch l with lcg := g }) s) ht
      exact ccch_onChannel h0 fun hl => ccch_setLch hl h0 id
    · obtain rfl := Host.Outcome.next.inj ht
      rfl
  · unfold State.lch at h0 ⊢
    rw [show t.cfg = s.cfg from hch .cfg hw]; exact h0

/-! ### The block -/

/-- The invariant of the block depends on the parameters and the state groups alone. -/
theorem BlockInv.of_eq {s t : State} (h : BlockInv s) (hp : t.params = s.params) (he : t.enc = s.enc)
    (hd : t.dec = s.dec) (hm : t.mux = s.mux) (hc : t.cfg = s.cfg) : BlockInv t := by
  refine ⟨hp ▸ h.params_legal, ?_, ?_, ?_, ?_⟩
  · rw [hp, he]; exact h.enc_ok
  · rw [hp, hd]; exact h.dec_ok
  · rw [hp, hm]; exact h.msg3_ok
  · simpa only [State.lch, hc] using h.ccch_active

/-- Every command keeps the invariant of the block. -/
theorem exec_blockInv {i : Instr} {s t : State} (h : BlockInv s) (ht : exec i s = .next t) : BlockInv t := by
  obtain ⟨t1, ht1, hport⟩ := exec_keepsPort i s
  obtain ⟨t2, ht2, hch⟩ := exec_changes i s
  obtain rfl := Host.Outcome.next.inj (ht1.symm.trans ht)
  obtain rfl := Host.Outcome.next.inj (ht2.symm.trans ht)
  have hp := hport.params_eq
  exact ⟨hp ▸ h.params_legal, hp ▸ exec_encOk h ht hch hp, hp ▸ exec_decOk h ht hch, hp ▸ exec_msg3Ok h ht hch,
    exec_ccch_active h ht hch⟩

/-- Every word keeps the invariant of the block, with a command assigned to its opcode or not (R83). -/
theorem execWord_blockInv {w : Word} {s t : State} (h : BlockInv s) (ht : execWord w s = .next t) : BlockInv t := by
  cases hw : decode w with
  | ok i => exact exec_blockInv h ((execWord_of_decode_ok hw s).symm.trans ht)
  | error e =>
    obtain rfl := Host.Outcome.next.inj ((execWord_of_decode_error hw s).symm.trans ht)
    exact h.of_eq rfl rfl rfl rfl rfl

end Sys2Proof.Machine

namespace Sys2Proof.Proofs

open Sys2Proof.Machine

/-- Settles O58: the step accepts a command, which keeps the invariant of each state group, and retires it. -/
theorem stepKeepsInvariant : Obligations.StepKeepsInvariant := by
  intro s t h hstep
  cases hc : s.host.cmds with
  | nil => rw [step_nil hc] at hstep; cases hstep
  | cons c rest =>
    obtain ⟨u, hu, -⟩ := execWord_keepsPort c.word (s.accepting c rest)
    rw [step_cons hc hu] at hstep
    obtain rfl := Host.Outcome.next.inj hstep
    have haccepting : BlockInv (s.accepting c rest) := h.of_eq rfl rfl rfl rfl rfl
    exact (execWord_blockInv haccepting hu).of_eq rfl rfl rfl rfl rfl

end Sys2Proof.Proofs

/-! SUPPORT. The registers the host reads, as numbers, and the reset values (R9, R31-R34, R39, R321, R350). -/

namespace Sys2Proof.Machine

open Sys2Proof.Config

/-! ### The registers -/

/-- A register of two fields holds the upper one shifted by the width of the lower (R9). -/
theorem toNat_append_eq {m n : Nat} (x : BitVec m) (y : BitVec n) :
    (x ++ y).toNat = x.toNat * 2 ^ n + y.toNat := by
  rw [BitVec.toNat_append, ← Nat.shiftLeft_add_eq_or_of_lt y.isLt, Nat.shiftLeft_eq]

theorem dirBit_toNat (d : Dir) : (dirBit d).toNat = if d = .dl then 1 else 0 := by
  cases d <;> rfl

theorem isSome_toNat (o : Option (BitVec 5)) : (BitVec.ofBool o.isSome).toNat = if o = none then 0 else 1 := by
  cases o <;> rfl

/-- `STATUS` as the sum of its fields at their positions (R32). -/
theorem status_toNat (s : State) : s.status.toNat =
    s.enc.mode.code.toNat + (dirBit s.enc.dir).toNat * 2 ^ 2 + (BitVec.ofBool s.enc.isOpen).toNat * 2 ^ 3
      + (BitVec.ofBool s.enc.lastSdu.isSome).toNat * 2 ^ 4 + s.enc.nsub.toNat * 2 ^ 5
      + (BitVec.ofBool s.enc.tbValid).toNat * 2 ^ 10 + (BitVec.ofBool s.dec.valid).toNat * 2 ^ 11
      + (BitVec.ofBool s.mux.msg3.valid).toNat * 2 ^ 12 + (BitVec.ofBool s.fault).toNat * 2 ^ 13
      + s.enc.rem.toNat * 2 ^ 16 := by
  simp only [State.status, toNat_append_eq, BitVec.ofNat_eq_ofNat, BitVec.toNat_ofNat]
  omega

/-- `DEC_STATUS` as the sum of its fields at their positions (R34). -/
theorem decStatus_toNat (s : State) : s.decStatus.toNat =
    (BitVec.ofBool s.dec.valid).toNat + (dirBit s.dec.dir).toNat * 2 + s.dec.nrec.toNat * 2 ^ 2
      + s.dec.err.code.toNat * 2 ^ 8 + s.dec.n.toNat * 2 ^ 16 := by
  simp only [State.decStatus, toNat_append_eq]
  omega

/-! ### The reset values -/

/-- Every field that rule R39 gives a value holds it, and the contents it leaves unspecified are `c`. Nothing has been
observed, and the next command is the first of the program (R350). -/
structure HasResetValues (c : Contents) (r : State) : Prop where
  enc_eq : r.enc = Enc.resetWith c
  dec_eq : r.dec = Dec.resetWith c
  mux_eq : r.mux = Mux.resetWith c
  cfg_eq : r.cfg = resetCfg
  res_eq : r.res = 0
  err_eq : r.err = .ok
  fault_eq : r.fault = false
  trace_eq : r.trace = []
  pos_eq : r.host.pos = 0

/-- The contents the model's reset state holds where rule R39 gives none (log entry 4). -/
def resetContents : Contents where
  sub := Enc.reset.sub
  tbOut := []
  decData := []
  decRec := []
  msg3Bytes := []

theorem hasResetValues_reset : HasResetValues resetContents State.reset :=
  ⟨rfl, rfl, rfl, rfl, rfl, rfl, rfl, rfl, rfl⟩

theorem hasResetValues_powerOnReset (s : State) :
    HasResetValues (Params.drawContents s.params s.agents.draws) (powerOnReset s) :=
  ⟨rfl, rfl, rfl, rfl, rfl, rfl, rfl, rfl, rfl⟩

namespace HasResetValues

variable {c : Contents} {r : State}

theorem lch_zero (h : HasResetValues c r) : r.lch 0 = Lch.resetCcch := by
  simp [State.lch, h.cfg_eq, resetCfg]

theorem lch_data (h : HasResetValues c r) {l : Nat} (h1 : 1 ≤ l) : r.lch l = Lch.resetData := by
  have h0 : l ≠ 0 := by omega
  by_cases hl : l < 11 <;> simp [State.lch, h.cfg_eq, resetCfg, h0.symm, hl]

theorem tokOf_zero (h : HasResetValues c r) (l : Nat) : r.tokOf l = 0 := by
  by_cases hl : l < 11 <;> simp [State.tokOf, h.mux_eq, Mux.resetWith, Mux.reset, hl]

theorem status_zero (h : HasResetValues c r) : r.status = 0 := by
  simp only [State.status, h.enc_eq, h.dec_eq, h.mux_eq, h.fault_eq, Enc.resetWith, Dec.resetWith,
    Mux.resetWith, Enc.reset, Dec.reset]
  decide

theorem decStatus_zero (h : HasResetValues c r) : r.decStatus = 0 := by
  simp only [State.decStatus, h.dec_eq, Dec.resetWith, Dec.reset]
  decide

/-- A state at its reset values has the invariant of the block, where its unspecified contents fit their buffers (R39,
R63). -/
theorem blockInv (h : HasResetValues c r) (hp : r.params.legal = true) (ht : c.tbOut.length ≤ r.params.maxTbBytes)
    (hd : c.decData.length ≤ r.params.maxTbBytes) (hm : c.msg3Bytes.length ≤ r.params.maxTbBytes) : BlockInv r where
  params_legal := hp
  enc_ok := h.enc_eq ▸ encOk_resetWith ht
  dec_ok := h.dec_eq ▸ decOk_invalid rfl hd
  msg3_ok := h.mux_eq ▸ msg3Ok_invalid rfl hm
  ccch_active := by rw [h.lch_zero]; rfl

end HasResetValues

/-- The default parameters are legal (R7, R230). -/
theorem standard_legal : Params.standard.legal = true := by decide

end Sys2Proof.Machine

namespace Sys2Proof.Proofs

open Sys2Proof.Machine Sys2Proof.Config

/-- Settles O53: each register is the sum of its fields, and each field has the number the rules give its value. -/
theorem statusRegisterFields : Obligations.StatusRegisterFields := by
  intro s bit number
  have hbit : ∀ b : Bool, (BitVec.ofBool b).toNat = bit b := by intro b; cases b <;> rfl
  have hnumber : ∀ e : ErrCode, e.code.toNat = number e := by intro e; cases e <;> rfl
  refine ⟨?_, ?_, hnumber s.err⟩
  · rw [status_toNat, isSome_toNat, dirBit_toNat]
    simp only [hbit]
    cases s.enc.mode <;> rfl
  · rw [decStatus_toNat, dirBit_toNat, hnumber, hbit]

/-- Settles O54: the model's reset state and the state after power-on RESET hold the same reset values. -/
theorem resetValues : Obligations.ResetValues := by
  intro r hr
  obtain ⟨c, h⟩ : ∃ c, HasResetValues c r := by
    rcases hr with rfl | ⟨s, rfl⟩
    · exact ⟨_, hasResetValues_reset⟩
    · exact ⟨_, hasResetValues_powerOnReset s⟩
  simp only [h.enc_eq, h.dec_eq, h.mux_eq]
  exact ⟨rfl, rfl, rfl, rfl, rfl, rfl, rfl, rfl, rfl, h.res_eq, h.err_eq, h.fault_eq, rfl, rfl, rfl, rfl, rfl,
    h.lch_zero, fun _ h1 _ => h.lch_data h1, fun l _ => h.tokOf_zero l, rfl, rfl, h.status_zero, h.decStatus_zero,
    h.trace_eq, h.pos_eq⟩

/-- Settles O57: the reset state is at its reset values, with empty buffers. -/
theorem resetHasInvariant : Obligations.ResetHasInvariant :=
  hasResetValues_reset.blockInv standard_legal (Nat.zero_le _) (Nat.zero_le _) (Nat.zero_le _)

/-- Settles O60: a block in DONE is valid, and a record below `NREC` is one of the decoder's. -/
theorem hostReadsWhileValid : Obligations.HostReadsWhileValid := by
  intro s h
  constructor
  · intro hdone
    have hread : s.readTbOut = s.enc.tbOut := if_pos (h.enc_ok.valid_iff_done.2 hdone)
    exact ⟨hread, hread ▸ h.enc_ok.block_has_size hdone⟩
  · intro hv
    have hread : s.readDecData = s.dec.data := if_pos hv
    refine ⟨hread, hread ▸ (h.dec_ok.size_is_length hv).symm, fun j hj => ?_⟩
    have hlen : j < s.dec.recs.length := h.dec_ok.count_is_length hv ▸ hj
    simp [State.readDecRec, hv, hj, hlen]

end Sys2Proof.Proofs

/-! SUPPORT. The in-place buffer (R72): bytes placed on adjacent ranges are their concatenation placed once, and what is
placed is what is read back. -/

namespace Sys2Proof.Machine

/-- The bytes read from where a list was placed are that list. -/
theorem take_drop_placeAt {off : Nat} {buf : Bytes} (hoff : off ≤ buf.length) (bytes : Bytes) :
    ((placeAt off bytes buf).drop off).take bytes.length = bytes := by
  have htake : (buf.take off).length = off := List.length_take_of_le hoff
  rw [placeAt, List.append_assoc, List.drop_left' htake, List.take_left]

/-- The range just above `xs` is outside what placing `xs` wrote. -/
theorem placeAt_above {off : Nat} {buf : Bytes} (hoff : off ≤ buf.length) (xs ys : Bytes) :
    placeAt (off + xs.length) ys (placeAt off xs buf) = placeAt off (xs ++ ys) buf := by
  have hprefix : (buf.take off ++ xs).length = off + xs.length := by simp [hoff]
  have hbelow : (placeAt off xs buf).take (off + xs.length) = buf.take off ++ xs := List.take_left' hprefix
  have habove : (placeAt off xs buf).drop (off + xs.length + ys.length) = buf.drop (off + (xs ++ ys).length) := by
    rw [← List.drop_drop, placeAt, List.drop_left' hprefix, List.drop_drop, List.length_append, Nat.add_assoc]
  rw [placeAt, hbelow, habove, placeAt, List.append_assoc (buf.take off)]

/-- The range just below `ys` is outside what placing `ys` wrote. -/
theorem placeAt_below {off : Nat} {xs buf : Bytes} (hfit : off + xs.length ≤ buf.length) (ys : Bytes) :
    placeAt off xs (placeAt (off + xs.length) ys buf) = placeAt off (xs ++ ys) buf := by
  have htake : (buf.take (off + xs.length)).length = off + xs.length := List.length_take_of_le hfit
  have hbelow : (placeAt (off + xs.length) ys buf).take off = buf.take off := by
    rw [placeAt, List.append_assoc, List.take_append_of_le_length (by omega), List.take_take,
      Nat.min_eq_left (Nat.le_add_right ..)]
  have habove : (placeAt (off + xs.length) ys buf).drop (off + xs.length)
      = ys ++ buf.drop (off + (xs ++ ys).length) := by
    rw [placeAt, List.append_assoc, List.drop_left' htake, List.length_append, Nat.add_assoc]
  rw [placeAt, hbelow, habove, placeAt, List.append_assoc, List.append_assoc, List.append_assoc]

/-- The layout of R72 is the byte list of R175, placed so that the SDU region starts at the boundary. -/
theorem inPlaceBuffer_eq_placeAt {reserve : Nat} {hdr cep buf : Bytes} (hheader : hdr.length + cep.length ≤ reserve)
    (hbuf : reserve ≤ buf.length) (sdu : Bytes) (padn : Nat) :
    inPlaceBuffer reserve hdr cep sdu padn buf
      = placeAt (reserve - (hdr.length + cep.length)) (assembleTb hdr cep sdu padn) buf := by
  obtain ⟨start, rfl⟩ : ∃ start, reserve = start + (hdr ++ cep).length :=
    ⟨reserve - (hdr ++ cep).length, by simp only [List.length_append]; omega⟩
  have hstart : start + (hdr ++ cep).length - (hdr.length + cep.length) = start := by
    rw [List.length_append, Nat.add_sub_cancel]
  have hpadding : start + (hdr ++ cep).length + sdu.length = start + (hdr ++ cep ++ sdu).length := by
    rw [List.length_append (as := hdr ++ cep), Nat.add_assoc]
  rw [inPlaceBuffer, hstart, placeAt_below hbuf, hpadding, placeAt_above (by omega), assembleTb]

end Sys2Proof.Machine

namespace Sys2Proof.Proofs

open Sys2Proof.Machine

/-- Settles O28: the buffer holds the block placed once, so reading its length from its start gives it back. -/
theorem inPlaceLayoutGivesBlock : Obligations.InPlaceLayoutGivesBlock := by
  intro reserve hdr cep sdu buf padn hheader hfit
  have hsize : hdr.length + cep.length + sdu.length + padn = (assembleTb hdr cep sdu padn).length := by
    simp [assembleTb, Nat.add_assoc]
  rw [inPlaceTb, inPlaceBuffer_eq_placeAt hheader (by omega), hsize, take_drop_placeAt (by omega), assembleTb]

end Sys2Proof.Proofs

/-! SUPPORT. The decoder as one case analysis over the rows of the opcode map, and what the operand fields of a word
say once the word is encoded, or its reserved bits are cleared (30_encoding.md R80-R85). -/

namespace Sys2Proof

/-! ### What a word decodes to -/

/-- The command of the same row of R82 with the operands that the word `w` carries. -/
def Instr.withOperandsOf (w : Word) : Instr → Instr
  | .initTx _ _ => .initTx (decodeDir (w.getLsbD 119)) (countField w)
  | .newSubh => .newSubh
  | .setSdu _ _ => .setSdu (lcidField w) (countField w)
  | .setBsr _ _ _ _ _ _ => .setBsr (decodeFmt (w.extractLsb 109 108)) (w.extractLsb 105 104) (w.extractLsb 71 54).toNat
      (w.extractLsb 53 36).toNat (w.extractLsb 35 18).toNat (w.extractLsb 17 0).toNat
  | .setPhr _ => .setPhr (phLow w)
  | .setCrnti _ => .setCrnti (w.extractLsb 15 0)
  | .setConres _ => .setConres (w.extractLsb 47 0)
  | .setTa _ => .setTa (w.extractLsb 5 0)
  | .hasSpaceSdu _ => .hasSpaceSdu (countField w)
  | .hasSpaceCe _ => .hasSpaceCe (countField w)
  | .sduSpace => .sduSpace
  | .remSize => .remSize
  | .write => .write
  | .read _ _ => .read (decodeDir (w.getLsbD 119)) (countField w)
  | .bsrLevel _ => .bsrLevel (w.extractLsb 17 0).toNat
  | .phrLevel _ => .phrLevel (phLow w)
  | .addBearer _ => .addBearer (lcidField w)
  | .setPriority _ _ _ _ => .setPriority (lcidField w) (w.extractLsb 103 96) (w.extractLsb 63 32) (w.extractLsb 31 0)
  | .setLcg _ _ => .setLcg (lcidField w) (w.extractLsb 105 104)
  | .resetBearers => .resetBearers
  | .ttiTick _ => .ttiTick (w.extractLsb 31 0)
  | .ulGrant _ _ _ _ _ _ _ _ => .ulGrant (countField w) (w.getLsbD 16) (w.getLsbD 17) (w.getLsbD 18) (w.getLsbD 19)
      (w.getLsbD 20) (w.extractLsb 47 32) (phHigh w)
  | .dlTb _ => .dlTb (countField w)
  | .softReset => .softReset

/-- The opcodes that R83 lists as illegal. -/
def unassignedOpcode (op : Nat) : Prop :=
  op = 0x00 ∨ (0x11 ≤ op ∧ op ≤ 0x1F) ∨ (0x24 ≤ op ∧ op ≤ 0x2F) ∨ (0x32 ≤ op ∧ op ≤ 0x3F)
    ∨ (0x41 ≤ op ∧ op ≤ 0x7E) ∨ (0x80 ≤ op ∧ op ≤ 0xFF)

/-- No row of R82 has a listed opcode. -/
theorem not_unassignedOpcode (i : Instr) : ¬ unassignedOpcode i.opcode := by
  cases i <;> simp [unassignedOpcode, Instr.opcode]

/-- Everything a word can decode to (R82, R83): the command of its opcode's row with the word's operands, or nothing,
its opcode being a listed one. -/
theorem decode_cases (w : Word) :
    (∃ i, decode w = .ok i ∧ (opcode w).toNat = i.opcode ∧ i.withOperandsOf w = i) ∨
    (decode w = .error (.illegalOpcode (opcode w)) ∧ unassignedOpcode (opcode w).toNat) := by
  have hbyte := (opcode w).isLt
  unfold decode
  split
  case h_25 =>
    refine .inr ⟨rfl, ?_⟩
    simp only [imp_false, unassignedOpcode] at *
    omega
  all_goals exact .inl ⟨_, rfl, ‹_›, rfl⟩

/-- A word with the opcode of a row decodes to that row's command (R82). -/
theorem decode_of_opcode {w : Word} {i : Instr} (h : (opcode w).toNat = i.opcode) :
    decode w = .ok (i.withOperandsOf w) := by
  unfold decode
  rw [h]
  cases i <;> rfl

/-- A word with a listed opcode is rejected by name (R83). -/
theorem decode_of_unassigned {w : Word} (h : unassignedOpcode (opcode w).toNat) :
    decode w = .error (.illegalOpcode (opcode w)) := by
  rcases decode_cases w with ⟨i, -, hop, -⟩ | ⟨hw, -⟩
  · exact absurd (hop ▸ h) (not_unassignedOpcode i)
  · exact hw

/-- The number read from a field fits that field (R82). -/
theorem fitsU_field (w : Word) (hi lo : Nat) : fitsU (hi - lo + 1) (w.extractLsb hi lo).toNat = true :=
  decide_eq_true (BitVec.isLt _)

/-- The operands read from a word fit the fields they are read from (R82). -/
theorem wellFormed_withOperandsOf (i : Instr) (w : Word) : (i.withOperandsOf w).wellFormed = true := by
  have hcount : fitsU 16 (countField w) = true := fitsU_field w 15 0
  have hlcid : fitsU 5 (lcidField w) = true := fitsU_field w 116 112
  have hlow : fitsPh (phLow w) = true := fitsPh_toInt _
  have hhigh : fitsPh (phHigh w) = true := fitsPh_toInt _
  have hlevel (hi lo : Nat) (h : hi - lo + 1 = 18) : fitsU 18 (w.extractLsb hi lo).toNat = true :=
    h ▸ fitsU_field w hi lo
  cases i <;> simp only [Instr.withOperandsOf, Instr.wellFormed, hcount, hlcid, hlow, hhigh, hlevel, Bool.and_self]


/-! ### The fields of a word whose operand bits are known -/

section
variable {w : Word} {bits : Nat} (hw : w.toNat % 2 ^ 120 = bits)
include hw

/-- A field below the opcode byte, read from the operand bits (R80). -/
theorem field_of_bits {hi lo n : Nat} (hle : lo ≤ hi) (hhi : hi < 120) (hn : bits / 2 ^ lo % 2 ^ (hi - lo + 1) = n) :
    (w.extractLsb hi lo).toNat = n := by
  rw [← hn, ← hw, BitVec.extractLsb_toNat, Nat.shiftRight_eq_div_pow]
  refine Nat.eq_of_testBit_eq fun j => ?_
  simp only [Nat.testBit_mod_two_pow, Nat.testBit_div_two_pow]
  by_cases hj : j < hi - lo + 1
  · simp [show j + lo < 120 by omega]
  · simp [hj]

/-- A field that a bit vector stands for. -/
theorem field_eq_of_bits {hi lo : Nat} {v : BitVec (hi - lo + 1)} (hle : lo ≤ hi) (hhi : hi < 120)
    (hv : bits / 2 ^ lo % 2 ^ (hi - lo + 1) = v.toNat) : w.extractLsb hi lo = v :=
  BitVec.eq_of_toNat_eq (field_of_bits hw hle hhi hv)

/-- A flag below the opcode byte (R80). -/
theorem flag_of_bits {k : Nat} {b : Bool} (hk : k < 120) (hb : bits / 2 ^ k % 2 = b.toNat) : w.getLsbD k = b := by
  have hbit : w.getLsbD k = decide (bits / 2 ^ k % 2 = 1) := by
    rw [← hw, ← Nat.testBit_eq_decide_div_mod_eq, Nat.testBit_mod_two_pow, BitVec.getLsbD]
    simp [hk]
  rw [hbit, hb]
  cases b <;> rfl

theorem countField_of_bits {n : Nat} (hn : bits % 2 ^ 16 = n) : countField w = n :=
  field_of_bits hw (by decide) (by decide) (by rw [Nat.pow_zero, Nat.div_one]; exact hn)

theorem lcidField_of_bits {l : Nat} (hl : bits / 2 ^ 112 % 2 ^ 5 = l) : lcidField w = l :=
  field_of_bits hw (by decide) (by decide) hl

theorem decodeDir_of_bits {d : Dir} (hd : bits / 2 ^ 119 % 2 = encodeDir d) : decodeDir (w.getLsbD 119) = d := by
  rw [flag_of_bits hw (b := decide (d = .dl)) (by decide) (by rw [hd]; cases d <;> rfl)]
  cases d <;> rfl

theorem decodeFmt_of_bits {f : BsrFmt} (hf : bits / 2 ^ 108 % 2 ^ 2 = encodeFmt f) :
    decodeFmt (w.extractLsb 109 108) = f := by
  have hv : (w.extractLsb 109 108).toNat = encodeFmt f := field_of_bits hw (by decide) (by decide) hf
  rw [decodeFmt, hv]
  cases f <;> rfl

theorem phLow_of_bits {ph : Int} (hfit : fitsPh ph = true) (hph : bits % 2 ^ 16 = encodePh ph) : phLow w = ph :=
  toInt_encodePh hfit (countField_of_bits hw hph)

theorem phHigh_of_bits {ph : Int} (hfit : fitsPh ph = true) (hph : bits / 2 ^ 64 % 2 ^ 16 = encodePh ph) :
    phHigh w = ph :=
  toInt_encodePh hfit (field_of_bits hw (by decide) (by decide) hph)

end

/-! ### The encoder -/

open Laws in
/-- The operands of a well-formed command stay below the opcode byte, and its word carries its opcode (R80, R82). -/
theorem encodedOpcode : ∀ i : Instr, EncodedOpcode.Statement i
  | .initTx dir n => EncodedOpcode.initTx dir n
  | .newSubh => EncodedOpcode.newSubh
  | .setSdu lcid req => EncodedOpcode.setSdu lcid req
  | .setBsr fmt lcg b0 b1 b2 b3 => EncodedOpcode.setBsr fmt lcg b0 b1 b2 b3
  | .setPhr ph => EncodedOpcode.setPhr ph
  | .setCrnti rnti => EncodedOpcode.setCrnti rnti
  | .setConres id => EncodedOpcode.setConres id
  | .setTa ta => EncodedOpcode.setTa ta
  | .hasSpaceSdu nb => EncodedOpcode.hasSpaceSdu nb
  | .hasSpaceCe nb => EncodedOpcode.hasSpaceCe nb
  | .sduSpace => EncodedOpcode.sduSpace
  | .remSize => EncodedOpcode.remSize
  | .write => EncodedOpcode.write
  | .read dir n => EncodedOpcode.read dir n
  | .bsrLevel b => EncodedOpcode.bsrLevel b
  | .phrLevel ph => EncodedOpcode.phrLevel ph
  | .addBearer lcid => EncodedOpcode.addBearer lcid
  | .setPriority lcid prio pbr bsd => EncodedOpcode.setPriority lcid prio pbr bsd
  | .setLcg lcid lcg => EncodedOpcode.setLcg lcid lcg
  | .resetBearers => EncodedOpcode.resetBearers
  | .ttiTick tti => EncodedOpcode.ttiTick tti
  | .ulGrant n msg3 retx ci bt pt rnti ph => EncodedOpcode.ulGrant n msg3 retx ci bt pt rnti ph
  | .dlTb n => EncodedOpcode.dlTb n
  | .softReset => EncodedOpcode.softReset

/-- Below its opcode byte the word of a well-formed command is its operand bits (R80, R82). -/
theorem encode_operandBits {i : Instr} (h : i.wellFormed = true) : (encode i).toNat % 2 ^ 120 = i.operandBits := by
  obtain ⟨hbits, -⟩ := encodedOpcode i h
  rw [encode, BitVec.toNat_ofNat, Nat.mod_mod_of_dvd _ (by decide), Nat.mul_add_mod', Nat.mod_eq_of_lt hbits]

/-- The word of a well-formed command carries its operands (R82, R85). -/
theorem withOperandsOf_encode {i : Instr} (h : i.wellFormed = true) : i.withOperandsOf (encode i) = i := by
  have hw := encode_operandBits h
  generalize encode i = w at hw ⊢
  cases i <;>
    simp only [Instr.wellFormed, Instr.operandBits, Instr.withOperandsOf, fitsU, Bool.and_eq_true, decide_eq_true_eq]
      at h hw ⊢
  case initTx dir n | read dir n =>
    have hd : encodeDir dir < 2 := by cases dir <;> decide
    rw [decodeDir_of_bits hw (d := dir) (by omega), countField_of_bits hw (n := n) (by omega)]
  case setSdu lcid req =>
    rw [lcidField_of_bits hw (l := lcid) (by omega), countField_of_bits hw (n := req) (by omega)]
  case setBsr fmt lcg b0 b1 b2 b3 =>
    have hf : encodeFmt fmt < 4 := by cases fmt <;> decide
    have hg := lcg.isLt
    rw [decodeFmt_of_bits hw (f := fmt) (by omega), field_eq_of_bits hw (v := lcg) (by decide) (by decide) (by omega),
      field_of_bits hw (n := b0) (by decide) (by decide) (by omega),
      field_of_bits hw (n := b1) (by decide) (by decide) (by omega),
      field_of_bits hw (n := b2) (by decide) (by decide) (by omega),
      field_of_bits hw (n := b3) (by decide) (by decide) (by omega)]
  case setPhr ph | phrLevel ph =>
    have hp := encodePh_lt ph
    rw [phLow_of_bits hw h (by omega)]
  case setCrnti v | setConres v | setTa v | ttiTick v =>
    have hv := v.isLt
    rw [field_eq_of_bits hw (v := v) (by decide) (by decide) (by omega)]
  case hasSpaceSdu n | hasSpaceCe n | dlTb n =>
    rw [countField_of_bits hw (n := n) (by omega)]
  case bsrLevel b =>
    rw [field_of_bits hw (n := b) (by decide) (by decide) (by omega)]
  case addBearer lcid =>
    rw [lcidField_of_bits hw (l := lcid) (by omega)]
  case setPriority lcid prio pbr bsd =>
    have h1 := prio.isLt
    have h2 := pbr.isLt
    have h3 := bsd.isLt
    rw [lcidField_of_bits hw (l := lcid) (by omega),
      field_eq_of_bits hw (v := prio) (by decide) (by decide) (by omega),
      field_eq_of_bits hw (v := pbr) (by decide) (by decide) (by omega),
      field_eq_of_bits hw (v := bsd) (by decide) (by decide) (by omega)]
  case setLcg lcid lcg =>
    have hg := lcg.isLt
    rw [lcidField_of_bits hw (l := lcid) (by omega),
      field_eq_of_bits hw (v := lcg) (by decide) (by decide) (by omega)]
  case ulGrant n msg3 retx ci bt pt rnti ph =>
    have h1 := rnti.isLt
    have h2 := encodePh_lt ph
    have h3 := msg3.toNat_le
    have h4 := retx.toNat_le
    have h5 := ci.toNat_le
    have h6 := bt.toNat_le
    have h7 := pt.toNat_le
    obtain ⟨hn, hph⟩ := h
    rw [countField_of_bits hw (n := n) (by omega), flag_of_bits hw (b := msg3) (by decide) (by omega),
      flag_of_bits hw (b := retx) (by decide) (by omega), flag_of_bits hw (b := ci) (by decide) (by omega),
      flag_of_bits hw (b := bt) (by decide) (by omega), flag_of_bits hw (b := pt) (by decide) (by omega),
      field_eq_of_bits hw (v := rnti) (by decide) (by decide) (by omega), phHigh_of_bits hw hph (by omega)]

/-! ### The reserved bits -/

/-- The bits that `clearReserved` keeps in a word of opcode `op`: the opcode byte and the row's operands (R80, R82). -/
def keptBits (op : Nat) : Word := BitVec.ofNat 128 (fieldMask 127 120 + operandMask op)

/-- No opcode's row gives up the opcode byte (R80). -/
theorem opcode_clearReserved (w : Word) : opcode (clearReserved w) = opcode w := by
  have hmask : ∀ op : BitVec 8, (keptBits op.toNat).extractLsb 127 120 = BitVec.allOnes _ := by decide
  exact extractLsb_and_mask (hmask (opcode w))

section
variable {w : Word} {op : Nat} (hop : (opcode w).toNat = op)
include hop

/-- A field that the opcode's row names keeps its value (R84). -/
theorem extractLsb_clearReserved {hi lo : Nat} (h : (keptBits op).extractLsb hi lo = BitVec.allOnes _) :
    (clearReserved w).extractLsb hi lo = w.extractLsb hi lo := by
  subst hop
  exact extractLsb_and_mask h

/-- A flag that the opcode's row names keeps its value (R84). -/
theorem getLsbD_clearReserved {k : Nat} (h : (keptBits op).getLsbD k = true) :
    (clearReserved w).getLsbD k = w.getLsbD k := by
  subst hop
  rw [clearReserved, BitVec.getLsbD_and]
  exact (congrArg _ h).trans (Bool.and_true _)

end

/-- Every operand of a row stands in bits that its opcode keeps (R82, R84). -/
theorem withOperandsOf_clearReserved {w : Word} {i : Instr} (hop : (opcode w).toNat = i.opcode) :
    i.withOperandsOf (clearReserved w) = i.withOperandsOf w := by
  cases i <;>
    simp only [Instr.opcode] at hop <;>
    simp (disch := decide) only [Instr.withOperandsOf, countField, lcidField, phLow, phHigh,
      extractLsb_clearReserved hop, getLsbD_clearReserved hop]

theorem decode_clearReserved (w : Word) : decode (clearReserved w) = decode w := by
  rcases decode_cases w with ⟨i, hw, hop, hi⟩ | ⟨hw, hop⟩
  · have hkept : (opcode (clearReserved w)).toNat = i.opcode := by rw [opcode_clearReserved, hop]
    rw [decode_of_opcode hkept, withOperandsOf_clearReserved hop, hi, hw]
  · rw [decode_of_unassigned (by rwa [opcode_clearReserved]), opcode_clearReserved, hw]

end Sys2Proof

namespace Sys2Proof.Machine

/-! ### The assembler -/

/-- A data-in list fits its command exactly where it has the length `N` of a READ or DL_TB, and is empty for every other
command (R81, R105). -/
theorem dinFits_iff {i : Instr} {din : Bytes} : i.dinFits din = true ↔
    (∀ dir n, i = .read dir n → din.length = n) ∧ (∀ n, i = .dlTb n → din.length = n) ∧
      ((∀ dir n, i ≠ .read dir n) → (∀ n, i ≠ .dlTb n) → din = []) := by
  cases i <;> simp [Instr.dinFits, Instr.dinField]

/-- Every command of the line fits its fields and carries its data-in list (R105). -/
def AsmStmt.Fits (a : AsmStmt) : Prop := ∀ p ∈ a.expand, p.1.wellFormed = true ∧ p.1.dinFits p.2 = true

theorem assemble_of_fits {a : AsmStmt} (h : a.Fits) :
    a.assemble = .ok (a.expand.map fun p => { word := encode p.1, din := p.2 }) :=
  if_pos (by simpa [AsmStmt.Fits] using h)

theorem assemble_of_not_fits {a : AsmStmt} (h : ¬ a.Fits) : a.assemble = .error .doesNotFit :=
  if_neg (by simpa [AsmStmt.Fits] using h)

end Sys2Proof.Machine

namespace Sys2Proof.Proofs

open Sys2Proof.Machine

/-- Settles O1: the word of a well-formed command carries its row's opcode, and in each field its operand. -/
theorem decodeOfEncode : Obligations.DecodeOfEncode := by
  intro i hi
  obtain ⟨-, hop⟩ := encodedOpcode i hi
  rw [decode_of_opcode hop, withOperandsOf_encode hi]

/-- Settles O2: the operands of a decoded command are the word's own fields. -/
theorem decodeGivesFieldValues : Obligations.DecodeGivesFieldValues := by
  intro w i h
  rcases decode_cases w with ⟨j, hj, -, hfields⟩ | ⟨herr, -⟩
  · obtain rfl : j = i := Except.ok.inj (hj.symm.trans h)
    exact hfields ▸ wellFormed_withOperandsOf j w
  · rw [herr] at h; cases h

/-- Settles O3: a word decodes by its opcode's row, and no row has a listed opcode. -/
theorem unassignedOpcodeFails : Obligations.UnassignedOpcodeFails := by
  intro w op illegal
  refine ⟨fun h => ?_, fun h => ?_⟩
  · have hw := decode_of_unassigned h
    exact ⟨hw, execWord_of_decode_error hw⟩
  · rcases decode_cases w with ⟨i, hi, -⟩ | ⟨-, hop⟩
    · exact ⟨i, hi⟩
    · exact absurd hop h

/-- Settles O4: no operand is read from a reserved bit, so both words decode to one command. -/
theorem reservedBitsIgnored : Obligations.ReservedBitsIgnored := by
  intro w
  have hw := decode_clearReserved w
  exact ⟨hw, fun s => by rw [execWord, hw, execWord]⟩

/-- Settles O5: each word is the encoding of its command. -/
theorem sampleWordsDecode : Obligations.SampleWordsDecode := by
  have decodes {w : Word} (i : Instr) (hw : encode i = w) (hi : i.wellFormed = true) : decode w = .ok i :=
    hw ▸ decodeOfEncode i hi
  exact ⟨decodes _ rfl rfl, decodes _ rfl rfl, decodes _ rfl rfl, decodes _ rfl rfl, decodes _ rfl rfl,
    decodes _ rfl rfl, decodes _ rfl rfl, decodes _ rfl rfl, decodes _ rfl rfl⟩

/-- Settles O6: a line is assembled exactly where its expansion fits, and the encoded commands then decode (O1). -/
theorem assembledWordsDecode : Obligations.AssembledWordsDecode := by
  intro a slot expansion operandsFit dataFits
  have hexpand : a.expand = expansion := by cases a <;> rfl
  have hoperands : ∀ i : Instr, operandsFit i ↔ i.wellFormed = true := by
    intro i
    cases i <;> simp [operandsFit, Instr.wellFormed, fitsU, fitsPh, and_assoc]
  have hfits : (∀ p ∈ expansion, operandsFit p.1 ∧ dataFits p.1 p.2) ↔ a.Fits := by
    simp only [AsmStmt.Fits, ← hexpand, hoperands, dinFits_iff, dataFits]
  rw [hfits, ← hexpand]
  refine ⟨rfl, fun h => ⟨_, assemble_of_fits h, ?_⟩, assemble_of_not_fits⟩
  rw [List.map_map]
  exact List.map_congr_left fun p hp => by simp [decodeOfEncode p.1 (h p hp).1]

end Sys2Proof.Proofs

/-! SUPPORT. The R bits of a subheader (30_encoding.md R87). -/

namespace Sys2Proof.Machine

/-- The walk reads of a subheader's first byte the LCID and the E bit alone (R87, R202). -/
theorem walkHeader_congr_head {b c : Byte} (hlcid : b.extractLsb 4 0 = c.extractLsb 4 0)
    (hext : b.getLsbD 5 = c.getLsbD 5) (dir : Dir) (maxRx : Nat) (rest : Bytes) (pos : Nat) (recs : List WalkRec) :
    walkHeader dir maxRx (b :: rest) pos recs = walkHeader dir maxRx (c :: rest) pos recs := by
  rw [walkHeader.eq_def, walkHeader.eq_def dir maxRx (c :: rest)]
  simp only [hlcid, hext]

theorem parse_congr_walk {dir : Dir} {maxRx : Nat} {d d' : Bytes}
    (h : walkHeader dir maxRx d 0 [] = walkHeader dir maxRx d' 0 []) (n : Nat) :
    parse dir maxRx n d = parse dir maxRx n d' := by
  rw [parse, h, parse]

/-- A byte with the R bits of another one keeps its LCID and its E bit (R87). -/
theorem reservedBits_replaced (b r : Byte) :
    ((b &&& 0x3F) ||| (r &&& 0xC0)).extractLsb 4 0 = b.extractLsb 4 0 ∧
      ((b &&& 0x3F) ||| (r &&& 0xC0)).getLsbD 5 = b.getLsbD 5 := by
  constructor
  · ext i hi
    have : i = 0 ∨ i = 1 ∨ i = 2 ∨ i = 3 ∨ i = 4 := by omega
    rcases this with rfl | rfl | rfl | rfl | rfl <;> simp
  · simp

end Sys2Proof.Machine

namespace Sys2Proof.Proofs

open Sys2Proof.Machine

/-- Settles O34: both bytes have one LCID and one E bit, and the parse begins with the walk. -/
theorem parseIgnoresReservedBits : Obligations.ParseIgnoresReservedBits := by
  intro dir maxRx b r rest other
  obtain ⟨hlcid, hext⟩ := reservedBits_replaced b r
  have hwalk := walkHeader_congr_head hlcid hext dir maxRx rest
  exact ⟨hwalk, parse_congr_walk (hwalk 0 [])⟩

end Sys2Proof.Proofs

/-! SUPPORT. The data-in list (30_encoding.md R81): READ and DL_TB refuse a list of the wrong length, and every other
command runs alike with any list on the port. -/

namespace Sys2Proof.Machine

open Sys2Proof.Config

/-! ### The commands that take a data-in list -/

/-- READ refuses a data-in list of the wrong length, or above the capacity, and changes nothing (R81; log entry 9). -/
theorem readBody_refused {n : Nat} {d : Bytes} {s : State} (h : s.refusesDin n d = true) (dir : Dir) :
    readBody dir n d s = fail .arg (-1) s := by
  rw [readBody, if_pos h]

/-- DL_TB refuses a data-in list of the wrong length, or above the capacity, and changes nothing (R81; log entry 9). -/
theorem dlTbBody_refused {n : Nat} {d : Bytes} {s : State} (h : s.refusesDin n d = true) :
    dlTbBody n d s = fail .arg (-1) s := by
  rw [dlTbBody, if_pos h]

/-! ### The commands that ignore it -/

/-- `s` with the data-in list `d` on the port (R81). -/
def State.withDin (d : Bytes) (s : State) : State := { s with host := { s.host with din := d } }

/-- What a sub-step leaves, with the data-in list `d` on the port of its state. -/
abbrev putDin {α : Type} (d : Bytes) (p : State × α) : State × α := (p.1.withDin d, p.2)

/-- A branch on the same condition commutes with a map where its two sides do. -/
theorem ite_map {α β : Type} (f : α → β) {c c' : Prop} {hc : Decidable c} {hc' : Decidable c'} {x y : α} {x' y' : β}
    (h : c' = c) (hx : x' = f x) (hy : y' = f y) : (if c' then x' else y') = f (if c then x else y) := by
  subst h
  split
  · exact hx
  · exact hy

section
variable (d : Bytes) (s : State)

/-! ### The PDU builder, WRITE and the channel configuration

No rule of these commands reads the port, so that each branch and each update is the same with any list on it. -/

theorem initTxBody_withDin (dir : Dir) (n : Nat) : initTxBody dir n (s.withDin d) = putDin d (initTxBody dir n s) :=
  ite_map _ rfl rfl rfl

theorem newSubhBody_withDin : newSubhBody (s.withDin d) = putDin d (newSubhBody s) :=
  ite_map _ rfl rfl (ite_map _ rfl rfl (ite_map _ rfl rfl rfl))

theorem setCe_withDin (t : CeType) (pay : Bytes) : setCe t pay (s.withDin d) = putDin d (setCe t pay s) :=
  ite_map _ rfl rfl (ite_map _ rfl rfl rfl)

theorem setterCheck_withDin : setterCheck (s.withDin d) = setterCheck s := rfl

theorem ceSetter_withDin (t : CeType) (pay : Bytes) : ceSetter t pay (s.withDin d) = putDin d (ceSetter t pay s) := by
  unfold ceSetter
  rw [setterCheck_withDin]
  cases setterCheck s with
  | some e => rfl
  | none => exact setCe_withDin d s t pay

theorem setBsrBody_withDin (f : BsrFmt) (g : BitVec 2) (b0 b1 b2 b3 : Nat) :
    setBsrBody f g b0 b1 b2 b3 (s.withDin d) = putDin d (setBsrBody f g b0 b1 b2 b3 s) := by
  unfold setBsrBody
  rw [setterCheck_withDin]
  cases setterCheck s with
  | some e => rfl
  | none =>
    cases f with
    | reserved => rfl
    | long | short | trunc => exact setCe_withDin d s _ _

theorem setSduAnswered_withDin (l q : Nat) (a : ReadAnswer) :
    setSduAnswered l q a (s.withDin d) = putDin d (setSduAnswered l q a s) :=
  ite_map _ rfl rfl (ite_map _ rfl rfl rfl)

theorem setSduBody_withDin (l q : Nat) : setSduBody l q (s.withDin d) = putDin d (setSduBody l q s) := by
  unfold setSduBody
  rw [setterCheck_withDin]
  cases setterCheck s with
  | some e => rfl
  | none =>
    have hanswered := setSduAnswered_withDin d (srcReadPdu l q s).2 l q (srcReadPdu l q s).1
    exact ite_map _ rfl rfl (ite_map _ rfl rfl (ite_map _ rfl rfl hanswered))

theorem queryBody_withDin (r : Int) : queryBody r (s.withDin d) = putDin d (queryBody r s) :=
  ite_map _ rfl rfl rfl

theorem finaliseTb_withDin (hdr cep : Bytes) (padn : Nat) :
    finaliseTb hdr cep padn (s.withDin d) = putDin d (finaliseTb hdr cep padn s) :=
  ite_map _ rfl rfl (ite_map _ rfl rfl rfl)

theorem writeBody_withDin : writeBody (s.withDin d) = putDin d (writeBody s) :=
  ite_map _ rfl rfl (finaliseTb_withDin d { s with enc := { s.enc with isOpen := false } } _ _ _)

theorem onChannel_withDin (lcid : Nat) (t : State) :
    onChannel lcid (t.withDin d) (s.withDin d) = putDin d (onChannel lcid t s) :=
  ite_map _ rfl rfl rfl

theorem bindChannel_withDin (lcid : Nat) : bindChannel lcid (s.withDin d) = (bindChannel lcid s).withDin d :=
  ite_map _ rfl rfl rfl

/-! ### The uplink grant -/

theorem msg3RetxBody_withDin (n : Nat) : msg3RetxBody n (s.withDin d) = putDin d (msg3RetxBody n s) :=
  ite_map _ rfl rfl (ite_map _ rfl rfl rfl)

theorem insertChannel_withDin (a : Nat) (ls : List Nat) :
    insertChannel (s.withDin d) a ls = insertChannel s a ls := by
  induction ls with
  | nil => rfl
  | cons b rest ih => exact ite_map id rfl rfl (congrArg (b :: ·) ih)

theorem serviceOrder_withDin : serviceOrder (s.withDin d) = serviceOrder s := by
  rw [serviceOrder, funext₂ (insertChannel_withDin d s)]
  rfl

theorem chooseBsr_withDin (ps : List (Nat × Nat)) : chooseBsr (s.withDin d) ps = chooseBsr s ps := by
  have hgroup : firstPendingGroup (s.withDin d) ps = firstPendingGroup s ps := by
    rw [firstPendingGroup, serviceOrder_withDin]
    rfl
  rw [chooseBsr, hgroup]
  rfl

theorem askCounts_withDin (ls : List Nat) :
    askCounts ls (s.withDin d) = ((askCounts ls s).1, (askCounts ls s).2.withDin d) := by
  induction ls generalizing s with
  | nil => rfl
  | cons l rest ih =>
    exact congrArg (fun p : List (Nat × Nat) × State => ((l, (srcBufferState l s).1) :: p.1, p.2))
      (ih (srcBufferState l s).2)

theorem addCe_withDin (c : Nat) {setter : State → State × Ret} (h : ∀ u, setter (u.withDin d) = putDin d (setter u)) :
    addCe c setter (s.withDin d) = (addCe c setter s).withDin d := by
  rw [addCe, newSubhBody_withDin, h]
  exact ite_map _ rfl rfl (ite_map _ rfl rfl rfl)

theorem cePhaseCrnti_withDin (inc : Bool) (rnti : BitVec 16) :
    cePhaseCrnti inc rnti (s.withDin d) = (cePhaseCrnti inc rnti s).withDin d :=
  ite_map _ rfl (addCe_withDin d s 2 fun u => ceSetter_withDin d u _ _) rfl

theorem cePhaseBsr_withDin (trig : Bool) : cePhaseBsr trig (s.withDin d) = (cePhaseBsr trig s).withDin d := by
  have hask := askCounts_withDin d s (activeChannels s)
  unfold cePhaseBsr
  rw [show activeChannels (s.withDin d) = activeChannels s from rfl, hask, chooseBsr_withDin]
  refine ite_map _ rfl ?_ rfl
  cases chooseBsr (askCounts (activeChannels s) s).2 (askCounts (activeChannels s) s).1 with
  | none => rfl
  | some c => exact addCe_withDin d _ _ fun u => setBsrBody_withDin d u _ _ _ _ _ _

theorem cePhasePhr_withDin (trig : Bool) (ph : Int) :
    cePhasePhr trig ph (s.withDin d) = (cePhasePhr trig ph s).withDin d :=
  ite_map _ rfl (addCe_withDin d s 1 fun u => ceSetter_withDin d u _ _) rfl

theorem consumeTokens_withDin (l : Nat) (k : Int) :
    consumeTokens l k (s.withDin d) = (consumeTokens l k s).withDin d :=
  ite_map _ rfl rfl rfl

theorem servePull_withDin (l q : Nat) : servePull l q (s.withDin d) = putDin d (servePull l q s) := by
  rw [servePull, setSduBody_withDin]
  exact ite_map _ rfl rfl (congrArg (·, PassEnd.again) (consumeTokens_withDin d _ l _))

theorem serveAllot_withDin (l q : Nat) : serveAllot l q (s.withDin d) = putDin d (serveAllot l q s) := by
  rw [serveAllot, newSubhBody_withDin]
  exact ite_map _ rfl rfl (servePull_withDin d _ l q)

theorem servePass_withDin (ph : Phase) (l : Nat) : servePass ph l (s.withDin d) = putDin d (servePass ph l s) :=
  ite_map _ rfl rfl (ite_map _ rfl rfl (ite_map _ rfl rfl (serveAllot_withDin d (srcBufferState l s).2 l _)))

theorem serve_withDin (ph : Phase) (l fuel : Nat) :
    serve ph l fuel (s.withDin d) = putDin d (serve ph l fuel s) := by
  induction fuel generalizing s with
  | zero => rfl
  | succ fuel ih =>
    unfold serve
    rw [servePass_withDin]
    rcases servePass ph l s with ⟨u, _ | _ | _⟩
    · rfl
    · rfl
    · exact ih u

theorem servePhase_withDin (ph : Phase) (ls : List Nat) :
    servePhase ph ls (s.withDin d) = putDin d (servePhase ph ls s) := by
  induction ls generalizing s with
  | nil => rfl
  | cons l rest ih =>
    have hserve := serve_withDin d s ph l (s.params.maxSubh + 1)
    refine ite_map _ rfl (ih s) (ite_map _ (congrArg (·.2 = true) hserve) hserve ?_)
    exact (congrArg (fun p => servePhase ph rest p.1) hserve).trans (ih _)

theorem servePhases_withDin : servePhases (s.withDin d) = (servePhases s).withDin d := by
  rw [servePhases, serviceOrder_withDin, servePhase_withDin, serviceOrder_withDin, servePhase_withDin]
  exact ite_map _ rfl rfl rfl

theorem storeMsg3_withDin (msg3 : Bool) (n : Nat) :
    storeMsg3 msg3 n (s.withDin d) = (storeMsg3 msg3 n s).withDin d :=
  ite_map _ rfl rfl rfl

theorem grantFinalise_withDin (n : Nat) (msg3 : Bool) :
    grantFinalise n msg3 (s.withDin d) = putDin d (grantFinalise n msg3 s) := by
  rw [grantFinalise, writeBody_withDin, storeMsg3_withDin]
  exact ite_map _ rfl rfl rfl

theorem grantAssemble_withDin (n : Nat) (ci bt pt : Bool) (rnti : BitVec 16) (ph : Int) :
    grantAssemble n ci bt pt rnti ph (s.withDin d) = (grantAssemble n ci bt pt rnti ph s).withDin d := by
  rw [grantAssemble, initTxBody_withDin, cePhaseCrnti_withDin, cePhaseBsr_withDin, cePhasePhr_withDin,
    servePhases_withDin, grantAssemble]

theorem ulGrantBody_withDin (n : Nat) (msg3 retx ci bt pt : Bool) (rnti : BitVec 16) (ph : Int) :
    ulGrantBody n msg3 retx ci bt pt rnti ph (s.withDin d) = putDin d (ulGrantBody n msg3 retx ci bt pt rnti ph s) := by
  rw [ulGrantBody, grantAssemble_withDin, grantFinalise_withDin]
  exact ite_map _ rfl (msg3RetxBody_withDin d s n) (ite_map _ rfl rfl rfl)

end

/-- A command whose body commutes with putting a list on the port does so as a whole. -/
theorem complete_withDin {d : Bytes} {p q : State × Ret} {t : State} (h : q = putDin d p)
    (ht : complete p = .next t) : complete q = .next (t.withDin d) := by
  rw [h, ← complete_inj ht]
  rfl

/-- A command without data-in ignores the list on the port (R81). -/
theorem exec_withDin {i : Instr} {s t : State} (hi : i.dinField = none) (ht : exec i s = .next t) (d : Bytes) :
    exec i (s.withDin d) = .next (t.withDin d) := by
  cases i with
  | initTx dir n => exact complete_withDin (initTxBody_withDin d s dir n) ht
  | newSubh => exact complete_withDin (newSubhBody_withDin d s) ht
  | setSdu lcid req => exact complete_withDin (setSduBody_withDin d s lcid req) ht
  | setBsr fmt lcg b0 b1 b2 b3 => exact complete_withDin (setBsrBody_withDin d s fmt lcg b0 b1 b2 b3) ht
  | setPhr ph => exact complete_withDin (ceSetter_withDin d s .phr _) ht
  | setCrnti rnti => exact complete_withDin (ceSetter_withDin d s .crnti _) ht
  | setConres id => exact complete_withDin (ceSetter_withDin d s .conres _) ht
  | setTa ta => exact complete_withDin (ceSetter_withDin d s .ta _) ht
  | hasSpaceSdu nb => exact complete_withDin (queryBody_withDin d s _) ht
  | hasSpaceCe nb => exact complete_withDin (queryBody_withDin d s _) ht
  | sduSpace => exact complete_withDin (queryBody_withDin d s _) ht
  | remSize => exact complete_withDin (queryBody_withDin d s _) ht
  | write => exact complete_withDin (writeBody_withDin d s) ht
  | read dir n => cases hi
  | bsrLevel b => exact complete_withDin rfl ht
  | phrLevel ph => exact complete_withDin rfl ht
  | addBearer lcid =>
    refine complete_withDin ?_ ht
    rw [bindChannel_withDin, onChannel_withDin]
  | setPriority lcid prio pbr bsd => exact complete_withDin (onChannel_withDin d s lcid (s.setLch lcid _)) ht
  | setLcg lcid lcg => exact complete_withDin (onChannel_withDin d s lcid (s.setLch lcid _)) ht
  | resetBearers => exact complete_withDin rfl ht
  | ttiTick tti => exact complete_withDin rfl ht
  | ulGrant n msg3 retx ci bt pt rnti ph =>
    exact complete_withDin (ulGrantBody_withDin d s n msg3 retx ci bt pt rnti ph) ht
  | dlTb n => cases hi
  | softReset => exact complete_withDin rfl ht

end Sys2Proof.Machine

namespace Sys2Proof.Proofs

open Sys2Proof.Machine

/-- Settles O10: READ and DL_TB check the list first, and every other command runs alike with any list. -/
theorem dataInLengthAndUse : Obligations.DataInLengthAndUse := by
  refine ⟨fun dir n s h => ?_, fun i s t d hi ht => exec_withDin hi ht d⟩
  have hrefused := refusesDin_true.2 h
  exact ⟨congrArg complete (readBody_refused hrefused dir), congrArg complete (dlTbBody_refused hrefused)⟩

end Sys2Proof.Proofs

/-! SUPPORT. The PDU builder (40_pdu_build.md): what its commands answer outside BUILD, what each setter does with an
open slot, and the capacity as a function of the committed records. -/

namespace Sys2Proof.Machine

open Sys2Proof.Config

/-! ### The ends of a command (R13) -/

theorem complete_ok (r : Int) (s : State) : complete (ok r s) = .next (s.answered .ok r) := rfl

theorem complete_fail (e : ErrCode) (r : Int) (s : State) : complete (fail e r s) = .next (s.answered e r) := rfl

/-! ### The mode and the slot (R120, R125) -/

/-- A setter whose precondition fails answers that error and changes nothing else. -/
theorem exec_setter_refused {i : Instr} {s : State} {e : ErrCode} (hi : isSetter i = true)
    (he : setterCheck s = some e) : exec i s = .next (s.answered e (-1)) := by
  rcases setter_cases hi with ⟨l, q, rfl⟩ | ⟨f, g, b0, b1, b2, b3, rfl⟩ | ⟨c, pay, -, hexec⟩
  · have h : setSduBody l q s = fail e (-1) s := by rw [setSduBody, he]
    exact congrArg complete h
  · have h : setBsrBody f g b0 b1 b2 b3 s = fail e (-1) s := by unfold setBsrBody; rw [he]
    exact congrArg complete h
  · have h : ceSetter c pay s = fail e (-1) s := by rw [ceSetter, he]
    exact (hexec s).trans (congrArg complete h)

/-- A capacity query is one answer, given in BUILD alone (R133-R136). -/
theorem query_cases {i : Instr} (h : isQuery i = true) (s : State) : ∃ r, exec i s = complete (queryBody r s) := by
  cases i with
  | hasSpaceSdu nb => exact ⟨_, rfl⟩
  | hasSpaceCe nb => exact ⟨_, rfl⟩
  | sduSpace => exact ⟨_, rfl⟩
  | remSize => exact ⟨_, rfl⟩
  | _ => simp [isQuery] at h

theorem queryBody_build {s : State} (hm : s.enc.mode = .build) (r : Int) : queryBody r s = ok r s :=
  if_neg (not_not.2 hm)

theorem queryBody_outside {s : State} (hm : s.enc.mode ≠ .build) (r : Int) : queryBody r s = fail .state 0 s :=
  if_pos hm

/-- A query that answers 1 or 0 answers 0 exactly where its condition fails. -/
theorem answered_flag_res (c : Prop) [Decidable c] (s : State) :
    (s.answered .ok (if c then 1 else 0)).res = 0 ↔ ¬ c := by
  by_cases h : c <;> simp [State.answered, h]

/-! ### SET_SDU with an open slot (R126) -/

section
variable {s : State} (hm : s.enc.mode = .build) (ho : s.enc.isOpen = true)
include hm ho

/-- The checks of SET_SDU in their order, the source being asked last (R68, R126). -/
theorem setSduBody_checked (l q : Nat) :
    setSduBody l q s =
      if l > lcidSduMax then fail .arg (-1) s
      else if q = 0 then ok 0 s
      else if s.enc.sduSpace < (q : Int) then fail .space (-1) s
      else setSduAnswered l q (srcReadPdu l q s).1 (srcReadPdu l q s).2 := by
  rw [setSduBody, setterCheck_none.2 ⟨hm, ho⟩]

theorem setSduBody_noSpace {l q : Nat} (hl : l ≤ lcidSduMax) (hq : q ≠ 0) (h : s.enc.sduSpace < q) :
    setSduBody l q s = fail .space (-1) s := by
  rw [setSduBody_checked hm ho, if_neg (by omega), if_neg hq, if_pos h]

theorem setSduBody_asks {l q : Nat} (hl : l ≤ lcidSduMax) (hq : q ≠ 0) (h : (q : Int) ≤ s.enc.sduSpace) :
    setSduBody l q s = setSduAnswered l q (srcReadPdu l q s).1 (srcReadPdu l q s).2 := by
  rw [setSduBody_checked hm ho, if_neg (by omega), if_neg hq, if_neg (by omega)]

end

/-- The source's answer is refused exactly out of its bounds (R126). -/
theorem badAnswer_true {q : Nat} {a : ReadAnswer} :
    badAnswer q a = true ↔ a.k < 0 ∨ (q : Int) < a.k ∨ (a.bytes.length : Int) ≠ a.k := by
  simp [badAnswer, or_assoc]

theorem setSduAnswered_refused {l q : Nat} {a : ReadAnswer} (h : badAnswer q a = true) (s : State) :
    setSduAnswered l q a s = fail .src (-1) s :=
  if_pos h

theorem setSduAnswered_empty {l q : Nat} {a : ReadAnswer} (hk : a.k = 0) (hb : a.bytes = []) (s : State) :
    setSduAnswered l q a s = ok 0 s := by
  have hgood : badAnswer q a = false := badAnswer_false.2 (by simp [hk, hb])
  rw [setSduAnswered, if_neg (by simp [hgood]), if_pos hk]

/-- Once the source is asked, there is space. -/
theorem setSduAnswered_err_ne_space (l q : Nat) (a : ReadAnswer) (s : State) :
    (setSduAnswered l q a s).2.err ≠ .space := by
  unfold setSduAnswered
  split
  · simp
  · split <;> simp

/-! ### A control-element setter with an open slot (R127)

SET_PHR, SET_CRNTI, SET_CONRES, SET_TA and each format of SET_BSR but the reserved one are by definition `ceSetter` of
one type and its payload, so that the rules about `ceSetter` below apply to the commands themselves. -/

/-- The group of a SHORT or TRUNC report selects one of the four counts (R128). -/
theorem groupOperand_eq_getD (g : BitVec 2) (b0 b1 b2 b3 : Nat) :
    groupOperand g b0 b1 b2 b3 = [b0, b1, b2, b3].getD g.toNat 0 := by
  have hlt := g.isLt
  have hg : g.toNat = 0 ∨ g.toNat = 1 ∨ g.toNat = 2 ∨ g.toNat = 3 := by omega
  unfold groupOperand
  rcases hg with hg | hg | hg | hg <;> simp [hg]

/-- The four levels of a LONG report, 24 bits big-endian, as its three bytes (R96). -/
theorem longBsrBytes_eq (l0 l1 l2 l3 : BitVec 6) :
    longBsrBytes l0 l1 l2 l3 =
      [l0 ++ l1.extractLsb 5 4, l1.extractLsb 3 0 ++ l2.extractLsb 5 2, l2.extractLsb 1 0 ++ l3] := by
  unfold longBsrBytes
  simp only [List.cons.injEq, and_true]
  refine ⟨?_, ?_, ?_⟩ <;> ext i hi <;> grind

/-- `s` with a control element of type `t` and payload `pay` committed and answered (R127). -/
def State.ceCommitted (t : CeType) (pay : Bytes) (s : State) : State :=
  ({ s with enc := s.enc.commitCe t pay } : State).answered .ok pay.length

section
variable {s : State} (hm : s.enc.mode = .build) (ho : s.enc.isOpen = true) {t : CeType} {d : Dir} (hd : s.enc.dir = d)
include hm ho

theorem ceSetter_ready (t : CeType) (pay : Bytes) : ceSetter t pay s = setCe t pay s := by
  rw [ceSetter, setterCheck_none.2 ⟨hm, ho⟩]

include hd

/-- A control element of the other direction is refused first (R127, R322). -/
theorem complete_ceSetter_dir (ha : allowed d t = false) (pay : Bytes) :
    complete (ceSetter t pay s) = .next (s.answered .dir (-1)) := by
  rw [ceSetter_ready hm ho, setCe, if_pos (hd ▸ ha), complete_fail]

/-- An allowed control element that does not fit is refused (R122, R127). -/
theorem complete_ceSetter_space (ha : allowed d t = true) {pay : Bytes} (h : s.enc.rem.toNat < pay.length + 1) :
    complete (ceSetter t pay s) = .next (s.answered .space (-1)) := by
  have hfits : s.enc.ceFits pay.length = false := by simpa [Enc.ceFits] using h
  subst hd
  rw [ceSetter_ready hm ho, setCe, if_neg (by simp [ha]), if_pos hfits, complete_fail]

/-- An allowed control element that fits is committed (R122, R127). -/
theorem complete_ceSetter_commit (ha : allowed d t = true) {pay : Bytes} (h : pay.length + 1 ≤ s.enc.rem.toNat) :
    complete (ceSetter t pay s) = .next (s.ceCommitted t pay) := by
  have hfits : s.enc.ceFits pay.length = true := by simpa [Enc.ceFits] using h
  subst hd
  rw [ceSetter_ready hm ho, setCe, if_neg (by simp [ha]), if_neg (by simp [hfits]), complete_ok]
  rfl

/-- An allowed control-element setter answers `E_SPACE` exactly where its payload and header byte do not fit (R122,
R138). -/
theorem complete_ceSetter_space_iff (ha : allowed d t = true) (pay : Bytes) :
    ∃ u, complete (ceSetter t pay s) = .next u ∧ (u.err = .space ↔ ¬ pay.length + 1 ≤ s.enc.rem.toNat) := by
  by_cases h : pay.length + 1 ≤ s.enc.rem.toNat
  · exact ⟨_, complete_ceSetter_commit hm ho hd ha h, by simp [State.ceCommitted, State.answered, h]⟩
  · exact ⟨_, complete_ceSetter_space hm ho hd ha (by omega), by simp [State.answered, h]⟩

end

/-! ### Every end of a setter with an open slot (R125) -/

/-- The slot of `e` is filled in `f`: one more record, the slot closed, the other records kept (R125). -/
def Enc.FilledIn (e f : Enc) : Prop :=
  f.isOpen = false ∧ f.nsub = e.nsub + 1 ∧ ∀ j : BitVec 5, j ≠ e.nsub → f.recAt j = e.recAt j

theorem filledIn_commitCe (e : Enc) (t : CeType) (pay : Bytes) : e.FilledIn (e.commitCe t pay) :=
  ⟨rfl, rfl, fun _ hj => recAt_commitRec_ne hj _ (pay.length + 1)⟩

theorem filledIn_commitSdu (e : Enc) (l k : Nat) (b : Bytes) : e.FilledIn (e.commitSdu l k b) :=
  ⟨rfl, rfl, fun _ hj => recAt_commitRec_ne hj _ (k + 1 + e.lastExtra)⟩

/-- A sub-step of a setter fills the slot and succeeds, or leaves the encoder (R125). -/
def FillsOrKeeps (s : State) (p : State × Ret) : Prop :=
  (p.2.err = .ok ∧ s.enc.FilledIn p.1.enc) ∨ p.1.enc = s.enc

theorem ceSetter_fillsOrKeeps (t : CeType) (pay : Bytes) (s : State) : FillsOrKeeps s (ceSetter t pay s) := by
  rcases ceSetter_cases t pay s with ⟨h, -⟩ | ⟨-, -, -, -, h⟩
  · exact .inr (by rw [h])
  · rw [h]; exact .inl ⟨rfl, filledIn_commitCe s.enc t pay⟩

theorem setBsrBody_fillsOrKeeps (f : BsrFmt) (g : BitVec 2) (b0 b1 b2 b3 : Nat) (s : State) :
    FillsOrKeeps s (setBsrBody f g b0 b1 b2 b3 s) := by
  rcases setBsrBody_cases f g b0 b1 b2 b3 s with ⟨h, -⟩ | ⟨pay, -, -, h⟩ | ⟨pay, -, -, h⟩ | ⟨pay, -, -, h⟩
  · exact .inr (by rw [h])
  all_goals rw [h]; exact ceSetter_fillsOrKeeps _ pay s

theorem setSduBody_fillsOrKeeps (l q : Nat) (s : State) : FillsOrKeeps s (setSduBody l q s) := by
  rcases setSduBody_cases l q s with ⟨h, -⟩ | ⟨-, -, -, -, -, h, -⟩ | ⟨-, -, -, -, -, k, -, -, -, -, h⟩
  · exact .inr (by rw [h])
  · exact .inr (by rw [h]; rfl)
  · rw [h]; exact .inl ⟨rfl, filledIn_commitSdu s.enc l k _⟩

/-- Every setter fills the slot or leaves the encoder. -/
theorem setter_fillsOrKeeps {i : Instr} (hi : isSetter i = true) (s : State) :
    ∃ p, exec i s = complete p ∧ FillsOrKeeps s p := by
  rcases setter_cases hi with ⟨l, q, rfl⟩ | ⟨f, g, b0, b1, b2, b3, rfl⟩ | ⟨t, pay, -, hexec⟩
  · exact ⟨_, rfl, setSduBody_fillsOrKeeps l q s⟩
  · exact ⟨_, rfl, setBsrBody_fillsOrKeeps f g b0 b1 b2 b3 s⟩
  · exact ⟨_, hexec s, ceSetter_fillsOrKeeps t pay s⟩

/-! ### The capacity (R38, R121, R139) -/

/-- The correction for the last SDU is 1 or 2 bytes by its length, 0 where there is none (R121). -/
theorem lastExtra_eq_elim (e : Enc) :
    e.lastExtra = (e.lastSdu.map fun i => recLen (e.recAt i)).elim 0 fun n => hdrSize n - 1 := by
  unfold Enc.lastExtra
  cases e.lastSdu <;> rfl

theorem lastExtra_eq_two_iff (e : Enc) :
    e.lastExtra = 2 ↔ ∃ i, e.lastSdu = some i ∧ 128 ≤ recLen (e.recAt i) := by
  cases hl : e.lastSdu with
  | none => simp [Enc.lastExtra, hl]
  | some i =>
    rw [lastExtra_eq hl, hdrSize]
    split <;> simp <;> omega

/-- The SDU record written out with the charge in two parts, as R126 gives it. -/
theorem commitSdu_rem_sub (l k : Nat) (b : Bytes) (e : Enc) :
    (e.commitSdu l k b).rem = BitVec.ofNat 16 (e.rem.toNat - (k + 1) - e.lastExtra) := by
  rw [commitSdu_rem, Nat.sub_sub]

/-- The capacity that a PDU under construction has left is a function of its size, of its committed records in any
order, and of the last SDU's header correction (R38, R139). -/
theorem rem_eq_of_perm {e f : Enc} (he : e.lastSduOk) (hf : f.lastSduOk) (hae : e.accounted) (haf : f.accounted)
    (hn : e.n = f.n) (hperm : e.committed.Perm f.committed) (hx : e.lastExtra = f.lastExtra) : e.rem = f.rem := by
  have hlen := (hperm.map fun r => 1 + recLen r).sum_eq
  have hhdr := (hperm.map sduHeaderExtra).sum_eq
  have h1 := (accounted_iff he).1 hae
  have h2 := (accounted_iff hf).1 haf
  rw [hn, hx, hlen, hhdr] at h1
  exact BitVec.eq_of_toNat_eq (by omega)

end Sys2Proof.Machine

namespace Sys2Proof.Proofs

open Sys2Proof.Machine

/-- Settles O14: the failing precondition is the slot's, and with a slot each setter commits one record or none. -/
theorem setterNeedsOpenSlot : Obligations.SetterNeedsOpenSlot := by
  intro i s hi hm
  refine ⟨fun hclosed => exec_setter_refused hi (setterCheck_some.2 (.inr ⟨hm, hclosed, rfl⟩)), fun _ => ?_⟩
  obtain ⟨p, hexec, hp⟩ := setter_fillsOrKeeps hi s
  refine ⟨finish p, hexec, ?_⟩
  rcases hp with ⟨herr, hclosed, hnsub, hkept⟩ | hkept
  · exact .inl ⟨herr, hclosed, hnsub, hkept⟩
  · exact .inr hkept

/-- Settles O16: the answer is usable, so SET_SDU commits it; the record's charge is R126's in two parts. -/
theorem setSduCommitsAnswer : Obligations.SetSduCommitsAnswer := by
  intro l q k s hm ho hl hq hk h1 hkq hlen extra
  have husable : answerCommits q (nextPduAnswer l q s.agents).1 := by
    unfold answerCommits; omega
  rcases setSduBody_open hm ho (l := l) hl (by omega) hq with ⟨-, hbody⟩ | ⟨hnot, -⟩
  · have hextra : s.enc.lastExtra = extra := rfl
    refine (congrArg complete hbody).trans ?_
    rw [hk, Int.toNat_natCast, complete_ok, ← hextra, ← commitSdu_rem_sub l k (nextPduAnswer l q s.agents).1.bytes]
    rfl
  · exact absurd husable hnot

/-- Settles O18: each setter is `SetCE` of its type and payload, which is allowed and fits; the BSR payloads are
rewritten from the frame format's form (R95, R96) to the model's. -/
theorem ceSetterCommitsPayload : Obligations.CeSetterCommitsPayload := by
  intro s hm ho commit level
  refine ⟨fun hd => ⟨fun h g b0 b1 b2 b3 => ?_, fun h g b0 b1 b2 b3 => ?_, fun h ph => ?_, fun h r => ?_⟩,
    fun hd => ⟨fun h id => ?_, fun h ta => ?_⟩⟩
  · have hpay : ([g ++ level ([b0, b1, b2, b3].getD g.toNat 0)] : Bytes)
        = shortBsrBytes g (s.bsrLevel6 (groupOperand g b0 b1 b2 b3)) := by rw [groupOperand_eq_getD]; rfl
    rw [hpay]
    exact ⟨complete_ceSetter_commit hm ho hd rfl h, complete_ceSetter_commit hm ho hd rfl h⟩
  · rw [← longBsrBytes_eq]
    exact complete_ceSetter_commit hm ho hd rfl h
  · exact complete_ceSetter_commit hm ho hd rfl h
  · exact complete_ceSetter_commit hm ho hd rfl h
  · exact complete_ceSetter_commit hm ho hd rfl h
  · exact complete_ceSetter_commit hm ho hd rfl h

/-- Settles O22: the capacity is determined by the accounting law, in which the records stand in sums. -/
theorem remIndependentOfInterleaving : Obligations.RemIndependentOfInterleaving := by
  intro p e f he hf hme hmf hn hperm hlast
  have hx : e.lastExtra = f.lastExtra := by rw [lastExtra_eq_elim, lastExtra_eq_elim, hlast]
  exact rem_eq_of_perm he.last_sdu hf.last_sdu (he.accounting hme) (hf.accounting hmf) hn hperm hx

/-- Settles O11: the size is refused outside 1..`MAX_TB_BYTES` and otherwise starts the PDU. -/
theorem initTxStartsPdu : Obligations.InitTxStartsPdu := by
  intro dir n s
  refine ⟨fun h => ?_, fun h => ?_⟩
  · have hbody : initTxBody dir n s = ok n { s with
        enc := { s.enc.start .build dir (BitVec.ofNat 16 n) (BitVec.ofNat 16 n) with tbValid := false } } :=
      if_neg (by omega)
    exact congrArg complete hbody
  · have hbody : initTxBody dir n s = fail .tbSize (-1) { s with enc := s.enc.toIdle } := if_pos (by omega)
    exact congrArg complete hbody

/-- Settles O12: the checks in their order. -/
theorem newSubhOpensSlot : Obligations.NewSubhOpensSlot := by
  intro s
  have hexec : ∀ p, newSubhBody s = p → exec .newSubh s = complete p := fun _ h => congrArg complete h
  refine ⟨fun hm => hexec (fail .state (-1) s) ?_, fun hm ho => hexec (ok 1 s) ?_,
    fun hm ho hfull => hexec (fail .noSubh (-1) s) ?_,
    fun hm ho hfree => hexec (ok 1 { s with enc := { s.enc with isOpen := true } }) ?_⟩
  · rw [newSubhBody, if_pos hm]
  · rw [newSubhBody, if_neg (not_not.2 hm), if_pos ho]
  · rw [newSubhBody, if_neg (not_not.2 hm), if_neg (by simp [ho]), if_pos hfull]
  · rw [newSubhBody, if_neg (not_not.2 hm), if_neg (by simp [ho]), if_neg hfree]

/-- Settles O13: every command of the three kinds checks the mode first. -/
theorem outsideBuildRefused : Obligations.OutsideBuildRefused := by
  intro i s hm
  refine ⟨?_, fun hq => ?_⟩
  · rintro (rfl | rfl | hset)
    · exact (newSubhOpensSlot s).1 hm
    · have hbody : writeBody s = fail .state (-1) s := if_pos hm
      exact congrArg complete hbody
    · exact exec_setter_refused hset (setterCheck_some.2 (.inl ⟨hm, rfl⟩))
  · obtain ⟨r, hexec⟩ := query_cases hq s
    rw [hexec, queryBody_outside hm, complete_fail]

/-- Settles O15: the correction for the last SDU is at most 2, and is 2 from a last SDU of 128 bytes on. -/
theorem sduSpaceFormula : Obligations.SduSpaceFormula := by
  intro e
  have hle := lastExtra_le e
  have htwo := lastExtra_eq_two_iff e
  have hrem : e.rem = 0 ↔ e.rem.toNat = 0 := by rw [← BitVec.toNat_inj]; rfl
  refine ⟨fun h => ?_, fun i h => ?_, ?_, ?_⟩
  · simp [Enc.sduSpace, Enc.lastExtra, h]
  · rw [Enc.sduSpace, lastExtra_eq h, hdrSize]
    split <;> rfl
  · unfold Enc.sduSpace; omega
  · rw [hrem, ← htwo, Enc.sduSpace]; omega

/-- Settles O17: the checks in their order, then the two answers that commit nothing. -/
theorem setSduCommitsNothing : Obligations.SetSduCommitsNothing := by
  intro l q s hm ho
  have hexec : ∀ p, setSduBody l q s = p → exec (.setSdu l q) s = complete p := fun _ h => congrArg complete h
  refine ⟨fun hl => ?_, fun hl hq => ?_, fun hl hq hs => hexec _ (setSduBody_noSpace hm ho hl hq hs),
    fun hl hq hs => ?_⟩
  · exact hexec _ ((setSduBody_checked hm ho l q).trans (if_pos hl))
  · exact hexec _ ((setSduBody_checked hm ho l q).trans ((if_neg (Nat.not_lt.2 hl)).trans (if_pos hq)))
  · have hasks := setSduBody_asks hm ho hl hq hs
    exact ⟨fun h => hexec _ (hasks.trans (setSduAnswered_refused (badAnswer_true.2 h) _)),
      fun hk hb => hexec _ (hasks.trans (setSduAnswered_empty hk hb _))⟩

/-- Settles O19: the format, then the direction, then the space. -/
theorem ceSetterRefusals : Obligations.CeSetterRefusals := by
  intro s hm ho
  refine ⟨fun g b0 b1 b2 b3 => ?_, fun hd => ⟨?_, ?_, ?_, ?_, ?_⟩, fun hd => ⟨?_, ?_, ?_, ?_, ?_, ?_⟩⟩
  · have hbody : setBsrBody .reserved g b0 b1 b2 b3 s = fail .arg (-1) s := by
      unfold setBsrBody; rw [setterCheck_none.2 ⟨hm, ho⟩]
    exact congrArg complete hbody
  · intro f g b0 b1 b2 b3 hf
    cases f with
    | reserved => exact absurd rfl hf
    | short | long | trunc => exact complete_ceSetter_dir hm ho hd rfl _
  · exact fun ph => complete_ceSetter_dir hm ho hd rfl _
  · exact fun r => complete_ceSetter_dir hm ho hd rfl _
  · exact fun h id => complete_ceSetter_space hm ho hd rfl h
  · exact fun h ta => complete_ceSetter_space hm ho hd rfl h
  · exact fun id => complete_ceSetter_dir hm ho hd rfl _
  · exact fun ta => complete_ceSetter_dir hm ho hd rfl _
  · exact fun h g b0 b1 b2 b3 => complete_ceSetter_space hm ho hd rfl h
  · rintro h f g b0 b1 b2 b3 (rfl | rfl) <;> exact complete_ceSetter_space hm ho hd rfl h
  · exact fun h ph => complete_ceSetter_space hm ho hd rfl h
  · exact fun h r => complete_ceSetter_space hm ho hd rfl h

/-- Settles O20: in BUILD a query answers its value. -/
theorem capacityQueriesAnswer : Obligations.CapacityQueriesAnswer := by
  intro s hm
  have hquery : ∀ r, complete (queryBody r s) = .next (s.answered .ok r) := fun r =>
    congrArg complete (queryBody_build hm r)
  refine ⟨fun nb => hquery _, fun nb => ?_, hquery _, hquery _⟩
  have hfits : (if s.enc.ceFits nb then (1 : Int) else 0) = if nb + 1 ≤ s.enc.rem.toNat then 1 else 0 := by
    simp [Enc.ceFits]
  exact hfits ▸ hquery _

/-- Settles O21: the setter and its query decide on the same space. -/
theorem spaceQueriesAgreeWithSetters : Obligations.SpaceQueriesAgreeWithSetters := by
  intro s hm ho
  obtain ⟨hsdu, hce, -, -⟩ := capacityQueriesAnswer s hm
  constructor
  · intro l q hl hq
    refine ⟨_, _, rfl, hsdu q, ?_⟩
    rw [answered_flag_res, finish_err]
    by_cases hs : (q : Int) ≤ s.enc.sduSpace
    · rw [setSduBody_asks hm ho hl hq.ne' hs]
      simp [setSduAnswered_err_ne_space, hs]
    · rw [setSduBody_noSpace hm ho hl hq.ne' (by omega)]
      simp [hs]
  · have agree : ∀ {d : Dir} (t : CeType) (pay : Bytes), s.enc.dir = d → allowed d t = true →
        ∃ u v, complete (ceSetter t pay s) = .next u ∧ exec (.hasSpaceCe pay.length) s = .next v ∧
          (u.err = .space ↔ v.res = 0) := by
      intro d t pay hd ha
      obtain ⟨u, hu, hspace⟩ := complete_ceSetter_space_iff hm ho hd ha pay
      exact ⟨u, _, hu, hce pay.length, hspace.trans (answered_flag_res _ s).symm⟩
    rintro i c (⟨hd, hul⟩ | ⟨hd, hdl⟩)
    · rcases hul with ⟨g, b0, b1, b2, b3, rfl, rfl⟩ | ⟨g, b0, b1, b2, b3, rfl, rfl⟩ | ⟨g, b0, b1, b2, b3, rfl, rfl⟩ |
        ⟨ph, rfl, rfl⟩ | ⟨r, rfl, rfl⟩
      · exact agree .shortBsr (shortBsrBytes g _) hd rfl
      · exact agree .longBsr (longBsrBytes _ _ _ _) hd rfl
      · exact agree .truncBsr (shortBsrBytes g _) hd rfl
      · exact agree .phr (phrBytes _) hd rfl
      · exact agree .crnti (crntiBytes r) hd rfl
    · rcases hdl with ⟨id, rfl, rfl⟩ | ⟨ta, rfl, rfl⟩
      · exact agree .conres (conresBytes id) hd rfl
      · exact agree .ta (taBytes ta) hd rfl

end Sys2Proof.Proofs

/-! SUPPORT. WRITE (41_pdu_write.md): the bytes of the header as numbers (R173), the two padding regimes (R171, R172), and
the ends of WRITE in BUILD (R176-R179). -/

namespace Sys2Proof.Machine

open Sys2Proof.Config

/-! ### The bytes of a subheader (R173) -/

theorem sh1_eq_ofNat (e : Bool) (lcid : BitVec 5) :
    sh1 e lcid = BitVec.ofNat 8 ((if e then 32 else 0) + lcid.toNat) := by
  apply BitVec.eq_of_toNat_eq
  have hl := lcid.isLt
  rw [sh1, toNat_append_eq, toNat_append_eq, BitVec.toNat_ofNat]
  cases e <;> simp <;> omega

theorem shortLength_eq_ofNat {len : BitVec 15} (h : len.toNat < 128) :
    (0 : BitVec 1) ++ len.extractLsb 6 0 = BitVec.ofNat 8 len.toNat := by
  apply BitVec.eq_of_toNat_eq
  rw [toNat_append_eq, BitVec.extractLsb_toNat, BitVec.toNat_ofNat]
  simp; omega

theorem longLengthHigh_eq_ofNat (len : BitVec 15) :
    (1 : BitVec 1) ++ len.extractLsb 14 8 = BitVec.ofNat 8 (128 + len.toNat / 256) := by
  apply BitVec.eq_of_toNat_eq
  have hl := len.isLt
  rw [toNat_append_eq, BitVec.extractLsb_toNat, BitVec.toNat_ofNat, Nat.shiftRight_eq_div_pow]
  simp; omega

theorem longLengthLow_eq_ofNat (len : BitVec 15) : len.extractLsb 7 0 = BitVec.ofNat 8 (len.toNat % 256) := by
  apply BitVec.eq_of_toNat_eq
  rw [BitVec.extractLsb_toNat, BitVec.toNat_ofNat]
  simp

theorem subheader_short (lcid : BitVec 5) {len : BitVec 15} (h : len.toNat < 128) :
    subheader false (.entry (.sdu lcid len)) = [sh1 true lcid, (0 : BitVec 1) ++ len.extractLsb 6 0] := by
  simp [subheader, h]

theorem subheader_long (lcid : BitVec 5) {len : BitVec 15} (h : ¬ len.toNat < 128) :
    subheader false (.entry (.sdu lcid len))
      = [sh1 true lcid, (1 : BitVec 1) ++ len.extractLsb 14 8, len.extractLsb 7 0] := by
  simp [subheader, h]

/-- `SubheaderBytes(L)` is the non-last subheaders, then the last one (R173). -/
theorem subheaderBytes_append_last (xs : List LayoutItem) (x : LayoutItem) :
    subheaderBytes (xs ++ [x]) = xs.flatMap (subheader false) ++ subheader true x := by
  induction xs with
  | nil => rfl
  | cons y ys ih =>
    obtain ⟨z, zs, hz⟩ := List.exists_cons_of_ne_nil (show ys ++ [x] ≠ [] by simp)
    rw [List.cons_append, hz, subheaderBytes, ← hz, ih, List.flatMap_cons, List.append_assoc]

/-! ### The padding regimes (R171, R172) -/

section
variable {e : Enc}

theorem padRegime_multi (h : 2 < e.rem.toNat) :
    e.padRegime = { multi := true, p12 := 0, padn := e.rem.toNat - 1 - e.lastExtra } :=
  if_pos h

theorem padRegime_fixed (h : e.rem.toNat ≤ 2) : e.padRegime = { multi := false, p12 := e.rem.toNat, padn := 0 } :=
  if_neg (Nat.not_lt.2 h)

theorem layoutList_multi (h : 2 < e.rem.toNat) : e.layoutList e.padRegime = e.entries ++ [.pad] := by
  rw [padRegime_multi h]; rfl

theorem layoutList_fixed (h : e.rem.toNat ≤ 2) :
    e.layoutList e.padRegime = List.replicate e.rem.toNat .pad ++ e.entries := by
  rw [padRegime_fixed h, Enc.layoutList, Enc.entries]
  simp

theorem headerBytes_multi (h : 2 < e.rem.toNat) : e.headerBytes = subheaderBytes (e.entries ++ [.pad]) := by
  rw [Enc.headerBytes, layoutList_multi h]

theorem headerBytes_fixed (h : e.rem.toNat ≤ 2) :
    e.headerBytes = subheaderBytes (List.replicate e.rem.toNat .pad ++ e.entries) := by
  rw [Enc.headerBytes, layoutList_fixed h]

/-- Each record has one subheader, and padding has at most two (R180). -/
theorem layoutList_length_le {p : Params} (h : EncOk p e) : (e.layoutList e.padRegime).length ≤ p.maxSubh + 2 := by
  have hle := h.nsub_le
  rcases Nat.lt_or_ge 2 e.rem.toNat with hr | hr
  · rw [layoutList_multi hr, List.length_append, entries_length, List.length_singleton]; omega
  · rw [layoutList_fixed hr, List.length_append, entries_length, List.length_replicate]; omega

/-! ### A PDU without records (R181) -/

theorem committed_of_empty (hn : e.nsub = 0) : e.committed = [] :=
  List.eq_nil_of_length_eq_zero (by rw [committed_length, hn]; rfl)

theorem entries_of_empty (hn : e.nsub = 0) : e.entries = [] :=
  List.eq_nil_of_length_eq_zero (by rw [entries_length, hn]; rfl)

theorem cePayloadBytes_of_empty (hn : e.nsub = 0) : e.cePayloadBytes = [] := by
  rw [Enc.cePayloadBytes, Enc.ceRecs, committed_of_empty hn]; rfl

/-- A PDU under construction has at least one subheader: without a record, all of its `N >= 1` bytes remain (R172). -/
theorem layoutList_ne_nil {p : Params} (h : EncOk p e) (hm : e.mode = .build) : e.layoutList e.padRegime ≠ [] := by
  rcases Nat.lt_or_ge 2 e.rem.toNat with hr | hr
  · rw [layoutList_multi hr]; simp
  · intro hnil
    have hlen := congrArg List.length ((layoutList_fixed hr).symm.trans hnil)
    simp only [List.length_append, List.length_replicate, entries_length, List.length_nil] at hlen
    have hnsub : e.nsub = 0 := BitVec.eq_of_toNat_eq (by simp; omega)
    have hpos := (h.size_in_range (by simp [hm])).1
    have hall : e.n.toNat = e.rem.toNat := by
      simpa [Enc.accounted, Enc.committedBytes, Enc.nonLastExtra, committed_of_empty hnsub, hnsub] using h.accounting hm
    omega

/-- The padding-only block of `n` bytes (R181). -/
def paddingBlock (n : Nat) : Bytes :=
  if n = 1 then [0x1F] else if n = 2 then [0x3F, 0x1F] else 0x1F :: List.replicate (n - 1) 0

theorem paddingBlock_length {n : Nat} (h : 1 ≤ n) : (paddingBlock n).length = n := by
  unfold paddingBlock
  split
  · simp_all
  split
  · simp_all
  · simp; omega

/-- What WRITE lays out for a PDU without records: a header of at most 2 bytes, and the padding-only block (R181). -/
theorem assembleTb_of_empty (hn : e.nsub = 0) (hl : e.lastSdu = none) (hd : e.sduData = []) (h1 : 1 ≤ e.rem.toNat) :
    e.headerBytes.length ≤ 2 ∧
      assembleTb e.headerBytes e.cePayloadBytes e.sduData e.padRegime.padn = paddingBlock e.rem.toNat := by
  rw [cePayloadBytes_of_empty hn, hd, paddingBlock]
  rcases Nat.lt_or_ge 2 e.rem.toNat with hr | hr
  · have hx : e.lastExtra = 0 := by simp [Enc.lastExtra, hl]
    rw [headerBytes_multi hr, padRegime_multi hr, entries_of_empty hn, hx, if_neg (by omega), if_neg (by omega)]
    exact ⟨by decide, rfl⟩
  · rw [headerBytes_fixed hr, padRegime_fixed hr, entries_of_empty hn]
    obtain h | h : e.rem.toNat = 1 ∨ e.rem.toNat = 2 := by omega
    all_goals rw [h]; exact ⟨by decide, rfl⟩

end

/-! ### The ends of WRITE in BUILD (R176-R179) -/

section
variable {s : State}

theorem writeBody_build (hm : s.enc.mode = .build) :
    writeBody s = finaliseTb s.enc.headerBytes s.enc.cePayloadBytes s.enc.padRegime.padn
      { s with enc := { s.enc with isOpen := false } } :=
  if_neg (not_not.2 hm)

/-- The block WRITE lays out for the records of the encoder (R175). -/
def Enc.block (e : Enc) : Bytes := assembleTb e.headerBytes e.cePayloadBytes e.sduData e.padRegime.padn

/-- The end of a WRITE that succeeds (R178). -/
def writeCommit (s : State) : State × Ret :=
  ok s.enc.n.toNat (commitTb s.enc.block { s with enc := { s.enc with isOpen := false } })

theorem writeBody_commits (hm : s.enc.mode = .build)
    (hreserve : s.enc.headerBytes.length + s.enc.cePayloadBytes.length ≤ s.params.hdrReserve)
    (hsize : s.enc.block.length = s.enc.n.toNat) : writeBody s = writeCommit s := by
  rw [Enc.block, assembleTb_length] at hsize
  rw [writeBody_build hm]
  exact (if_neg (Nat.not_lt.2 hreserve)).trans (if_neg (not_not.2 hsize))

/-- The block of a PDU under construction has the size of the PDU (R179). -/
theorem block_length {p : Params} {e : Enc} (h : EncOk p e) (hm : e.mode = .build) : e.block.length = e.n.toNat :=
  (assembleTb_length _ _ _ _).trans (block_size_exact h hm)

/-- With a sufficient header region neither fatal check fires (R177, R179). -/
theorem writeBody_of_encOk (h : EncOk s.params s.enc) (hr : reserveSuffices s.params) (hm : s.enc.mode = .build) :
    writeBody s = writeCommit s :=
  writeBody_commits hm ((reserve_bound h hm).trans hr) (block_length h hm)

/-- A WRITE that answers OK has committed the block, whatever the header region (R170). -/
theorem writeBody_of_ok (h : (writeBody s).2.err = .ok) : writeBody s = writeCommit s := by
  rcases writeBody_cases s with ⟨-, hbody⟩ | ⟨-, e, rfl | rfl, hbody⟩ | ⟨-, -, hbody⟩
  · rw [hbody] at h; cases h
  · rw [hbody] at h; cases h
  · rw [hbody] at h; cases h
  · exact hbody

end

end Sys2Proof.Machine

namespace Sys2Proof.Proofs

open Sys2Proof.Machine

/-- Settles O23: neither fatal check fires, and the pieces add up to `N`. -/
theorem writeProducesExactBlock : Obligations.WriteProducesExactBlock := by
  intro s h hr hm
  exact ⟨s.enc.block, block_length h.enc_ok hm, rfl, congrArg complete (writeBody_of_encOk h.enc_ok hr hm)⟩

/-- Settles O25: each row of the table is one kind of item, and the header is its items in order. -/
theorem subheaderTable : Obligations.SubheaderTable := by
  intro xs x firstByte notLast last longer
  have hnotLast : ∀ y, subheader false y = notLast y := by
    intro y
    rcases y with _ | (⟨lcid, len⟩ | ⟨t, lcid, len, pay⟩)
    · rfl
    · by_cases h : len.toNat < 128
      · rw [subheader_short lcid h, shortLength_eq_ofNat h, sh1_eq_ofNat]
        exact (if_pos h).symm
      · rw [subheader_long lcid h, longLengthHigh_eq_ofNat, longLengthLow_eq_ofNat, sh1_eq_ofNat]
        exact (if_neg h).symm
    · exact congrArg (fun b => [b]) (sh1_eq_ofNat true lcid)
  have hlast : subheader true x = last x := by
    rcases x with _ | (⟨lcid, len⟩ | ⟨t, lcid, len, pay⟩)
    · rfl
    all_goals exact congrArg (fun b => [b]) (sh1_eq_ofNat false lcid)
  have hlonger : ∀ y, itemExtra y = longer y := by
    intro y
    rcases y with _ | (⟨lcid, len⟩ | ⟨t, lcid, len, pay⟩) <;> rfl
  rw [subheaderBytes_length, subheaderBytes_append_last, funext hnotLast, hlast, funext hlonger]
  exact ⟨rfl, rfl⟩

/-- Settles O26: INIT_TX leaves no record and all of `N`, and the block laid out for that fits a region of 2 bytes. -/
theorem paddingOnlyBlocks : Obligations.PaddingOnlyBlocks := by
  intro dir n s hlegal hreserve h1 hn
  have h16 := toNat_size hlegal hn
  obtain ⟨t, ht, hparams, hmode, hnsub, hlast, hdata, hsize, hrem⟩ :
      ∃ t, exec (.initTx dir n) s = .next t ∧ t.params = s.params ∧ t.enc.mode = .build ∧ t.enc.nsub = 0 ∧
        t.enc.lastSdu = none ∧ t.enc.sduData = [] ∧ t.enc.n.toNat = n ∧ t.enc.rem.toNat = n :=
    ⟨_, (initTxStartsPdu dir n s).1 ⟨h1, hn⟩, rfl, rfl, rfl, rfl, rfl, h16, h16⟩
  obtain ⟨hheader, hblock⟩ := assembleTb_of_empty hnsub hlast hdata (by omega)
  rw [hrem] at hblock
  have hfits : t.enc.headerBytes.length + t.enc.cePayloadBytes.length ≤ t.params.hdrReserve := by
    rw [cePayloadBytes_of_empty hnsub, hparams]; exact hheader.trans hreserve
  have hlen : t.enc.block.length = t.enc.n.toNat := by rw [Enc.block, hblock, paddingBlock_length h1, hsize]
  refine ⟨t, _, ht, congrArg complete (writeBody_commits hmode hfits hlen), rfl, ?_, hblock⟩
  simp [writeCommit, hsize]

/-- Settles O24: the two regimes, the second at each of its three values of `REM`. -/
theorem headerOrderAndPadding : Obligations.HeaderOrderAndPadding := by
  intro e ces sdus
  have hfixed : ∀ k ≤ 2, e.rem.toNat = k →
      e.headerBytes = subheaderBytes (List.replicate k .pad ++ (ces ++ sdus)) ∧ e.padRegime.padn = 0 := by
    rintro k hk rfl
    exact ⟨headerBytes_fixed hk, by rw [padRegime_fixed hk]⟩
  refine ⟨fun h => ⟨headerBytes_multi h, ?_⟩, hfixed 2 (by decide), hfixed 1 (by decide), hfixed 0 (by decide)⟩
  have hle := lastExtra_le e
  have hpadn : (e.padRegime.padn : Int) = (e.rem.toNat : Int) - 1 - e.lastExtra := by
    rw [padRegime_multi h]; dsimp only; omega
  rw [hpadn]
  congr 1
  cases hl : e.lastSdu with
  | none => simp [Enc.lastExtra, hl]
  | some i => by_cases hlen : recLen (e.recAt i) < 128 <;> simp [lastExtra_eq hl, hdrSize, hlen]

/-- Settles O27: the checks in their order; both abort the PDU after the open slot is dropped. -/
theorem fatalWriteAborts : Obligations.FatalWriteAborts := by
  intro s hm aborted hc
  have hexec : ∀ e, writeBody s = fail e (-1) (abortPdu { s with enc := { s.enc with isOpen := false } }) →
      exec .write s = .next (aborted.answered e (-1)) := fun e h => congrArg complete h
  refine ⟨fun h => hexec _ ?_, fun h hne => hexec _ ?_⟩
  · exact (writeBody_build hm).trans (if_pos h)
  · exact (writeBody_build hm).trans ((if_neg (Nat.not_lt.2 h)).trans (if_pos hne))

end Sys2Proof.Proofs

/-! SUPPORT. The round trip (41_pdu_write.md R180): the parser's walk over a header that WRITE has laid out reads the
records of the layout, and the payloads it delimits are the ones WRITE put there. -/

namespace Sys2Proof.Machine

open Sys2Proof.Config

/-! ### The fields of a subheader as the parser reads them (R87-R90) -/

/-- The bit above the lower field of a register is the lowest bit of the upper one (R9). -/
theorem getLsbD_append_above {m n : Nat} (x : BitVec m) (y : BitVec n) : (x ++ y).getLsbD n = x.getLsbD 0 :=
  BitVec.getLsbD_append.trans (by simp only [Nat.lt_irrefl, if_false, Nat.sub_self])

theorem sh1_lcid (e : Bool) (lcid : BitVec 5) : (sh1 e lcid).extractLsb 4 0 = lcid :=
  BitVec.extractLsb'_append_eq_right

theorem sh1_ext (e : Bool) (lcid : BitVec 5) : (sh1 e lcid).getLsbD 5 = e := by
  refine (getLsbD_append_above (0 ++ BitVec.ofBool e : BitVec 3) lcid).trans ?_
  cases e <;> rfl

theorem shortLength_read {len : BitVec 15} (h : len.toNat < 128) :
    ((0 : BitVec 1) ++ len.extractLsb 6 0).getLsbD 7 = false ∧
      (((0 : BitVec 1) ++ len.extractLsb 6 0).extractLsb 6 0).toNat = len.toNat := by
  refine ⟨getLsbD_append_above _ _, ?_⟩
  rw [BitVec.extractLsb, BitVec.extractLsb'_append_eq_right, BitVec.extractLsb_toNat]
  simp; omega

theorem longLength_read (len : BitVec 15) :
    ((1 : BitVec 1) ++ len.extractLsb 14 8).getLsbD 7 = true ∧
      (((1 : BitVec 1) ++ len.extractLsb 14 8).extractLsb 6 0 ++ len.extractLsb 7 0).toNat = len.toNat := by
  refine ⟨getLsbD_append_above _ _, ?_⟩
  have hhigh : ((1 : BitVec 1) ++ len.extractLsb 14 8).extractLsb 6 0 = len.extractLsb 14 8 :=
    BitVec.extractLsb'_append_eq_right
  have hlt := len.isLt
  rw [hhigh, toNat_append_eq, BitVec.extractLsb_toNat, BitVec.extractLsb_toNat, Nat.shiftRight_eq_div_pow]
  simp; omega

/-! ### The records the parser is to read for the items of a layout -/

/-- An item of a header: padding, or a record as the setters write it. -/
def LayoutItem.wf (dir : Dir) : LayoutItem → Prop
  | .pad => True
  | .entry r => recWf dir r

/-- The record of an item; it has `padn` bytes where the item is padding (R202, R203). -/
def LayoutItem.walked (padn : Nat) : LayoutItem → WalkRec
  | .pad => ⟨.pad, 31, padn⟩
  | .entry (.sdu lcid len) => ⟨.sdu, lcid, len.toNat⟩
  | .entry (.ce t lcid len _) => ⟨.ce t, lcid, len.toNat⟩

theorem classOf_pad (dir : Dir) : classOf dir 31 = some .pad := by cases dir <;> rfl

theorem classOf_sdu {dir : Dir} {lcid : BitVec 5} (h : lcid.toNat ≤ lcidSduMax) : classOf dir lcid = some .sdu :=
  if_pos h

/-- A control element that a direction may carry is known there by its LCID (R93, R94, R200). -/
theorem classOf_ceLcid {dir : Dir} {t : CeType} (h : allowed dir t = true) :
    classOf dir (ceLcid t) = some (.ce t) := by
  revert h; cases dir <;> cases t <;> decide

/-- The record of an item has the kind of its LCID, and a control element its size (R200). -/
theorem walkRecOk_walked {dir : Dir} {x : LayoutItem} (h : x.wf dir) (padn : Nat) :
    walkRecOk dir (x.walked padn) := by
  rcases x with _ | (⟨lcid, len⟩ | ⟨t, lcid, len, pay⟩)
  · exact ⟨classOf_pad dir, fun t ht => by cases ht⟩
  · exact ⟨classOf_sdu h.1, fun t ht => by cases ht⟩
  · obtain ⟨hallowed, rfl, hsize, -⟩ := h
    exact ⟨classOf_ceLcid hallowed, fun t' ht => by cases ht; exact hsize⟩

theorem entries_wf {p : Params} {e : Enc} (h : EncOk p e) : ∀ y ∈ e.entries, y.wf e.dir := by
  intro y hy
  rcases List.mem_append.1 hy with hy | hy <;>
  · obtain ⟨r, hr, rfl⟩ := List.mem_map.1 hy
    exact h.records_wf r (List.mem_filter.1 hr).1

theorem layoutList_wf {p : Params} {e : Enc} (h : EncOk p e) : ∀ y ∈ e.layoutList e.padRegime, y.wf e.dir := by
  rcases Nat.lt_or_ge 2 e.rem.toNat with hr | hr
  · rw [layoutList_multi hr]
    exact List.forall_mem_append.2 ⟨entries_wf h, by simp [LayoutItem.wf]⟩
  · rw [layoutList_fixed hr]
    exact List.forall_mem_append.2 ⟨fun y hy => by rw [List.eq_of_mem_replicate hy]; trivial, entries_wf h⟩

/-! ### The walk over a header that WRITE has laid out (R202) -/

section
variable {dir : Dir} {maxRx pos : Nat} {recs : List WalkRec}

theorem walkHeader_sh1_last {lcid : BitVec 5} {cls : DecCls} (hc : classOf dir lcid = some cls)
    (hmax : recs.length ≠ maxRx) (rest : Bytes) :
    walkHeader dir maxRx (sh1 false lcid :: rest) pos recs = .ok ⟨recs, ⟨cls, lcid, 0⟩, pos + 1⟩ := by
  rw [walkHeader.eq_def]
  simp only [if_neg hmax, sh1_lcid, hc, sh1_ext, if_true]

theorem walkHeader_subheader_last {x : LayoutItem} (hx : x.wf dir) (hmax : recs.length ≠ maxRx) (rest : Bytes) :
    walkHeader dir maxRx (subheader true x ++ rest) pos recs
      = .ok ⟨recs, { x.walked 0 with len := 0 }, pos + 1⟩ := by
  have hc := (walkRecOk_walked hx 0).1
  rcases x with _ | (⟨lcid, len⟩ | ⟨t, lcid, len, pay⟩) <;> exact walkHeader_sh1_last hc hmax rest

theorem walkHeader_subheader_notLast {x : LayoutItem} (hx : x.wf dir) (hmax : recs.length ≠ maxRx) (rest : Bytes) :
    walkHeader dir maxRx (subheader false x ++ rest) pos recs
      = walkHeader dir maxRx rest (pos + (subheader false x).length) (recs ++ [x.walked 0]) := by
  have hok := walkRecOk_walked hx 0
  rcases x with _ | (⟨lcid, len⟩ | ⟨t, lcid, len, pay⟩)
  · rw [subheader, List.singleton_append, walkHeader.eq_def]
    simp only [if_neg hmax, sh1_lcid, sh1_ext, classOf_pad]
    rfl
  · have hc : classOf dir lcid = some .sdu := hok.1
    by_cases hlen : len.toNat < 128
    · obtain ⟨hbit, hread⟩ := shortLength_read hlen
      rw [subheader_short lcid hlen, List.cons_append, List.singleton_append, walkHeader.eq_def]
      simp only [if_neg hmax, sh1_lcid, sh1_ext, hc, hbit, hread]
      rfl
    · obtain ⟨hbit, hread⟩ := longLength_read len
      rw [subheader_long lcid hlen, List.cons_append, List.cons_append, List.singleton_append, walkHeader.eq_def]
      simp only [if_neg hmax, sh1_lcid, sh1_ext, hc, hbit, hread]
      rfl
  · have hc : classOf dir lcid = some (.ce t) := hok.1
    rw [subheader, List.singleton_append, walkHeader.eq_def]
    simp only [if_neg hmax, sh1_lcid, sh1_ext, hc, ← hok.2 t rfl]
    rfl

/-- The walk reads a header item by item, and stops at the last one (R102, R202). -/
theorem walkHeader_subheaderBytes {x : LayoutItem} (hx : x.wf dir) (rest : Bytes) :
    ∀ (xs : List LayoutItem) (pos : Nat) (recs : List WalkRec), (∀ y ∈ xs, y.wf dir) →
      recs.length + xs.length < maxRx →
      walkHeader dir maxRx (subheaderBytes (xs ++ [x]) ++ rest) pos recs
        = .ok ⟨recs ++ xs.map (LayoutItem.walked 0), { x.walked 0 with len := 0 },
            pos + (subheaderBytes (xs ++ [x])).length⟩
  | [], pos, recs, _, hmax => by
    refine (walkHeader_subheader_last hx (Nat.ne_of_lt hmax) rest).trans ?_
    rw [List.map_nil, List.append_nil, List.nil_append, subheaderBytes, subheader_true_length]
  | y :: ys, pos, recs, hys, hmax => by
    rw [List.length_cons] at hmax
    have hsplit : subheaderBytes (y :: ys ++ [x]) = subheader false y ++ subheaderBytes (ys ++ [x]) := by
      simp only [subheaderBytes_append_last, List.flatMap_cons, List.append_assoc]
    rw [hsplit, List.append_assoc, walkHeader_subheader_notLast (hys y (by simp)) (by omega),
      walkHeader_subheaderBytes hx rest ys _ _ (fun z hz => hys z (by simp [hz])) (by simp; omega)]
    simp [Nat.add_assoc]

end

/-! ### The parse of a laid-out block (R203, R204) -/

/-- The last record takes what the others leave (R203). -/
theorem resolveLengths_walked {dir : Dir} {x : LayoutItem} (hx : x.wf dir) {before : List WalkRec} {hend n padn : Nat}
    (hn : hend + declaredLen (before ++ [x.walked padn]) = n) :
    resolveLengths n ⟨before, { x.walked 0 with len := 0 }, hend⟩ = .ok (before ++ [x.walked padn]) := by
  simp only [declaredLen, List.map_append, List.sum_append, List.map_cons, List.map_nil, List.sum_cons,
    List.sum_nil] at hn
  have hleft : n - (hend + declaredLen before) = (x.walked padn).len := by rw [declaredLen]; omega
  have hsize := (walkRecOk_walked hx padn).2
  unfold resolveLengths
  rw [if_neg (by rw [declaredLen]; dsimp only; omega)]
  rcases x with _ | (⟨lcid, len⟩ | ⟨t, lcid, len, pay⟩)
  · simp only [hleft]; rfl
  · simp only [hleft]; rfl
  · simp only [hleft]; exact if_neg (not_not.2 (hsize t rfl))

/-- A header, followed by as many bytes as its records have, parses to those records. -/
theorem parse_layout {dir : Dir} {maxRx padn : Nat} {xs : List LayoutItem} {x : LayoutItem} {payload : Bytes}
    (hwf : ∀ y ∈ xs ++ [x], y.wf dir) (hmax : xs.length < maxRx)
    (hlen : declaredLen (xs.map (LayoutItem.walked 0) ++ [x.walked padn]) = payload.length) :
    parse dir maxRx (subheaderBytes (xs ++ [x]) ++ payload).length (subheaderBytes (xs ++ [x]) ++ payload)
      = .ok (withOffsets (subheaderBytes (xs ++ [x])).length (xs.map (LayoutItem.walked 0) ++ [x.walked padn])) := by
  have hx := hwf x (by simp)
  have hwalk := walkHeader_subheaderBytes hx payload xs 0 [] (fun y hy => hwf y (by simp [hy])) (by simpa using hmax)
  rw [List.nil_append, Nat.zero_add] at hwalk
  have hresolve := resolveLengths_walked hx (before := xs.map (LayoutItem.walked 0))
    (hlen ▸ (List.length_append (as := subheaderBytes (xs ++ [x])) (bs := payload)).symm)
  simp only [parse, hwalk, hresolve]

/-! ### The records with their payloads (R174, R180) -/

/-- A parsed record without its payload. -/
def Parsed.walkRec (q : Parsed) : WalkRec := ⟨q.cls, q.lcid, q.len⟩

/-- A record of the decoder's table with its payload, delimited in the data `d` (R204). -/
def parsedIn (d : Bytes) (r : DecRec) : Parsed :=
  { cls := r.cls, lcid := r.lcid, len := r.len.toNat, payload := (d.drop r.off.toNat).take r.len.toNat }

theorem parsed_eq (s : State) : s.parsed = s.dec.recs.map (parsedIn s.dec.data) := rfl

/-- Records whose payloads lie one after the other from the end of the header on are delimited exactly (R204). -/
theorem parsedIn_withOffsets : ∀ (qs : List Parsed) (hdr : Bytes), (∀ q ∈ qs, q.payload.length = q.len) →
    (hdr ++ qs.flatMap Parsed.payload).length < 65536 →
    (withOffsets hdr.length (qs.map Parsed.walkRec)).map (parsedIn (hdr ++ qs.flatMap Parsed.payload)) = qs
  | [], _, _, _ => rfl
  | q :: qs, hdr, hlen, hfit => by
    have hq := hlen q (by simp)
    have ih := parsedIn_withOffsets qs (hdr ++ q.payload) (fun r hr => hlen r (by simp [hr]))
    simp only [List.flatMap_cons, List.length_append] at hfit ih ⊢
    have hoff : (BitVec.ofNat 16 hdr.length).toNat = hdr.length := by rw [BitVec.toNat_ofNat]; omega
    have hlen16 : (BitVec.ofNat 16 q.len).toNat = q.len := by rw [BitVec.toNat_ofNat]; omega
    have htake : (q.payload ++ qs.flatMap Parsed.payload).take q.len = q.payload := List.take_left' hq
    rw [List.map_cons, withOffsets, List.map_cons, ← List.append_assoc]
    congr 1
    · simp only [parsedIn, Parsed.walkRec, hoff, hlen16, List.append_assoc, List.drop_left, htake]
    · rw [hq] at ih; exact ih (by omega)

theorem ceParsed_walked (rs : List SubRec) :
    (ceParsed rs).map Parsed.walkRec = ((rs.filter fun r => !recIsSdu r).map .entry).map (LayoutItem.walked 0) := by
  induction rs with
  | nil => rfl
  | cons r rs ih =>
    cases r with
    | sdu l n => exact ih
    | ce t l n p => exact congrArg (_ :: ·) ih

theorem sduParsed_walked : ∀ (rs : List SubRec) (d : Bytes),
    (sduParsed rs d).map Parsed.walkRec = ((rs.filter recIsSdu).map .entry).map (LayoutItem.walked 0)
  | [], _ => rfl
  | .ce _ _ _ _ :: rs, d => sduParsed_walked rs d
  | .sdu _ n :: rs, d => congrArg (_ :: ·) (sduParsed_walked rs (d.drop n.toNat))

/-- The control elements' payloads are the payload bytes of R174, each of its record's length. -/
theorem ceParsed_payload {dir : Dir} : ∀ rs : List SubRec, (∀ r ∈ rs, recWf dir r) →
    (ceParsed rs).flatMap Parsed.payload = (rs.filter fun r => !recIsSdu r).flatMap recPay ∧
      ∀ q ∈ ceParsed rs, q.payload.length = q.len
  | [], _ => ⟨rfl, by simp [ceParsed]⟩
  | .sdu _ _ :: rs, h => ceParsed_payload rs fun r hr => h r (by simp [hr])
  | .ce t l n p :: rs, h => by
    obtain ⟨hbytes, hlen⟩ := ceParsed_payload rs fun r hr => h r (by simp [hr])
    obtain ⟨-, -, hn, hp⟩ := h (.ce t l n p) (by simp)
    exact ⟨congrArg (p ++ ·) hbytes, List.forall_mem_cons.2 ⟨hp.trans hn.symm, hlen⟩⟩

/-- The SDUs' payloads are the bytes the sources returned, each of its record's length (R28, R175). -/
theorem sduParsed_payload : ∀ (rs : List SubRec) (d : Bytes), d.length = ((rs.filter recIsSdu).map recLen).sum →
    (sduParsed rs d).flatMap Parsed.payload = d ∧ ∀ q ∈ sduParsed rs d, q.payload.length = q.len
  | [], d, h => ⟨(List.eq_nil_of_length_eq_zero h).symm, by simp [sduParsed]⟩
  | .ce _ _ _ _ :: rs, d, h => sduParsed_payload rs d h
  | .sdu l n :: rs, d, h => by
    replace h : d.length = n.toNat + ((rs.filter recIsSdu).map recLen).sum := h
    obtain ⟨hbytes, hlen⟩ := sduParsed_payload rs (d.drop n.toNat) (by rw [List.length_drop]; omega)
    refine ⟨?_, List.forall_mem_cons.2 ⟨List.length_take_of_le (by omega), hlen⟩⟩
    rw [sduParsed, List.flatMap_cons, hbytes, List.take_append_drop]

/-! ### The records of the PDU (R180) -/

/-- The committed records as a parse gives them back: the control elements, then the SDUs. -/
def Enc.entriesParsed (e : Enc) : List Parsed := ceParsed e.committed ++ sduParsed e.committed e.sduData

section
variable {e : Enc}

theorem readBack_multi (h : 2 < e.rem.toNat) :
    e.readBack = e.entriesParsed ++ [⟨.pad, 31, e.padRegime.padn, List.replicate e.padRegime.padn 0⟩] := by
  rw [Enc.readBack, padRegime_multi h]; rfl

theorem readBack_fixed (h : e.rem.toNat ≤ 2) :
    e.readBack = List.replicate e.rem.toNat ⟨.pad, 31, 0, []⟩ ++ e.entriesParsed := by
  rw [Enc.readBack, padRegime_fixed h, Enc.entriesParsed]
  simp

theorem entriesParsed_walked (e : Enc) : e.entriesParsed.map Parsed.walkRec = e.entries.map (LayoutItem.walked 0) := by
  rw [Enc.entriesParsed, List.map_append, ceParsed_walked, sduParsed_walked, Enc.entries, List.map_append]
  rfl

theorem entriesParsed_payload {p : Params} (h : EncOk p e) :
    e.entriesParsed.flatMap Parsed.payload = e.cePayloadBytes ++ e.sduData ∧
      ∀ q ∈ e.entriesParsed, q.payload.length = q.len := by
  obtain ⟨hce, hceLen⟩ := ceParsed_payload e.committed h.records_wf
  obtain ⟨hsdu, hsduLen⟩ := sduParsed_payload e.committed e.sduData h.sdu_bytes
  refine ⟨?_, List.forall_mem_append.2 ⟨hceLen, hsduLen⟩⟩
  rw [Enc.entriesParsed, List.flatMap_append, hce, hsdu]
  rfl

/-- The layout and the records agree item by item, the last item's padding being `padn` bytes (R172, R180). -/
theorem readBack_walked (hne : e.layoutList e.padRegime ≠ []) :
    ∃ xs x, e.layoutList e.padRegime = xs ++ [x] ∧
      e.readBack.map Parsed.walkRec = xs.map (LayoutItem.walked 0) ++ [x.walked e.padRegime.padn] := by
  rcases Nat.lt_or_ge 2 e.rem.toNat with hr | hr
  · refine ⟨e.entries, .pad, layoutList_multi hr, ?_⟩
    rw [readBack_multi hr, List.map_append, entriesParsed_walked]
    rfl
  · have hall : e.readBack.map Parsed.walkRec = (e.layoutList e.padRegime).map (LayoutItem.walked 0) := by
      rw [readBack_fixed hr, layoutList_fixed hr, List.map_append, List.map_append, entriesParsed_walked,
        List.map_replicate, List.map_replicate]
      rfl
    obtain ⟨xs, x, hlast⟩ : ∃ xs x, e.layoutList e.padRegime = xs ++ [x] :=
      ⟨_, _, (List.dropLast_append_getLast hne).symm⟩
    refine ⟨xs, x, hlast, ?_⟩
    rw [hall, hlast, padRegime_fixed hr, List.map_append]
    rfl

/-- The block is the header and the payloads of the records, each of its record's length (R175, R180). -/
theorem block_eq_readBack {p : Params} (h : EncOk p e) :
    e.block = e.headerBytes ++ e.readBack.flatMap Parsed.payload ∧ ∀ q ∈ e.readBack, q.payload.length = q.len := by
  obtain ⟨hbytes, hlen⟩ := entriesParsed_payload h
  rw [Enc.block, assembleTb]
  rcases Nat.lt_or_ge 2 e.rem.toNat with hr | hr
  · rw [readBack_multi hr, List.flatMap_append, hbytes]
    exact ⟨by simp, List.forall_mem_append.2 ⟨hlen, by simp⟩⟩
  · rw [readBack_fixed hr, List.flatMap_append, hbytes, padRegime_fixed hr]
    exact ⟨by simp, List.forall_mem_append.2 ⟨fun q hq => by rw [List.eq_of_mem_replicate hq]; rfl, hlen⟩⟩

theorem declaredLen_walkRec {qs : List Parsed} (h : ∀ q ∈ qs, q.payload.length = q.len) :
    declaredLen (qs.map Parsed.walkRec) = (qs.flatMap Parsed.payload).length := by
  rw [declaredLen, List.map_map, List.length_flatMap]
  exact congrArg List.sum (List.map_congr_left fun q hq => (h q hq).symm)

/-- The block parses to the records of the PDU, of which there are at most `MAX_SUBH + 2` (R180). -/
theorem parse_block {p : Params} (h : EncOk p e) (hm : e.mode = .build) {maxRx : Nat} (hrx : p.maxSubh + 2 ≤ maxRx) :
    parse e.dir maxRx e.block.length e.block
        = .ok (withOffsets e.headerBytes.length (e.readBack.map Parsed.walkRec)) ∧
      e.readBack.length ≤ p.maxSubh + 2 := by
  obtain ⟨xs, x, hlayout, hwalked⟩ := readBack_walked (layoutList_ne_nil h hm)
  obtain ⟨hblock, hlen⟩ := block_eq_readBack h
  have hcount : xs.length + 1 ≤ p.maxSubh + 2 := by simpa [hlayout] using layoutList_length_le h
  have hwf := layoutList_wf h
  rw [hlayout] at hwf
  have hdeclared := declaredLen_walkRec hlen
  rw [hwalked] at hdeclared
  constructor
  · rw [hblock, hwalked, Enc.headerBytes, hlayout]
    exact parse_layout hwf (by omega) hdeclared
  · have hsame : e.readBack.length = xs.length + 1 := by simpa using congrArg List.length hwalked
    omega

end

/-- READ of a list that is not refused and parses (R201, R204). -/
theorem readBody_of_parse {dir : Dir} {n : Nat} {d : Bytes} {s : State} {recs : List DecRec} (hd : d.length = n)
    (hn : n ≤ s.params.maxTbBytes) (hparse : parse dir s.params.maxSubhRx n d = .ok recs) :
    readBody dir n d s = ok recs.length { s with
      dec := { dir := dir, n := BitVec.ofNat 16 n, data := d, valid := true,
               nrec := BitVec.ofNat 6 recs.length, recs := recs, err := .ok } } := by
  rw [readBody, if_neg (by simp [hd, hn]), hparse]

end Sys2Proof.Machine

namespace Sys2Proof.Proofs

open Sys2Proof.Machine

/-- Settles O29: WRITE has committed the block, the block parses to the records of the PDU, and the records delimit
their payloads in it. -/
theorem writeThenReadRoundTrip : Obligations.WriteThenReadRoundTrip := by
  intro s t h hm hwrite herr
  obtain rfl := complete_inj (p := writeBody s) hwrite
  rw [writeBody_of_ok herr]
  obtain ⟨-, -, -, htb, hrx, -⟩ := legal_bounds h.params_legal
  have hsize := block_length h.enc_ok hm
  have hfits := (h.enc_ok.size_in_range (by simp [hm])).2
  obtain ⟨hblock, hlen⟩ := block_eq_readBack h.enc_ok
  obtain ⟨hparse, hcount⟩ := parse_block h.enc_ok hm hrx
  have hpayloads := parsedIn_withOffsets s.enc.readBack s.enc.headerBytes hlen
  rw [← hblock] at hpayloads
  rw [hsize] at hparse
  refine ⟨_, congrArg complete (readBody_of_parse hsize hfits hparse), rfl, rfl, ?_, ?_, ?_⟩
  · simp
  · rw [parsed_eq]; exact hpayloads (by omega)
  · simpa using hcount

end Sys2Proof.Proofs

/-! SUPPORT. The fatal construction errors (41_pdu_write.md R176, R177; 60_exceptions.md R323): WRITE alone raises them,
and under the encoder's invariant, with a sufficient header region, it does not. -/

namespace Sys2Proof.Machine

open Sys2Proof.Config

/-- The two fatal codes (R176, R177, R323). -/
def ErrCode.fatal (e : ErrCode) : Bool := decide (e = .size ∨ e = .hdrReserve)

theorem fatal_false_iff {e : ErrCode} : e.fatal = false ↔ e ≠ .size ∧ e ≠ .hdrReserve := by simp [ErrCode.fatal]

/-- From `s`, a body ends without a fatal construction error: it leaves `FAULT`, and answers no fatal code (R323). -/
structure EndsWell (s : State) (p : State × Ret) : Prop where
  fault_eq : p.1.fault = s.fault
  err_not_fatal : p.2.err.fatal = false

theorem not_fatal_of_parseError {e : ErrCode} (h : isParseError e) : e.fatal = false := by
  rcases h with rfl | rfl | rfl | rfl <;> rfl

namespace EndsWell

theorem of_ok {s t : State} {r : Int} (h : t.fault = s.fault) : EndsWell s (ok r t) := ⟨h, rfl⟩

theorem of_fail {s t : State} {e : ErrCode} {r : Int} (he : e.fatal = false) (h : t.fault = s.fault) :
    EndsWell s (fail e r t) := ⟨h, he⟩

/-! ### The PDU builder and WRITE -/

theorem initTxBody (dir : Dir) (n : Nat) (s : State) : EndsWell s (initTxBody dir n s) := by
  unfold Machine.initTxBody
  split
  · exact of_fail rfl rfl
  · exact of_ok rfl

theorem newSubhBody (s : State) : EndsWell s (newSubhBody s) := by
  rcases newSubhBody_cases s with ⟨h, -⟩ | ⟨h, -⟩ | ⟨h, -⟩ | ⟨h, -⟩ <;> rw [h]
  · exact of_fail rfl rfl
  · exact of_ok rfl
  · exact of_fail rfl rfl
  · exact of_ok rfl

/-- A setter's precondition fails with `E_STATE` or `E_NO_SLOT` (R125). -/
theorem setterCheck_refuses {s : State} {e : ErrCode} (h : setterCheck s = some e) : EndsWell s (fail e (-1) s) := by
  rcases setterCheck_some.1 h with ⟨-, rfl⟩ | ⟨-, -, rfl⟩ <;> exact of_fail rfl rfl

theorem setCe (t : CeType) (pay : Bytes) (s : State) : EndsWell s (setCe t pay s) := by
  unfold Machine.setCe
  split
  · exact of_fail rfl rfl
  split
  · exact of_fail rfl rfl
  · exact of_ok rfl

theorem ceSetter (t : CeType) (pay : Bytes) (s : State) : EndsWell s (ceSetter t pay s) := by
  unfold Machine.ceSetter
  split
  · exact setterCheck_refuses (by assumption)
  · exact setCe t pay s

theorem setBsrBody (f : BsrFmt) (g : BitVec 2) (b0 b1 b2 b3 : Nat) (s : State) :
    EndsWell s (setBsrBody f g b0 b1 b2 b3 s) := by
  unfold Machine.setBsrBody
  split
  · exact setterCheck_refuses (by assumption)
  cases f with
  | short => exact setCe _ _ s
  | long => exact setCe _ _ s
  | trunc => exact setCe _ _ s
  | reserved => exact of_fail rfl rfl

theorem setSduBody (l q : Nat) (s : State) : EndsWell s (setSduBody l q s) := by
  unfold Machine.setSduBody setSduAnswered
  split
  · exact setterCheck_refuses (by assumption)
  split
  · exact of_fail rfl rfl
  split
  · exact of_ok rfl
  split
  · exact of_fail rfl rfl
  split
  · exact of_fail rfl rfl
  split
  · exact of_ok rfl
  · exact of_ok rfl

theorem queryBody (r : Int) (s : State) : EndsWell s (queryBody r s) := by
  unfold Machine.queryBody
  split
  · exact of_fail rfl rfl
  · exact of_ok rfl

/-- WRITE is the one body with fatal codes, and its two checks pass (R177, R179). -/
theorem writeBody {s : State} (h : EncOk s.params s.enc) (hr : reserveSuffices s.params) :
    EndsWell s (writeBody s) := by
  by_cases hm : s.enc.mode = .build
  · rw [writeBody_of_encOk h hr hm]
    exact of_ok rfl
  · rw [show Machine.writeBody s = fail .state (-1) s from if_pos hm]
    exact of_fail rfl rfl

/-! ### READ and DL_TB -/

theorem readBody {s : State} (hp : s.params.legal = true) (dir : Dir) (n : Nat) (d : Bytes) :
    EndsWell s (readBody dir n d s) := by
  obtain ⟨-, -, -, htb, -⟩ := legal_bounds hp
  unfold Machine.readBody
  split
  · exact of_fail rfl rfl
  rename_i hd
  obtain ⟨rfl, hfit⟩ := refusesDin_false.1 (Bool.eq_false_iff.2 hd)
  rcases parse_cases dir s.params.maxSubhRx d (by omega) with ⟨e, he, hparse⟩ | ⟨recs, hparse, -⟩ <;> rw [hparse]
  · exact of_fail (not_fatal_of_parseError he) rfl
  · exact of_ok rfl

theorem dispatch_fault (r : DecRec) (s : State) : (dispatch r s).1.fault = s.fault := by
  unfold dispatch
  split
  · split
    · rfl
    · split <;> rfl
  all_goals rfl

theorem dispatchAll_fault : ∀ (rs : List DecRec) (s : State), (dispatchAll rs s).1.fault = s.fault
  | [], _ => rfl
  | r :: rest, s => (dispatchAll_fault rest _).trans (dispatch_fault r s)

theorem dlTbBody {s : State} (hp : s.params.legal = true) (n : Nat) (d : Bytes) : EndsWell s (dlTbBody n d s) := by
  have hread := readBody hp .dl n d
  unfold Machine.dlTbBody
  split
  · exact of_fail rfl rfl
  split
  · exact of_fail hread.err_not_fatal hread.fault_eq
  · exact of_ok ((dispatchAll_fault _ _).trans hread.fault_eq)

/-! ### The channel configuration -/

theorem onChannel {s t : State} (l : Nat) (h : t.fault = s.fault) : EndsWell s (onChannel l t s) := by
  unfold Machine.onChannel
  split
  · exact of_fail rfl rfl
  · exact of_ok h

theorem bindChannel_fault (l : Nat) (s : State) : (bindChannel l s).fault = s.fault := by
  unfold bindChannel
  split <;> rfl

/-! ### The uplink grant and SOFT_RESET -/

theorem msg3RetxBody (n : Nat) (s : State) : EndsWell s (msg3RetxBody n s) := by
  unfold Machine.msg3RetxBody
  split
  · exact of_fail rfl rfl
  split
  · exact of_fail rfl rfl
  · exact of_ok rfl

theorem consumeTokens_fault (l : Nat) (k : Int) (s : State) : (consumeTokens l k s).fault = s.fault := by
  unfold consumeTokens
  split <;> rfl

/-- No sub-step of a grant's assembly writes `FAULT` (R258, R261-R266). -/
theorem assembly_keeps_fault (b : Bool) : AssemblyKeeps (fun s => s.fault = b) where
  ask _ _ _ h := h
  slot s h := (newSubhBody s).fault_eq.trans h
  pull l q s _ _ _ h := (setSduBody l q s).fault_eq.trans h
  consume l k s _ _ h := (consumeTokens_fault l k s).trans h
  ce t pay s _ h := (ceSetter t pay s).fault_eq.trans h

/-- `Finalise()` passes up WRITE's code (R267). -/
theorem grantFinalise {s t : State} (h : EncOk t.params t.enc) (hr : reserveSuffices t.params) (hf : t.fault = s.fault)
    (n : Nat) (msg3 : Bool) : EndsWell s (grantFinalise n msg3 t) := by
  have hwrite := writeBody h hr
  unfold Machine.grantFinalise storeMsg3
  split
  · exact of_fail hwrite.err_not_fatal (hwrite.fault_eq.trans hf)
  · exact of_ok (by split <;> exact hwrite.fault_eq.trans hf)

theorem ulGrantBody {s : State} (h : EncInv s) (hr : reserveSuffices s.params) (n : Nat) (msg3 retx ci bt pt : Bool)
    (rnti : BitVec 16) (ph : Int) : EndsWell s (ulGrantBody n msg3 retx ci bt pt rnti ph s) := by
  unfold Machine.ulGrantBody
  split
  · exact msg3RetxBody n s
  split
  · exact of_fail rfl rfl
  have hport := (KeepsPort.assembly s).grantAssemble (n := n) (ci := ci) (bt := bt) (pt := pt) (rnti := rnti) (ph := ph)
    (.initTxBody .ul n s)
  have hfault := (assembly_keeps_fault s.fault).grantAssemble (n := n) (ci := ci) (bt := bt) (pt := pt) (rnti := rnti)
    (ph := ph) (initTxBody .ul n s).fault_eq
  exact grantFinalise (EncInv.assembly.grantAssemble (h.initTxBody .ul n)).enc_ok (hport.params_eq ▸ hr) hfault n msg3

/-- SOFT_RESET clears `FAULT` (R351), so it keeps one that is 0. -/
theorem softResetBody {s : State} (h : noFault s) : EndsWell s (softResetBody s) := of_ok h.symm

/-- A command ends as its body does. -/
theorem complete {s t : State} {p : State × Ret} (h : EndsWell s p) (ht : complete p = .next t) :
    t.fault = s.fault ∧ t.err.fatal = false := by
  obtain rfl := complete_inj ht
  exact ⟨h.fault_eq, h.err_not_fatal⟩

end EndsWell

/-- No command raises a fatal construction error under the invariant, with a sufficient header region (R177, R179). -/
theorem exec_endsWell {i : Instr} {s t : State} (h : BlockInv s) (hr : reserveSuffices s.params) (hf : noFault s)
    (ht : exec i s = .next t) : t.fault = s.fault ∧ t.err.fatal = false := by
  cases i with
  | initTx dir n => exact (EndsWell.initTxBody dir n s).complete ht
  | newSubh => exact (EndsWell.newSubhBody s).complete ht
  | setSdu lcid req => exact (EndsWell.setSduBody lcid req s).complete ht
  | setBsr fmt lcg b0 b1 b2 b3 => exact (EndsWell.setBsrBody fmt lcg b0 b1 b2 b3 s).complete ht
  | setPhr ph => exact (EndsWell.ceSetter .phr _ s).complete ht
  | setCrnti rnti => exact (EndsWell.ceSetter .crnti _ s).complete ht
  | setConres id => exact (EndsWell.ceSetter .conres _ s).complete ht
  | setTa ta => exact (EndsWell.ceSetter .ta _ s).complete ht
  | hasSpaceSdu nb => exact (EndsWell.queryBody _ s).complete ht
  | hasSpaceCe nb => exact (EndsWell.queryBody _ s).complete ht
  | sduSpace => exact (EndsWell.queryBody _ s).complete ht
  | remSize => exact (EndsWell.queryBody _ s).complete ht
  | write => exact (EndsWell.writeBody h.enc_ok hr).complete ht
  | read dir n => exact (EndsWell.readBody h.params_legal dir n _).complete ht
  | bsrLevel b => exact (EndsWell.of_ok rfl).complete ht
  | phrLevel ph => exact (EndsWell.of_ok rfl).complete ht
  | addBearer lcid => exact (EndsWell.onChannel lcid (EndsWell.bindChannel_fault lcid s)).complete ht
  | setPriority lcid prio pbr bsd => exact (EndsWell.onChannel lcid (setLch_fault s lcid _)).complete ht
  | setLcg lcid lcg => exact (EndsWell.onChannel lcid (setLch_fault s lcid _)).complete ht
  | resetBearers => obtain rfl := Host.Outcome.next.inj ht; exact ⟨rfl, rfl⟩
  | ttiTick tti => obtain rfl := Host.Outcome.next.inj ht; exact ⟨rfl, rfl⟩
  | ulGrant n msg3 retx ci bt pt rnti ph =>
    exact (EndsWell.ulGrantBody ⟨h.params_legal, h.enc_ok⟩ hr n msg3 retx ci bt pt rnti ph).complete ht
  | dlTb n => exact (EndsWell.dlTbBody h.params_legal n _).complete ht
  | softReset => exact (EndsWell.softResetBody hf).complete ht

/-- No word does, with a command assigned to its opcode or not (R83). -/
theorem execWord_endsWell {w : Word} {s t : State} (h : BlockInv s) (hr : reserveSuffices s.params) (hf : noFault s)
    (ht : execWord w s = .next t) : t.fault = s.fault ∧ t.err.fatal = false := by
  cases hw : decode w with
  | ok i => exact exec_endsWell h hr hf ((execWord_of_decode_ok hw s).symm.trans ht)
  | error e =>
    obtain rfl := Host.Outcome.next.inj ((execWord_of_decode_error hw s).symm.trans ht)
    exact ⟨rfl, rfl⟩

end Sys2Proof.Machine

namespace Sys2Proof.Proofs

open Sys2Proof.Machine

/-- Settles O59: the step accepts a command, whose body ends without a fatal error, and retires it. -/
theorem stepRaisesNoFatalError : Obligations.StepRaisesNoFatalError := by
  intro s t h hr hf hstep
  cases hc : s.host.cmds with
  | nil => rw [step_nil hc] at hstep; cases hstep
  | cons c rest =>
    obtain ⟨u, hu, -⟩ := execWord_keepsPort c.word (s.accepting c rest)
    rw [step_cons hc hu] at hstep
    obtain rfl := Host.Outcome.next.inj hstep
    have haccepting : BlockInv (s.accepting c rest) := h.of_eq rfl rfl rfl rfl rfl
    obtain ⟨hfault, herr⟩ := execWord_endsWell haccepting hr hf hu
    exact ⟨hfault.trans hf, fatal_false_iff.1 herr⟩

end Sys2Proof.Proofs

/-! SUPPORT. READ (42_pdu_read.md R200-R206): its two ends, the walk over subheaders of any form, and the table that a
walk gives. -/

namespace Sys2Proof.Machine

open Sys2Proof.Config

/-! ### The ends of READ (R201, R204, R205) -/

/-- The state after READ of a block that does not parse: the block is dropped whole (R205). -/
def State.readDropped (dir : Dir) (e : ErrCode) (s : State) : State :=
  ({ s with
      dec := { s.dec with
        dir := dir, n := BitVec.ofNat 16 s.host.din.length, data := s.host.din, valid := false, nrec := 0,
        err := e } } : State).answered e (-1)

theorem exec_read_of_parse_error {dir : Dir} {s : State} {e : ErrCode} (hfit : s.host.din.length ≤ s.params.maxTbBytes)
    (hparse : parse dir s.params.maxSubhRx s.host.din.length s.host.din = .error e) :
    exec (.read dir s.host.din.length) s = .next (s.readDropped dir e) := by
  change complete (readBody dir s.host.din.length s.host.din s) = _
  rw [readBody, if_neg (by simp [hfit]), hparse]
  rfl

/-- READ that answers OK has taken its list (R63, R81). -/
theorem din_fits_of_read_ok {dir : Dir} {n : Nat} {s t : State} (ht : exec (.read dir n) s = .next t)
    (herr : t.err = .ok) : s.host.din.length = n ∧ n ≤ s.params.maxTbBytes := by
  rw [← refusesDin_false]
  by_contra hrefused
  have hbody : readBody dir n s.host.din s = fail .arg (-1) s := if_pos (Bool.of_not_eq_false hrefused)
  obtain rfl := complete_inj (p := readBody dir n s.host.din s) ht
  rw [hbody] at herr
  cases herr

/-! ### The records of a walk (R203) -/

/-- What the subheaders before the last leave for it (R203). -/
def Walk.rest (n : Nat) (w : Walk) : Nat := n - (w.hend + declaredLen w.before)

/-- The lengths of a walk fit a block of `n` bytes: the declared ones do, and a last control element is left its size
(R203). -/
def Walk.Resolves (n : Nat) (w : Walk) : Prop :=
  w.hend + declaredLen w.before ≤ n ∧ ∀ t, w.last.cls = .ce t → w.rest n = ceSize t

/-- The records of a walk, the last one with what is left (R203). -/
def Walk.records (n : Nat) (w : Walk) : List WalkRec := w.before ++ [{ w.last with len := w.rest n }]

theorem resolveLengths_of_resolves {n : Nat} {w : Walk} (h : w.Resolves n) :
    resolveLengths n w = .ok (w.records n) := by
  obtain ⟨hfit, hsize⟩ := h
  rw [resolveLengths, if_neg (Nat.not_lt.2 hfit)]
  cases hc : w.last.cls with
  | ce t => exact if_neg (not_not.2 (hsize t hc))
  | sdu => rfl
  | pad => rfl

theorem resolveLengths_of_not_resolves {n : Nat} {w : Walk} (h : ¬ w.Resolves n) :
    resolveLengths n w = .error .pLen := by
  rw [resolveLengths]
  split
  · rfl
  rename_i hfit
  cases hc : w.last.cls with
  | ce t =>
    refine if_pos fun hsize => h ⟨Nat.not_lt.1 hfit, fun t' ht' => ?_⟩
    obtain rfl : t = t' := by simpa [hc] using ht'
    exact hsize
  | sdu => exact absurd ⟨Nat.not_lt.1 hfit, by simp [hc]⟩ h
  | pad => exact absurd ⟨Nat.not_lt.1 hfit, by simp [hc]⟩ h

theorem declaredLen_records {n : Nat} {w : Walk} (h : w.Resolves n) : w.hend + declaredLen (w.records n) = n := by
  have hfit := h.1
  simp only [declaredLen, Walk.records, Walk.rest, List.map_append, List.sum_append, List.map_cons, List.map_nil,
    List.sum_cons, List.sum_nil] at hfit ⊢
  omega

section
variable {dir : Dir} {maxRx n : Nat} {d : Bytes} {w : Walk}

theorem parse_of_walk_error {e : ErrCode} (hw : walkHeader dir maxRx d 0 [] = .error e) :
    parse dir maxRx n d = .error e := by
  simp only [parse, hw]

theorem parse_of_not_resolves (hw : walkHeader dir maxRx d 0 [] = .ok w) (h : ¬ w.Resolves n) :
    parse dir maxRx n d = .error .pLen := by
  simp only [parse, hw, resolveLengths_of_not_resolves h]

theorem parse_of_resolves (hw : walkHeader dir maxRx d 0 [] = .ok w) (h : w.Resolves n) :
    parse dir maxRx n d = .ok (withOffsets w.hend (w.records n)) := by
  simp only [parse, hw, resolveLengths_of_resolves h]

/-- A parse ends in one of its four errors, or in the records of its walk (R202-R205). -/
theorem parse_ends (dir : Dir) (maxRx n : Nat) (d : Bytes) :
    (∃ e, isParseError e ∧ parse dir maxRx n d = .error e) ∨
    ∃ w, walkHeader dir maxRx d 0 [] = .ok w ∧ w.Resolves n ∧
      parse dir maxRx n d = .ok (withOffsets w.hend (w.records n)) := by
  rcases walkHeader_cases dir maxRx d 0 [] (Nat.zero_le _) (by simp) with ⟨e, he, hw⟩ | ⟨w, hw, -⟩
  · exact .inl ⟨e, he, parse_of_walk_error hw⟩
  · by_cases h : w.Resolves n
    · exact .inr ⟨w, hw, h, parse_of_resolves hw h⟩
    · exact .inl ⟨.pLen, .inr (.inr (.inl rfl)), parse_of_not_resolves hw h⟩

/-- What a complete walk has read (R202). -/
theorem walkHeader_ok (hw : walkHeader dir maxRx d 0 [] = .ok w) :
    1 ≤ w.hend ∧ w.before.length < maxRx ∧ (∀ r ∈ w.before, walkRecOk dir r) ∧
      classOf dir w.last.lcid = some w.last.cls := by
  rcases walkHeader_cases dir maxRx d 0 [] (Nat.zero_le _) (by simp) with
    ⟨e, -, h⟩ | ⟨w', h, hpos, -, hcount, hbefore, hlast⟩
  · rw [hw] at h; cases h
  · obtain rfl : w = w' := by rw [hw] at h; exact Except.ok.inj h
    exact ⟨hpos, hcount, hbefore, hlast⟩

theorem walkRecOk_records (hw : walkHeader dir maxRx d 0 [] = .ok w) (h : w.Resolves n) :
    ∀ r ∈ w.records n, walkRecOk dir r := by
  obtain ⟨-, -, hbefore, hlast⟩ := walkHeader_ok hw
  exact List.forall_mem_append.2 ⟨hbefore, by simpa using ⟨hlast, h.2⟩⟩

end

/-! ### The decoder's table (R204) -/

theorem withOffsets_kinds : ∀ (off : Nat) (recs : List WalkRec),
    (withOffsets off recs).map (fun r => (r.cls, r.lcid)) = recs.map (fun r => (r.cls, r.lcid))
  | _, [] => rfl
  | off, r :: rest => congrArg ((r.cls, r.lcid) :: ·) (withOffsets_kinds (off + r.len) rest)

/-- Lengths that add up to at most 65535 are stored unchanged. -/
theorem withOffsets_lens : ∀ (off : Nat) (recs : List WalkRec), declaredLen recs < 65536 →
    (withOffsets off recs).map (fun r => r.len.toNat) = recs.map WalkRec.len
  | _, [], _ => rfl
  | off, r :: rest, h => by
    simp only [declaredLen, List.map_cons, List.sum_cons] at h
    have hlen : (BitVec.ofNat 16 r.len).toNat = r.len := by rw [BitVec.toNat_ofNat]; omega
    rw [withOffsets, List.map_cons, List.map_cons, hlen,
      withOffsets_lens _ rest (by rw [declaredLen]; omega)]

theorem recsCover_le : ∀ {off n : Nat} {recs : List DecRec}, recsCover off recs n → off ≤ n
  | _, _, [], h => Nat.le_of_eq h
  | _, _, _ :: _, ⟨_, h⟩ => (Nat.le_add_right _ _).trans (recsCover_le h)

/-- Contiguous records delimit payloads of their own length, which join up to the bytes they cover (R103, R204). -/
theorem parsedIn_of_recsCover {d : Bytes} : ∀ {off : Nat} {recs : List DecRec}, recsCover off recs d.length →
    (∀ p ∈ recs.map (parsedIn d), p.payload.length = p.len) ∧
      ((recs.map (parsedIn d)).map Parsed.payload).flatten = d.drop off
  | off, [], h => by
    obtain rfl : off = d.length := h
    simp
  | off, r :: rest, ⟨hoff, h⟩ => by
    obtain ⟨hlen, hjoin⟩ := parsedIn_of_recsCover h
    have hle := recsCover_le h
    refine ⟨List.forall_mem_cons.2 ⟨?_, hlen⟩, ?_⟩
    · simp only [parsedIn, hoff, List.length_take, List.length_drop]; omega
    · rw [List.map_cons, List.map_cons, List.flatten_cons, hjoin]
      simp only [parsedIn, hoff]
      rw [← List.drop_drop, List.take_append_drop]

/-- The decoder after READ of the block `d` with the walk `w` (R204). -/
def Walk.dec (dir : Dir) (d : Bytes) (w : Walk) : Dec :=
  { dir := dir, n := BitVec.ofNat 16 d.length, data := d, valid := true,
    nrec := BitVec.ofNat 6 (w.before.length + 1), recs := withOffsets w.hend (w.records d.length), err := .ok }

/-- The state after READ of a block that parses, with the walk `w` (R204). -/
def State.readWalk (dir : Dir) (w : Walk) (s : State) : State :=
  ({ s with dec := w.dec dir s.host.din } : State).answered .ok (w.before.length + 1)

section
variable {dir : Dir} {w : Walk} {s : State} {d : Bytes}

@[simp] theorem readWalk_dec : (s.readWalk dir w).dec = w.dec dir s.host.din := rfl
@[simp] theorem readWalk_res : (s.readWalk dir w).res = BitVec.ofNat 32 (w.before.length + 1) :=
  BitVec.ofInt_natCast 32 (w.before.length + 1)

theorem dec_recs_length : (w.dec dir d).recs.length = w.before.length + 1 := by
  simp [Walk.dec, Walk.records]

theorem dec_kinds : (w.dec dir d).recs.map (fun r => (r.cls, r.lcid))
    = (w.before ++ [w.last]).map (fun r => (r.cls, r.lcid)) := by
  simp [Walk.dec, Walk.records, withOffsets_kinds]

theorem dec_lens (h : w.Resolves d.length) (hd : d.length < 65536) :
    (w.dec dir d).recs.map (fun r => r.len.toNat) = w.before.map WalkRec.len ++ [w.rest d.length] := by
  have hsum := declaredLen_records h
  refine (withOffsets_lens w.hend (w.records d.length) (by omega)).trans ?_
  simp [Walk.records]

/-- The records delimit the block from the end of the header on (R103, R204). -/
theorem dec_cover (h : w.Resolves d.length) (hd : d.length < 65536) :
    recsCover w.hend (w.dec dir d).recs d.length :=
  withOffsets_cover _ _ _ (declaredLen_records h) hd

end

/-! ### READ through its walk (R201-R205) -/

section
variable {dir : Dir} {s : State} {w : Walk}

theorem exec_read_of_parse {recs : List DecRec} (hfit : s.host.din.length ≤ s.params.maxTbBytes)
    (hparse : parse dir s.params.maxSubhRx s.host.din.length s.host.din = .ok recs) :
    exec (.read dir s.host.din.length) s = .next (({ s with dec := {
      dir := dir, n := BitVec.ofNat 16 s.host.din.length, data := s.host.din, valid := true,
      nrec := BitVec.ofNat 6 recs.length, recs := recs, err := .ok } } : State).answered .ok recs.length) :=
  congrArg complete (readBody_of_parse rfl hfit hparse)

theorem exec_read_of_walk (hfit : s.host.din.length ≤ s.params.maxTbBytes)
    (hw : walkHeader dir s.params.maxSubhRx s.host.din 0 [] = .ok w) (h : w.Resolves s.host.din.length) :
    exec (.read dir s.host.din.length) s = .next (s.readWalk dir w) := by
  have hcount : (withOffsets w.hend (w.records s.host.din.length)).length = w.before.length + 1 := by
    simp [Walk.records]
  rw [exec_read_of_parse hfit (parse_of_resolves hw h), hcount]
  rfl

theorem exec_read_of_not_resolves (hfit : s.host.din.length ≤ s.params.maxTbBytes)
    (hw : walkHeader dir s.params.maxSubhRx s.host.din 0 [] = .ok w) (h : ¬ w.Resolves s.host.din.length) :
    exec (.read dir s.host.din.length) s = .next (s.readDropped dir .pLen) :=
  exec_read_of_parse_error hfit (parse_of_not_resolves hw h)

theorem exec_read_of_walk_error {e : ErrCode} (hfit : s.host.din.length ≤ s.params.maxTbBytes)
    (hw : walkHeader dir s.params.maxSubhRx s.host.din 0 [] = .error e) :
    exec (.read dir s.host.din.length) s = .next (s.readDropped dir e) :=
  exec_read_of_parse_error hfit (parse_of_walk_error hw)

/-- READ that answers OK has stored the table of its walk (R204). -/
theorem read_ok_inv {n : Nat} {t : State} (ht : exec (.read dir n) s = .next t) (herr : t.err = .ok) :
    s.host.din.length = n ∧ n ≤ s.params.maxTbBytes ∧
      ∃ w, walkHeader dir s.params.maxSubhRx s.host.din 0 [] = .ok w ∧ w.Resolves n ∧ t = s.readWalk dir w := by
  obtain ⟨rfl, hfit⟩ := din_fits_of_read_ok ht herr
  refine ⟨rfl, hfit, ?_⟩
  rcases parse_ends dir s.params.maxSubhRx s.host.din.length s.host.din with ⟨e, he, hparse⟩ | ⟨w, hw, h, -⟩
  · obtain rfl := Host.Outcome.next.inj (ht.symm.trans (exec_read_of_parse_error hfit hparse))
    obtain rfl : e = .ok := herr
    rcases he with he | he | he | he <;> cases he
  · exact ⟨w, hw, h, Host.Outcome.next.inj (ht.symm.trans (exec_read_of_walk hfit hw h))⟩

end

end Sys2Proof.Machine

namespace Sys2Proof.Proofs

open Sys2Proof.Machine

/-- Settles O30: READ takes the list, and ends as its parse does; a failed parse has one of the walk's errors or the
resolution's. -/
theorem readStoresParse : Obligations.ReadStoresParse := by
  rintro dir n s rfl hfit
  refine ⟨fun recs hparse => exec_read_of_parse hfit hparse,
    fun e hparse => ⟨?_, _, exec_read_of_parse_error hfit hparse, rfl⟩⟩
  rcases parse_ends dir s.params.maxSubhRx s.host.din.length s.host.din with ⟨e', he, h⟩ | ⟨w, -, -, h⟩
  · obtain rfl : e' = e := Except.error.inj (h.symm.trans hparse)
    exact he
  · cases h.symm.trans hparse

/-- Settles O31: READ has stored the table of its walk, whose records cover the block from the end of the header on. -/
theorem readPayloadsCoverBlock : Obligations.ReadPayloadsCoverBlock := by
  intro dir n s t hlegal ht herr
  obtain ⟨rfl, hfit, w, hw, h, rfl⟩ := read_ok_inv ht herr
  obtain ⟨-, -, -, htb, -, hrx⟩ := legal_bounds hlegal
  obtain ⟨hhend, hcount, -⟩ := walkHeader_ok hw
  have hd : s.host.din.length < 65536 := by omega
  obtain ⟨hlen, hjoin⟩ := parsedIn_of_recsCover (dec_cover (dir := dir) h hd)
  refine ⟨w, hw, hhend, h.1, rfl, ?_, ?_, dec_kinds, ?_, hlen, hjoin, withOffsets_wf _ _ (walkRecOk_records hw h)⟩
  · rw [readWalk_dec, dec_recs_length, Walk.dec, BitVec.toNat_ofNat]; omega
  · rw [readWalk_dec, dec_recs_length]; exact hcount
  · rw [Nat.sub_sub]; exact dec_lens h hd

end Sys2Proof.Proofs

/-! SUPPORT. READ of a block written out as its subheaders (42_pdu_read.md R200-R206): the kinds by LCID, the walk over
one subheader of any form, and over a sequence of them. -/

namespace Sys2Proof.Machine

open Sys2Proof.Config

/-! ### The kinds by LCID (R200) -/

/-- Every LCID from 11 on, below the first control element of the direction is reserved (R200). -/
theorem classOf_reserved {dir : Dir} {lcid : BitVec 5} (hlow : 11 ≤ lcid.toNat)
    (hhigh : lcid.toNat ≤ (if dir = .ul then 25 else 27)) : classOf dir lcid = none := by
  revert lcid
  cases dir <;> decide

theorem classOf_eq_sdu_iff {dir : Dir} {lcid : BitVec 5} : classOf dir lcid = some .sdu ↔ lcid.toNat ≤ 10 := by
  revert lcid
  cases dir <;> decide

/-- The control elements of R200, each with its LCID, its direction and its size. -/
theorem classOf_ce_table {dir : Dir} {lcid : BitVec 5} {z : Nat} {c : CeType}
    (h : (lcid.toNat, dir, z, c) ∈ [(26, Dir.ul, 1, CeType.phr), (27, Dir.ul, 2, CeType.crnti),
      (28, Dir.ul, 1, CeType.truncBsr), (29, Dir.ul, 1, CeType.shortBsr), (30, Dir.ul, 3, CeType.longBsr),
      (28, Dir.dl, 6, CeType.conres), (29, Dir.dl, 1, CeType.ta), (30, Dir.dl, 0, CeType.drx)]) :
    classOf dir lcid = some (.ce c) ∧ z = ceSize c := by
  simp only [List.mem_cons, List.not_mem_nil, or_false, Prod.mk.injEq] at h
  have hself : BitVec.ofNat 5 lcid.toNat = lcid := by simp
  rw [← hself]
  rcases h with h | h | h | h | h | h | h | h <;>
  · obtain ⟨hlcid, rfl, rfl, rfl⟩ := h
    rw [hlcid]
    exact ⟨rfl, rfl⟩

/-! ### The walk over one subheader (R87-R92, R202) -/

theorem firstByte_lcid (r : BitVec 2) (lcid : BitVec 5) : (r ++ (1 : BitVec 1) ++ lcid).extractLsb 4 0 = lcid :=
  BitVec.extractLsb'_append_eq_right

theorem firstByte_ext (r : BitVec 2) (lcid : BitVec 5) : (r ++ (1 : BitVec 1) ++ lcid).getLsbD 5 = true :=
  (getLsbD_append_above (r ++ (1 : BitVec 1)) lcid).trans BitVec.getLsbD_append

theorem lengthByte_read (len : BitVec 7) :
    ((0 : BitVec 1) ++ len).getLsbD 7 = false ∧ ((0 : BitVec 1) ++ len).extractLsb 6 0 = len :=
  ⟨getLsbD_append_above _ _, BitVec.extractLsb'_append_eq_right⟩

/-- The record the walk reads for a subheader that is not the last one (R202). -/
def HeaderForm.walked (dir : Dir) (h : HeaderForm) : WalkRec :=
  ⟨(classOf dir h.lcid).getD .pad, h.lcid, h.declared dir⟩

theorem classOf_walked {dir : Dir} {h : HeaderForm} (hfit : h.fits dir) :
    classOf dir h.lcid = some (h.walked dir).cls := by
  have hknown : classOf dir h.lcid ≠ none := by
    cases h with
    | bare r lcid => exact hfit.2
    | short r lcid len => exact fun hnone => by cases (classOf_sdu hfit).symm.trans hnone
    | long r lcid len => exact fun hnone => by cases (classOf_sdu hfit).symm.trans hnone
  obtain ⟨cls, hcls⟩ := Option.ne_none_iff_exists'.1 hknown
  rw [HeaderForm.walked, hcls]
  rfl

theorem declaredLen_walked (dir : Dir) (hs : List HeaderForm) :
    declaredLen (hs.map (HeaderForm.walked dir)) = (hs.map (HeaderForm.declared dir)).sum := by
  rw [declaredLen, List.map_map]; rfl

section
variable {dir : Dir} {maxRx pos : Nat} {recs : List WalkRec} {b : Byte} {rest : Bytes}

theorem walkHeader_tooMany (hmax : recs.length = maxRx) :
    walkHeader dir maxRx (b :: rest) pos recs = .error .pTooMany := by
  rw [walkHeader.eq_def]
  exact if_pos hmax

theorem walkHeader_reserved (hmax : recs.length ≠ maxRx) (hc : classOf dir (b.extractLsb 4 0) = none) :
    walkHeader dir maxRx (b :: rest) pos recs = .error .pLcid := by
  rw [walkHeader.eq_def]
  simp only [if_neg hmax, hc]

theorem walkHeader_last {cls : DecCls} (hmax : recs.length ≠ maxRx)
    (hc : classOf dir (b.extractLsb 4 0) = some cls) (hext : b.getLsbD 5 = false) :
    walkHeader dir maxRx (b :: rest) pos recs = .ok ⟨recs, ⟨cls, b.extractLsb 4 0, 0⟩, pos + 1⟩ := by
  rw [walkHeader.eq_def]
  simp only [if_neg hmax, hc, hext, if_true]

theorem walkHeader_sdu_without_length (hmax : recs.length ≠ maxRx)
    (hc : classOf dir (b.extractLsb 4 0) = some .sdu) (hext : b.getLsbD 5 = true) :
    walkHeader dir maxRx [b] pos recs = .error .pTrunc := by
  rw [walkHeader.eq_def]
  simp only [if_neg hmax, hc, hext]
  rfl

theorem walkHeader_sdu_half_length {f : Byte} (hmax : recs.length ≠ maxRx)
    (hc : classOf dir (b.extractLsb 4 0) = some .sdu) (hext : b.getLsbD 5 = true) (hlong : f.getLsbD 7 = true) :
    walkHeader dir maxRx [b, f] pos recs = .error .pTrunc := by
  rw [walkHeader.eq_def]
  simp only [if_neg hmax, hc, hext, hlong]
  rfl

/-- The walk reads one subheader of any form, whatever its R bits, and goes on (R202, R206). -/
theorem walkHeader_form {h : HeaderForm} (hfit : h.fits dir) (hmax : recs.length ≠ maxRx) :
    walkHeader dir maxRx (h.bytes ++ rest) pos recs
      = walkHeader dir maxRx rest (pos + h.bytes.length) (recs ++ [h.walked dir]) := by
  cases h with
  | bare r lcid =>
    obtain ⟨hlcid, hknown⟩ := hfit
    obtain ⟨cls, hc⟩ := Option.ne_none_iff_exists'.1 hknown
    rw [HeaderForm.bytes, List.singleton_append, walkHeader.eq_def]
    simp only [if_neg hmax, firstByte_lcid, firstByte_ext, hc, HeaderForm.walked, HeaderForm.lcid, HeaderForm.declared]
    cases cls with
    | pad => rfl
    | ce t => rfl
    | sdu => exact absurd (classOf_eq_sdu_iff.1 hc) (Nat.not_le.2 hlcid)
  | short r lcid len =>
    obtain ⟨hbit, hread⟩ := lengthByte_read len
    rw [HeaderForm.bytes, List.cons_append, List.singleton_append, walkHeader.eq_def]
    simp only [if_neg hmax, firstByte_lcid, firstByte_ext, classOf_sdu hfit, hbit, hread, HeaderForm.walked,
      HeaderForm.lcid, HeaderForm.declared]
    rfl
  | long r lcid len =>
    obtain ⟨hbit, hread⟩ := longLength_read len
    rw [HeaderForm.bytes, List.cons_append, List.cons_append, List.singleton_append, walkHeader.eq_def]
    simp only [if_neg hmax, firstByte_lcid, firstByte_ext, classOf_sdu hfit, hbit, hread, HeaderForm.walked,
      HeaderForm.lcid, HeaderForm.declared]
    rfl

/-- The walk reads a sequence of subheaders one by one (R202). -/
theorem walkHeader_forms : ∀ (hs : List HeaderForm) (pos : Nat) (recs : List WalkRec), (∀ h ∈ hs, h.fits dir) →
    recs.length + hs.length ≤ maxRx →
    walkHeader dir maxRx (hs.flatMap HeaderForm.bytes ++ rest) pos recs
      = walkHeader dir maxRx rest (pos + (hs.flatMap HeaderForm.bytes).length)
          (recs ++ hs.map (HeaderForm.walked dir))
  | [], pos, recs, _, _ => by simp
  | h :: hs, pos, recs, hfit, hmax => by
    rw [List.length_cons] at hmax
    rw [List.flatMap_cons, List.append_assoc, walkHeader_form (hfit h (by simp)) (by omega),
      walkHeader_forms hs _ _ (fun y hy => hfit y (by simp [hy])) (by simp; omega)]
    simp [Nat.add_assoc]

end

/-! ### READ of a header written out (R201-R206) -/

/-- The walk over the subheaders `hs` and the last subheader `b` of kind `cls` (R202). -/
def formsWalk (dir : Dir) (hs : List HeaderForm) (b : Byte) (cls : DecCls) : Walk :=
  ⟨hs.map (HeaderForm.walked dir), ⟨cls, b.extractLsb 4 0, 0⟩, (hs.flatMap HeaderForm.bytes).length + 1⟩

section
variable {dir : Dir} {maxRx : Nat} {hs : List HeaderForm} {b : Byte} {cls : DecCls} {payload : Bytes}

theorem walkHeader_forms_rest (hfit : ∀ h ∈ hs, h.fits dir) (hmax : hs.length ≤ maxRx) (rest : Bytes) :
    walkHeader dir maxRx (hs.flatMap HeaderForm.bytes ++ rest) 0 []
      = walkHeader dir maxRx rest (hs.flatMap HeaderForm.bytes).length (hs.map (HeaderForm.walked dir)) := by
  rw [walkHeader_forms hs 0 [] hfit (by simpa using hmax), Nat.zero_add, List.nil_append]

theorem walkHeader_forms_last (hfit : ∀ h ∈ hs, h.fits dir) (hmax : hs.length < maxRx)
    (hc : classOf dir (b.extractLsb 4 0) = some cls) (hext : b.getLsbD 5 = false) :
    walkHeader dir maxRx (hs.flatMap HeaderForm.bytes ++ b :: payload) 0 [] = .ok (formsWalk dir hs b cls) := by
  rw [walkHeader_forms_rest hfit hmax.le, walkHeader_last (by simpa using hmax.ne) hc hext, formsWalk]

theorem formsWalk_rest : (formsWalk dir hs b cls).rest (hs.flatMap HeaderForm.bytes ++ b :: payload).length
    = payload.length - (hs.map (HeaderForm.declared dir)).sum := by
  simp only [Walk.rest, formsWalk, declaredLen_walked, List.length_append, List.length_cons]
  omega

theorem formsWalk_resolves_iff :
    (formsWalk dir hs b cls).Resolves (hs.flatMap HeaderForm.bytes ++ b :: payload).length ↔
      (hs.map (HeaderForm.declared dir)).sum ≤ payload.length ∧
        ∀ c, cls = .ce c → payload.length = (hs.map (HeaderForm.declared dir)).sum + ceSize c := by
  have hfits : (formsWalk dir hs b cls).hend + declaredLen (formsWalk dir hs b cls).before
      ≤ (hs.flatMap HeaderForm.bytes ++ b :: payload).length ↔
        (hs.map (HeaderForm.declared dir)).sum ≤ payload.length := by
    simp only [formsWalk, declaredLen_walked, List.length_append, List.length_cons]
    omega
  rw [Walk.Resolves, formsWalk_rest, hfits]
  refine and_congr_right fun hle => forall₂_congr fun c _ => ?_
  omega

theorem dec_kinds_of_forms {d : Bytes} (hfit : ∀ h ∈ hs, h.fits dir) :
    ((formsWalk dir hs b cls).dec dir d).recs.map (fun r => (some r.cls, r.lcid))
      = hs.map (fun h => (classOf dir h.lcid, h.lcid)) ++ [(some cls, b.extractLsb 4 0)] := by
  have hkinds := congrArg (List.map fun k : DecCls × BitVec 5 => (some k.1, k.2))
    (dec_kinds (dir := dir) (d := d) (w := formsWalk dir hs b cls))
  rw [List.map_map, List.map_map, List.map_append, formsWalk, List.map_map] at hkinds
  refine hkinds.trans (congrArg (· ++ _) (List.map_congr_left fun h hh => ?_))
  rw [classOf_walked (hfit h hh)]
  rfl

/-- One subheader and its payload: the table's only record has the whole payload (R103). -/
theorem parsed_readWalk_single {s : State} {lcid : BitVec 5} (hd : s.host.din = b :: payload)
    (hlen : (b :: payload).length < 65536) :
    (s.readWalk dir ⟨[], ⟨cls, lcid, 0⟩, 1⟩).parsed = [⟨cls, lcid, payload.length, payload⟩] := by
  have hrecord := parsedIn_withOffsets [⟨cls, lcid, payload.length, payload⟩] [b] (by simp) (by simpa using hlen)
  have hrest : (⟨[], ⟨cls, lcid, 0⟩, 1⟩ : Walk).rest (b :: payload).length = payload.length := by
    simp [Walk.rest, declaredLen]
  rw [parsed_eq, readWalk_dec, hd, Walk.dec, Walk.records, hrest]
  simpa [Parsed.walkRec] using hrecord

/-- A header written out whose lengths fit its payload is read as its walk (R202-R204). -/
theorem exec_read_of_forms {s : State} (hdin : s.host.din.length ≤ s.params.maxTbBytes)
    (hd : s.host.din = hs.flatMap HeaderForm.bytes ++ b :: payload) (hfit : ∀ h ∈ hs, h.fits dir)
    (hmax : hs.length < s.params.maxSubhRx) (hc : classOf dir (b.extractLsb 4 0) = some cls)
    (hext : b.getLsbD 5 = false) (h : (formsWalk dir hs b cls).Resolves s.host.din.length) :
    exec (.read dir s.host.din.length) s = .next (s.readWalk dir (formsWalk dir hs b cls)) :=
  exec_read_of_walk hdin (by rw [hd]; exact walkHeader_forms_last hfit hmax hc hext) h

/-- A header written out whose lengths do not fit its payload is dropped (R203, R205). -/
theorem exec_read_of_forms_pLen {s : State} (hdin : s.host.din.length ≤ s.params.maxTbBytes)
    (hd : s.host.din = hs.flatMap HeaderForm.bytes ++ b :: payload) (hfit : ∀ h ∈ hs, h.fits dir)
    (hmax : hs.length < s.params.maxSubhRx) (hc : classOf dir (b.extractLsb 4 0) = some cls)
    (hext : b.getLsbD 5 = false) (h : ¬ (formsWalk dir hs b cls).Resolves s.host.din.length) :
    exec (.read dir s.host.din.length) s = .next (s.readDropped dir .pLen) :=
  exec_read_of_not_resolves hdin (by rw [hd]; exact walkHeader_forms_last hfit hmax hc hext) h

/-- The table after a header written out: the declared lengths and what they leave, and payloads that join up to the
block's (R203, R204). -/
theorem dec_of_forms {d : Bytes} (hd : d = hs.flatMap HeaderForm.bytes ++ b :: payload) (hd16 : d.length < 65536)
    (h : (formsWalk dir hs b cls).Resolves d.length) :
    let recs := ((formsWalk dir hs b cls).dec dir d).recs
    recs.map (fun r => r.len.toNat)
        = hs.map (HeaderForm.declared dir) ++ [payload.length - (hs.map (HeaderForm.declared dir)).sum] ∧
      (∀ p ∈ recs.map (parsedIn d), p.payload.length = p.len) ∧
      ((recs.map (parsedIn d)).map Parsed.payload).flatten = payload := by
  obtain ⟨hlen, hjoin⟩ := parsedIn_of_recsCover (dec_cover (dir := dir) h hd16)
  refine ⟨(dec_lens h hd16).trans ?_, hlen, hjoin.trans ?_⟩
  · rw [hd, formsWalk_rest, formsWalk, List.map_map]
    rfl
  · rw [hd, formsWalk, ← List.drop_drop, List.drop_left]
    rfl

end

end Sys2Proof.Machine

namespace Sys2Proof.Proofs

open Sys2Proof.Machine

/-- Settles O32: the walk passes over the subheaders, and what follows them decides its end; behind a last subheader
the lengths resolve, or they do not. -/
theorem readAnySubheaderSequence : Obligations.ReadAnySubheaderSequence := by
  intro dir s hs b payload hlegal hfit hdin lcid declared
  obtain ⟨-, -, -, htb, -⟩ := legal_bounds hlegal
  have hcount : (hs.map (HeaderForm.walked dir)).length = hs.length := List.length_map ..
  obtain ⟨t, ht, -⟩ := exec_keepsPort (.read dir s.host.din.length) s
  have herror : ∀ e, walkHeader dir s.params.maxSubhRx s.host.din 0 [] = .error e → t.err = e := by
    intro e hw
    obtain rfl := Host.Outcome.next.inj (ht.symm.trans (exec_read_of_walk_error hdin hw))
    rfl
  refine ⟨t, ht, fun hd hmax => ⟨fun hc => herror _ ?_, fun cls hc hext => ?_⟩, fun hd hmax => herror _ ?_,
    fun hd hmax hsdu hext => herror _ ?_, fun f hd hmax hsdu hext hlong => herror _ ?_, fun hd hmax => herror _ ?_⟩
  · rw [hd, walkHeader_forms_rest hfit hmax.le, walkHeader_reserved (by omega) hc]
  · have hresolves := formsWalk_resolves_iff (dir := dir) (hs := hs) (b := b) (cls := cls) (payload := payload)
    rw [← hd] at hresolves
    refine ⟨fun hbad => ?_, fun hle hsize => ?_⟩
    · have hnot : ¬ (formsWalk dir hs b cls).Resolves s.host.din.length := by
        rw [hresolves]
        rintro ⟨hle, hsize⟩
        rcases hbad with hshort | ⟨c, hce, hne⟩
        · exact absurd hle (Nat.not_le.2 hshort)
        · exact hne (hsize c hce)
      obtain rfl := Host.Outcome.next.inj (ht.symm.trans (exec_read_of_forms_pLen hdin hd hfit hmax hc hext hnot))
      rfl
    · have h := hresolves.2 ⟨hle, hsize⟩
      obtain rfl := Host.Outcome.next.inj (ht.symm.trans (exec_read_of_forms hdin hd hfit hmax hc hext h))
      refine ⟨rfl, ?_, dec_kinds_of_forms hfit, dec_of_forms hd (by omega) h⟩
      rw [readWalk_res, formsWalk, hcount]
  · rw [hd, ← List.append_nil (hs.flatMap _), walkHeader_forms_rest hfit hmax, walkHeader]
  · rw [hd, walkHeader_forms_rest hfit hmax.le, walkHeader_sdu_without_length (by omega) (classOf_sdu hsdu) hext]
  · rw [hd, walkHeader_forms_rest hfit hmax.le, walkHeader_sdu_half_length (by omega) (classOf_sdu hsdu) hext hlong]
  · rw [hd, walkHeader_forms_rest hfit hmax.le, walkHeader_tooMany (by omega)]

/-- Settles O33: the walk ends at its first subheader, of a kind that its LCID gives, and leaves it all other bytes. -/
theorem readOneSubheader : Obligations.ReadOneSubheader := by
  intro dir s hlegal
  obtain ⟨-, -, -, htb, hrx, -⟩ := legal_bounds hlegal
  refine ⟨fun hd => ?_, ?_⟩
  · have hw : walkHeader dir s.params.maxSubhRx s.host.din 0 [] = .error .pTrunc := by rw [hd, walkHeader]
    have hread := exec_read_of_walk_error (by simp [hd]) hw
    rw [hd] at hread
    exact ⟨_, hread, rfl, rfl⟩
  intro b rest hd hext hfit lcid
  have hlen : s.host.din.length = rest.length + 1 := by rw [hd, List.length_cons]
  have hdin : s.host.din.length ≤ s.params.maxTbBytes := by omega
  have hmax : ([] : List HeaderForm).length < s.params.maxSubhRx := by rw [List.length_nil]; omega
  obtain ⟨t, ht, -⟩ := exec_keepsPort (.read dir s.host.din.length) s
  have hresolves : ∀ cls, (formsWalk dir [] b cls).Resolves s.host.din.length ↔
      ∀ c, cls = .ce c → rest.length = ceSize c := by
    intro cls
    rw [hd]
    simpa using formsWalk_resolves_iff (dir := dir) (hs := []) (b := b) (cls := cls) (payload := rest)
  have hparses : ∀ cls, classOf dir lcid = some cls → (∀ c, cls = .ce c → rest.length = ceSize c) →
      t.err = .ok ∧ t.res = 1 ∧ t.dec.valid = true ∧ t.parsed = [⟨cls, lcid, rest.length, rest⟩] := by
    intro cls hc hsize
    obtain rfl := Host.Outcome.next.inj
      (ht.symm.trans (exec_read_of_forms (hs := []) hdin hd (by simp) hmax hc hext ((hresolves cls).2 hsize)))
    exact ⟨rfl, readWalk_res, rfl, parsed_readWalk_single hd (by rw [← hd]; omega)⟩
  refine ⟨t, hlen ▸ ht, fun hsdu => hparses _ (classOf_sdu hsdu) (by simp), fun hpad => ?_, fun hlow hhigh => ?_,
    fun z c hmem => ⟨fun hz => ?_, fun hz => ?_⟩⟩
  · have hlcid : lcid = 31 := BitVec.eq_of_toNat_eq hpad
    exact hparses _ (hlcid ▸ classOf_pad dir) (by simp)
  · have hw : walkHeader dir s.params.maxSubhRx s.host.din 0 [] = .error .pLcid := by
      rw [hd, walkHeader_reserved (Nat.ne_of_lt hmax) (classOf_reserved hlow hhigh)]
    obtain rfl := Host.Outcome.next.inj (ht.symm.trans (exec_read_of_walk_error hdin hw))
    exact ⟨rfl, rfl⟩
  · obtain ⟨hc, hsize⟩ := classOf_ce_table hmem
    subst hz
    exact hparses _ hc fun c' hc' => by cases hc'; exact hsize
  · obtain ⟨hc, hsize⟩ := classOf_ce_table hmem
    have hnot : ¬ (formsWalk dir [] b (.ce c)).Resolves s.host.din.length := by
      rw [hresolves]
      exact fun h => hz ((h c rfl).trans hsize.symm)
    obtain rfl := Host.Outcome.next.inj
      (ht.symm.trans (exec_read_of_forms_pLen (hs := []) hdin hd (by simp) hmax hc hext hnot))
    exact ⟨rfl, rfl⟩

end Sys2Proof.Proofs

/-! SUPPORT. The level functions (43_level_tables.md): a buffer-size level counts the thresholds below the count (R232),
and the thresholds, with 0 in front, are the bounds between the levels 1 to 62. A headroom level is the floor of the
clamped headroom (R234). -/

namespace Sys2Proof.Machine

open Sys2Proof.Config

/-! ### Counting in a list that is cut at an index -/

/-- A list is its entries by index: this ties the count over the table to the count over the indices of R232. -/
theorem eq_map_range_getD {t : List Nat} {k : Nat} (h : t.length = k) : t = (List.range k).map (t.getD · 0) := by
  refine List.ext_getElem (by simp [h]) fun i hi _ => ?_
  simp [hi]

theorem length_filter_eq_range {t : List Nat} {k : Nat} (h : t.length = k) (p : Nat → Bool) :
    (t.filter p).length = ((List.range k).filter fun i => p (t.getD i 0)).length := by
  conv_lhs => rw [eq_map_range_getD h, List.filter_map, List.length_map]
  rfl

/-- Where exactly the first `i` entries are below `n`, the count of the entries below `n` is `i`. -/
theorem length_filter_lt_of_cut {t : List Nat} {i n : Nat} (hi : i ≤ t.length) (hlow : ∀ x ∈ t.take i, x < n)
    (hhigh : ∀ x ∈ t.drop i, n ≤ x) : (t.filter fun x => decide (x < n)).length = i := by
  have htake : (t.take i).filter (fun x => decide (x < n)) = t.take i :=
    List.filter_eq_self.2 fun x hx => decide_eq_true (hlow x hx)
  have hdrop : (t.drop i).filter (fun x => decide (x < n)) = [] :=
    List.filter_eq_nil_iff.2 fun x hx => by simpa using hhigh x hx
  calc (t.filter fun x => decide (x < n)).length
      = ((t.take i ++ t.drop i).filter fun x => decide (x < n)).length := by rw [List.take_append_drop]
    _ = (t.take i).length := by rw [List.filter_append, htake, hdrop, List.append_nil]
    _ = i := List.length_take_of_le hi

/-! ### The buffer-size level -/

theorem legal_thresh {p : Params} (h : p.legal = true) : legalThresh p.bsrThresh = true := by
  simp only [Params.legal, Bool.and_eq_true] at h
  exact h.2

theorem legalThresh_iff {t : List Nat} :
    legalThresh t = true ↔ t.length = 62 ∧ (0 :: t).Pairwise (· < ·) ∧ ∀ x ∈ t, x < satCount :=
  decide_eq_true_iff

@[simp] theorem bsrLevelOf_zero (t : List Nat) : bsrLevelOf t 0 = 0 := rfl

theorem bsrLevelOf_above {t : List Nat} {n : Nat} (h : t.getD 61 0 < n) : bsrLevelOf t n = 63 := by
  rw [bsrLevelOf, if_neg (by omega), if_pos h]

theorem bsrLevelOf_inside {t : List Nat} {n : Nat} (hn : n ≠ 0) (h : n ≤ t.getD 61 0) :
    bsrLevelOf t n = 1 + (t.filter fun x => decide (x < n)).length := by
  rw [bsrLevelOf, if_neg hn, if_neg (Nat.not_lt.2 h)]

section

variable {t : List Nat} (h : legalThresh t = true)
include h

theorem legalThresh_length : t.length = 62 := by
  obtain ⟨hlen, -⟩ := legalThresh_iff.1 h
  exact hlen

/-- The bounds of the levels, 0 and then the thresholds, are strictly increasing (R230). -/
theorem legalThresh_bounds_lt {i j : Nat} (hij : i < j) (hj : j ≤ 62) : (0 :: t).getD i 0 < (0 :: t).getD j 0 := by
  obtain ⟨ht, hsorted, -⟩ := legalThresh_iff.1 h
  have hlen : (0 :: t).length = 63 := by rw [List.length_cons, ht]
  rw [List.getD_eq_getElem _ _ (by omega), List.getD_eq_getElem _ _ (by omega)]
  exact List.pairwise_iff_getElem.1 hsorted i j (by omega) (by omega) hij

theorem legalThresh_bounds_le {i j : Nat} (hij : i ≤ j) (hj : j ≤ 62) : (0 :: t).getD i 0 ≤ (0 :: t).getD j 0 := by
  obtain rfl | hlt := hij.eq_or_lt
  · exact le_rfl
  · exact (legalThresh_bounds_lt h hlt hj).le

/-- Level `i + 1` is the bucket above bound `i`, up to and with bound `i + 1` (R232). -/
theorem bsrLevelOf_bucket {i n : Nat} (hi : i < 62) (hlow : (0 :: t).getD i 0 < n) (hhigh : n ≤ t.getD i 0) :
    bsrLevelOf t n = i + 1 := by
  have hlen := legalThresh_length h
  have hlast : t.getD i 0 ≤ t.getD 61 0 := legalThresh_bounds_le h (i := i + 1) (j := 62) (by omega) le_rfl
  rw [bsrLevelOf_inside (by omega) (by omega), length_filter_lt_of_cut (i := i) (by omega), Nat.add_comm]
  · intro x hx
    obtain ⟨j, hj, rfl⟩ := List.mem_take_iff_getElem.1 hx
    have hle := legalThresh_bounds_le h (i := j + 1) (j := i) (by omega) (by omega)
    rw [List.getD_cons_succ, List.getD_eq_getElem _ _ (by omega)] at hle
    exact hle.trans_lt hlow
  · intro x hx
    obtain ⟨j, hj, rfl⟩ := List.mem_drop_iff_getElem.1 hx
    have hle : t.getD i 0 ≤ t.getD (i + j) 0 :=
      legalThresh_bounds_le h (i := i + 1) (j := i + j + 1) (by omega) (by omega)
    rw [List.getD_eq_getElem (n := i + j) _ _ (by omega)] at hle
    exact hhigh.trans hle

theorem bsrLevelOf_threshold {i : Nat} (hi : i < 62) : bsrLevelOf t (t.getD i 0) = i + 1 :=
  bsrLevelOf_bucket h hi (legalThresh_bounds_lt h (Nat.lt_succ_self i) hi) le_rfl

theorem bsrLevelOf_le (n : Nat) : bsrLevelOf t n ≤ 63 := by
  obtain rfl | hn := eq_or_ne n 0
  · exact Nat.zero_le 63
  obtain habove | hinside := lt_or_ge (t.getD 61 0) n
  · exact (bsrLevelOf_above habove).le
  · have hcount := List.length_filter_le (fun x => decide (x < n)) t
    rw [legalThresh_length h] at hcount
    rw [bsrLevelOf_inside hn hinside]
    omega

theorem bsrLevelOf_mono {m n : Nat} (hmn : m ≤ n) : bsrLevelOf t m ≤ bsrLevelOf t n := by
  obtain rfl | hm := eq_or_ne m 0
  · exact Nat.zero_le _
  obtain habove | hinside := lt_or_ge (t.getD 61 0) n
  · rw [bsrLevelOf_above habove]
    exact bsrLevelOf_le h m
  · have hsub : (t.filter fun x => decide (x < m)).Sublist (t.filter fun x => decide (x < n)) :=
      List.monotone_filter_right t fun x hx => decide_eq_true ((of_decide_eq_true hx).trans_le hmn)
    rw [bsrLevelOf_inside hm (hmn.trans hinside), bsrLevelOf_inside (by omega) hinside]
    exact Nat.add_le_add_left hsub.length_le 1

/-- The level as R232 writes it: the count is over the indices 0 to 61. -/
theorem bsrLevelOf_eq_index_count (n : Nat) :
    bsrLevelOf t n = if n = 0 then 0 else if t.getD 61 0 < n then 63
      else 1 + ((List.range 62).filter fun i => decide (t.getD i 0 < n)).length := by
  rw [← length_filter_eq_range (legalThresh_length h) fun x => decide (x < n)]
  rfl

end

/-! ### The headroom level -/

/-- The level is the floor of the clamped headroom, as the two ends of a division by 256. -/
theorem phrLevelOf_floor (ph : Int) :
    256 * (phrLevelOf ph : Int) ≤ max (-5888) (min 10240 ph) + 5888 ∧
      max (-5888) (min 10240 ph) + 5888 < 256 * ((phrLevelOf ph : Int) + 1) := by
  have hclamp : 0 ≤ max (-5888) (min 10240 ph) + 5888 := by omega
  rw [phrLevelOf, Int.toNat_of_nonneg (Int.ediv_nonneg hclamp (by decide))]
  omega

theorem phrLevelOf_mono {p q : Int} (hpq : p ≤ q) : phrLevelOf p ≤ phrLevelOf q := by
  have hclamp : max (-5888) (min 10240 p) ≤ max (-5888) (min 10240 q) := max_le_max_left _ (min_le_min_left _ hpq)
  exact Int.toNat_le_toNat (Int.ediv_le_ediv (by decide) (Int.add_le_add_right hclamp 5888))

theorem phrLevelOf_of_le {ph : Int} (h : ph ≤ -5888) : phrLevelOf ph = 0 := by
  have hfloor := phrLevelOf_floor ph
  omega

theorem phrLevelOf_of_ge {ph : Int} (h : 10240 ≤ ph) : phrLevelOf ph = 63 := by
  have hfloor := phrLevelOf_floor ph
  omega

theorem phrLevelOf_inside {ph : Int} (hlow : -5888 ≤ ph) (hhigh : ph < 10240) :
    256 * (phrLevelOf ph : Int) ≤ ph + 5888 ∧ ph + 5888 < 256 * ((phrLevelOf ph : Int) + 1) := by
  have hfloor := phrLevelOf_floor ph
  rwa [min_eq_right hhigh.le, max_eq_right hlow] at hfloor

theorem phrLevelOf_le (ph : Int) : phrLevelOf ph ≤ 63 := by
  have hfloor := phrLevelOf_floor ph
  omega

/-! ### The two commands -/

theorem exec_bsrLevel (b : Nat) (s : State) :
    exec (.bsrLevel b) s = .next (s.answered .ok (bsrLevelOf s.params.bsrThresh b)) :=
  complete_ok _ s

theorem exec_phrLevel (ph : Int) (s : State) : exec (.phrLevel ph) s = .next (s.answered .ok (phrLevelOf ph)) :=
  complete_ok _ s

end Sys2Proof.Machine

namespace Sys2Proof.Proofs

open Sys2Proof.Machine Sys2Proof.Config

/-- Settles O35: the model counts the thresholds in the table, R232 their indices. -/
theorem bsrLevelAnswers : Obligations.BsrLevelAnswers := by
  intro b s hlegal
  rw [exec_bsrLevel, bsrLevelOf_eq_index_count (legal_thresh hlegal)]
  push_cast
  rfl

/-- Settles O36: each threshold closes its own bucket, and so does 150000 in the default table. -/
theorem bsrLevelLaws : Obligations.BsrLevelLaws := by
  have hstandard : legalThresh Params.standard.bsrThresh = true := by decide
  exact ⟨fun t ht => ⟨bsrLevelOf_zero t, bsrLevelOf_le ht, fun _ _ => bsrLevelOf_mono ht,
      fun _ => bsrLevelOf_threshold ht⟩,
    bsrLevelOf_above (by decide), fun n hlow hhigh => bsrLevelOf_bucket hstandard (i := 61) (by decide) hlow hhigh⟩

/-- Settles O37: below, above and inside the clamp. -/
theorem phrLevelAnswers : Obligations.PhrLevelAnswers :=
  ⟨fun ph s => ⟨phrLevelOf ph, exec_phrLevel ph s, rfl, phrLevelOf_le ph, phrLevelOf_of_le, phrLevelOf_of_ge,
    phrLevelOf_inside⟩, fun _ _ => phrLevelOf_mono⟩

end Sys2Proof.Proofs

/-! SUPPORT. The channel table, the token counters and the service order (44_mux.md R250-R257). -/

namespace Sys2Proof.Machine

open Sys2Proof.Config

/-! ### The channel commands (R251-R254) -/

theorem onChannel_refused {lcid : Nat} (h : lcidSduMax < lcid) (s t : State) : onChannel lcid t s = fail .arg (-1) s :=
  if_pos h

theorem onChannel_accepted {lcid : Nat} (h : lcid ≤ lcidSduMax) (s t : State) : onChannel lcid t s = ok 1 t :=
  if_neg (Nat.not_lt.2 h)

theorem bindChannel_active {lcid : Nat} {s : State} (h : (s.lch lcid).active = true) : bindChannel lcid s = s :=
  if_pos h

theorem bindChannel_inactive {lcid : Nat} {s : State} (h : (s.lch lcid).active = false) :
    bindChannel lcid s = (s.setLch lcid { s.lch lcid with active := true }).setTok lcid 0 :=
  if_neg (by simp [h])

/-- A channel's entry depends on the channel table alone (R35). -/
theorem lch_of_cfg_eq {s t : State} (h : t.cfg = s.cfg) : t.lch = s.lch := by
  funext l
  rw [State.lch, h, State.lch]

theorem limited_of_cfg_eq {s t : State} (h : t.cfg = s.cfg) : t.limited = s.limited := by
  funext l
  rw [State.limited, lch_of_cfg_eq h, State.limited]

/-- What a command writes to one channel of the table: `c` there, the other channels as they were, `RES` = 1 and nothing
else (R252, R253). -/
theorem complete_setLch {lcid : Nat} (h : lcid ≤ lcidSduMax) (c : Lch) (s : State) :
    ∃ t, complete (onChannel lcid (s.setLch lcid c) s) = .next t ∧ t.lch lcid = c ∧
      (∀ l, l ≠ lcid → t.lch l = s.lch l) ∧ t = ({ s with cfg := t.cfg } : State).answered .ok 1 := by
  rw [onChannel_accepted h, complete_ok]
  exact ⟨_, rfl, lch_setLch_self h c, fun _ hl => lch_setLch_ne hl c, rfl⟩

/-! ### The tick (R256, R257) -/

/-- The count that a tick leaves is read as R256 writes it (R257). -/
theorem toInt_tickedTok (s : State) (l : Nat) :
    (tickedTok s l).toInt =
      if (s.lch l).active = true ∧ (s.lch l).pbr ≠ pbrInf then
        sat32 (min (s.tokOf l + (s.lch l).pbr.toNat) (((s.lch l).pbr.toNat * (s.lch l).bsd.toNat : Nat) : Int))
      else s.tokOf l := by
  have hlimited : ((s.lch l).active && s.limited l) = true ↔ (s.lch l).active = true ∧ (s.lch l).pbr ≠ pbrInf := by
    simp [State.limited]
  unfold tickedTok
  by_cases h : (s.lch l).active = true ∧ (s.lch l).pbr ≠ pbrInf
  · rw [if_pos (hlimited.2 h), if_pos h, toInt_sat32]
  · rw [if_neg (mt hlimited.1 h), if_neg h]
    rfl

/-! ### The service order (R255) -/

/-- The model's `Order()` is the insertion sort of the active channels. -/
theorem serviceOrder_eq_insertionSort (s : State) :
    serviceOrder s = (activeChannels s).insertionSort (servedBefore s) := by
  have hinsert : ∀ a ls, insertChannel s a ls = ls.orderedInsert (servedBefore s) a := by
    intro a ls
    induction ls with
    | nil => rfl
    | cons b rest ih => rw [insertChannel, List.orderedInsert_cons, ih]
  rw [serviceOrder, funext₂ hinsert, List.insertionSort]

theorem servedBefore_total (s : State) (a b : Nat) : servedBefore s a b ∨ servedBefore s b a := by
  unfold servedBefore
  omega

theorem servedBefore_trans {s : State} {a b c : Nat} (hab : servedBefore s a b) (hbc : servedBefore s b c) :
    servedBefore s a c := by
  unfold servedBefore at *
  omega

theorem serviceOrder_pairwise (s : State) : (serviceOrder s).Pairwise (servedBefore s) := by
  have htotal : Std.Total (servedBefore s) := ⟨servedBefore_total s⟩
  have htrans : IsTrans Nat (servedBefore s) := ⟨fun _ _ _ => servedBefore_trans⟩
  rw [serviceOrder_eq_insertionSort]
  exact List.pairwise_insertionSort _ _

theorem activeChannels_nodup (s : State) : (activeChannels s).Nodup := List.nodup_range.filter _

theorem mem_activeChannels {s : State} {l : Nat} : l ∈ activeChannels s ↔ l ≤ 10 ∧ (s.lch l).active = true := by
  rw [activeChannels, List.mem_filter, List.mem_range, Nat.lt_succ_iff]

theorem serviceOrder_nodup (s : State) : (serviceOrder s).Nodup := by
  rw [serviceOrder_eq_insertionSort]
  exact (List.perm_insertionSort _ _).nodup_iff.2 (activeChannels_nodup s)

/-- The channels and their order depend on the channel table alone (R255, R262). -/
theorem activeChannels_of_cfg_eq {s t : State} (h : t.cfg = s.cfg) : activeChannels t = activeChannels s := by
  rw [activeChannels, lch_of_cfg_eq h, activeChannels]

theorem serviceOrder_of_cfg_eq {s t : State} (h : t.cfg = s.cfg) : serviceOrder t = serviceOrder s := by
  have hinsert : ∀ a ls, insertChannel t a ls = insertChannel s a ls := by
    intro a ls
    induction ls with
    | nil => rfl
    | cons b rest ih => simp only [insertChannel, servedBefore, lch_of_cfg_eq h, ih]
  rw [serviceOrder, funext₂ hinsert, activeChannels_of_cfg_eq h, serviceOrder]

end Sys2Proof.Machine

namespace Sys2Proof.Proofs

open Sys2Proof.Machine Sys2Proof.Config

/-- Settles O38: the LCID is checked first, and only an inactive channel is written. -/
theorem addBearerActivates : Obligations.AddBearerActivates := by
  intro lcid s
  refine ⟨fun h => congrArg complete (onChannel_refused h s _), fun h hactive => ?_, fun h hinactive => ?_⟩
  · exact congrArg complete ((onChannel_accepted h s _).trans (congrArg (ok 1) (bindChannel_active hactive)))
  · have hbody := (onChannel_accepted h s _).trans (congrArg (ok 1) (bindChannel_inactive hinactive))
    refine ⟨_, congrArg complete hbody, lch_setLch_self h _, tokOf_setTok_self h 0, fun l hl => ?_, rfl⟩
    exact ⟨lch_setLch_ne hl _, tokOf_setTok_ne hl 0⟩

/-- Settles O39: both commands check the LCID and write one entry of the table. -/
theorem channelFieldsWritten : Obligations.ChannelFieldsWritten := by
  refine ⟨fun lcid s h => ⟨fun prio pbr bsd => ?_, fun g => ?_⟩,
    fun lcid s h => ⟨fun prio pbr bsd => complete_setLch h _ s, fun g => complete_setLch h _ s⟩⟩
  · exact congrArg complete (onChannel_refused h s _)
  · exact congrArg complete (onChannel_refused h s _)

/-- Settles O40: the channel table and the counters are those of the reset state. -/
theorem resetBearersTearsDown : Obligations.ResetBearersTearsDown := by
  intro s
  exact ⟨_, complete_ok 1 _, hasResetValues_reset.lch_zero, fun l h1 _ => hasResetValues_reset.lch_data h1,
    fun l _ => hasResetValues_reset.tokOf_zero l, rfl⟩

/-- Settles O41: the counter at each index of the table is the ticked one. -/
theorem ttiTickAddsTokens : Obligations.TtiTickAddsTokens := by
  intro tti s
  refine ⟨_, complete_ok 1 _, fun l h => ?_, rfl⟩
  have hread : State.tokOf ({ s with mux := { s.mux with
      tok := Vector.ofFn fun (i : Fin 11) => tickedTok s i.val } } : State) l = (tickedTok s l).toInt := by
    simp [State.tokOf, Nat.lt_succ_of_le h]
  refine hread.trans ((toInt_tickedTok s l).trans ?_)
  push_cast
  rfl

/-- Settles O42: the order is an insertion sort, without repetitions, so that a tie in `PRIO` is broken strictly. -/
theorem serviceOrderSorted : Obligations.ServiceOrderSorted := by
  intro s
  refine ⟨fun l => mem_serviceOrder.trans mem_activeChannels, serviceOrder_nodup s, ?_⟩
  refine ((serviceOrder_pairwise s).and (serviceOrder_nodup s)).imp ?_
  rintro a b ⟨hlt | ⟨heq, hle⟩, hne⟩
  · exact .inl hlt
  · exact .inr ⟨BitVec.eq_of_toNat_eq heq, lt_of_le_of_ne hle hne⟩

/-- Settles O43: RETX is looked at first, then the stored copy, and without RETX the size. -/
theorem grantRetransmitsOrRefuses : Obligations.GrantRetransmitsOrRefuses := by
  intro n m3 ci bt pt rnti ph s
  refine ⟨fun hnone => ?_, fun hvalid hne => ?_, fun hvalid hlen => ?_, fun hsize => ?_⟩
  · exact congrArg complete (show msg3RetxBody n s = fail .msg3None (-1) s from if_pos hnone)
  · have hsome : ¬ s.mux.msg3.valid = false := by simp [hvalid]
    exact congrArg complete (show msg3RetxBody n s = fail .msg3Size (-1) s from (if_neg hsome).trans (if_pos hne))
  · have hsome : ¬ s.mux.msg3.valid = false := by simp [hvalid]
    exact congrArg complete ((if_neg hsome).trans (if_neg (not_not.2 hlen)))
  · have hillegal : n < 1 ∨ n > s.params.maxTbBytes := by omega
    exact congrArg complete (if_pos hillegal)

end Sys2Proof.Proofs

/-! SUPPORT. The service loop of a grant (44_mux.md R266): what a pass that goes on has done, the bound on the number of
passes, and the loop and the two phases as the rules write them (`ServesChannel`, `ServesPhases`). -/

namespace Sys2Proof.Machine

open Sys2Proof.Config

/-! ### One pass of the loop (R266) -/

/-- Outside BUILD no slot is given, so that no pass goes on (R120). -/
theorem build_of_servePass_again {ph : Phase} {l : Nat} {s t : State} (h : servePass ph l s = (t, .again)) :
    s.enc.mode = .build := by
  by_contra hm
  have hslot : newSubhBody (srcBufferState l s).2 = fail .state (-1) (srcBufferState l s).2 := if_pos hm
  unfold servePass serveAllot at h
  rw [hslot, if_pos (show (fail .state (-1) (srcBufferState l s).2).2.err ≠ .ok by simp)] at h
  split_ifs at h <;> simp at h

/-- What a pass that goes on has done: it has asked for the count `p`, made one request of `q` bytes, and committed the
answer `a` (R266). -/
theorem servePass_again {ph : Phase} {l : Nat} {s t : State} (hl : l ≤ lcidSduMax)
    (h : servePass ph l s = (t, .again)) :
    let p := (nextCountAnswer l s.agents).1
    let q := passRequest ph l p s
    let a := (nextPduAnswer l q (s.countAsked l).agents).1
    asksSource ph l s ∧ p ≠ 0 ∧ slotAvailable s ∧ answerCommits q a ∧
      t = ((s.countAsked l).pduAsked l q).answerCommitted l a := by
  intro p q a
  rcases servePass_cases (ph := ph) hl (build_of_servePass_again h) with
    ⟨-, hpass⟩ | ⟨-, -, hpass⟩ | ⟨-, -, hpass⟩ | ⟨-, -, -, hpass⟩ | ⟨-, -, -, -, hpass⟩ | ⟨hask, hp, hslot, hc, hpass⟩
  case inr.inr.inr.inr.inr =>
    exact ⟨hask, hp, hslot, hc, (Prod.mk.inj (h.symm.trans hpass)).1⟩
  all_goals cases (Prod.mk.inj (h.symm.trans hpass)).2

/-- The request of a pass, as a signed number (R266). -/
theorem passRequest_cast {ph : Phase} {l p : Nat} {s : State} (h : asksSource ph l s) :
    (passRequest ph l p s : Int) =
      if ph = .guaranteed ∧ s.limited l = true then min (min (p : Int) s.enc.sduSpace) (s.tokOf l)
      else min (p : Int) s.enc.sduSpace := by
  obtain ⟨htokens, hspace⟩ := h
  rw [passRequest]
  apply Int.toNat_of_nonneg
  split
  · rename_i hlim
    have : ¬ s.tokOf l ≤ 0 := fun hle => htokens ⟨hlim.1, hlim.2, hle⟩
    omega
  · omega

section
variable (l : Nat) (a : ReadAnswer) (s : State)

theorem answerCommitted_recAt_self :
    (s.answerCommitted l a).enc.recAt s.enc.nsub = .sdu (BitVec.ofNat 5 l) (BitVec.ofNat 15 a.k.toNat) :=
  recAt_commitRec_self s.enc _ 0

theorem answerCommitted_recAt_ne {j : BitVec 5} (h : j ≠ s.enc.nsub) :
    (s.answerCommitted l a).enc.recAt j = s.enc.recAt j :=
  recAt_commitRec_ne h _ 0

theorem answerCommitted_tokOf_ne {m : Nat} (h : m ≠ l) : (s.answerCommitted l a).tokOf m = s.tokOf m := by
  unfold State.tokOf State.answerCommitted
  dsimp only
  split
  · rw [Vector.getElem?_setIfInBounds_ne (Ne.symm h)]
  · rfl

theorem answerCommitted_tokOf_unlimited (h : s.limited l = false) : (s.answerCommitted l a).tokOf l = s.tokOf l := by
  unfold State.tokOf State.answerCommitted
  rw [if_neg (by simp [h])]

theorem answerCommitted_tokOf_limited (hl : l ≤ lcidSduMax) (h : s.limited l = true) (hk : 0 ≤ a.k) :
    (s.answerCommitted l a).tokOf l = max (-2 ^ 31) (s.tokOf l - a.k) := by
  have hsat : sat32 (s.tokOf l - a.k) = max (-2 ^ 31) (s.tokOf l - a.k) := by
    have := tokOf_bounds s l
    unfold sat32
    omega
  rw [← hsat, ← tokOf_setTok_self hl]
  unfold State.tokOf State.answerCommitted
  rw [if_pos h, ← hsat]
  rfl

end

/-- A pass that goes on has filled one more slot, within the table (R124, R126). -/
theorem nsub_of_servePass_again {ph : Phase} {l : Nat} {s t : State} (hl : l ≤ lcidSduMax) (hinv : EncInv s)
    (h : servePass ph l s = (t, .again)) : t.enc.nsub.toNat = s.enc.nsub.toNat + 1 := by
  obtain ⟨-, -, hslot, -, rfl⟩ := servePass_again hl h
  obtain ⟨-, hsubh, -⟩ := legal_bounds hinv.params_legal
  have hfree : s.enc.nsub.toNat < s.params.maxSubh := by
    rcases hslot with hopen | hne
    · exact hinv.enc_ok.open_slot_free hopen
    · exact lt_of_le_of_ne hinv.enc_ok.nsub_le hne
  have hlt : s.enc.nsub.toNat < 31 := by omega
  exact nsub_succ_toNat hlt

/-! ### The loop (R266) -/

/-- The induction over the loop: a pass ends it, or fills a slot and leaves the rest of the loop to do. The bound on the
passes is never met, as at most `MAX_SUBH` slots are free. -/
theorem serve_induction {ph : Phase} {l : Nat} (hl : l ≤ lcidSduMax) {motive : Nat → State → Prop}
    (done : ∀ fuel s, EncInv s → (servePass ph l s).2 ≠ .again → motive (fuel + 1) s)
    (again : ∀ fuel s t, EncInv s → servePass ph l s = (t, .again) → motive fuel t → motive (fuel + 1) s) :
    ∀ fuel s, EncInv s → s.params.maxSubh + 1 ≤ s.enc.nsub.toNat + fuel → motive fuel s := by
  intro fuel
  induction fuel with
  | zero =>
    intro s hinv hfuel
    have := hinv.enc_ok.nsub_le
    omega
  | succ fuel ih =>
    intro s hinv hfuel
    by_cases hend : (servePass ph l s).2 = .again
    · have hpass : servePass ph l s = ((servePass ph l s).1, .again) := Prod.ext rfl hend
      have hinv' := EncInv.assembly.servePass (ph := ph) hl hinv
      have hparams := ((KeepsPort.assembly s).servePass (ph := ph) hl (.refl s)).params_eq
      have hnsub := nsub_of_servePass_again hl hinv hpass
      exact again fuel s _ hinv hpass (ih _ hinv' (by rw [hparams]; omega))
    · exact done fuel s hinv hend

section
variable {ph : Phase} {l : Nat} {s t : State}

theorem serve_of_channelDone (h : servePass ph l s = (t, .channelDone)) (fuel : Nat) :
    serve ph l (fuel + 1) s = (t, false) := by
  rw [serve, h]

theorem serve_of_stop (h : servePass ph l s = (t, .stop)) (fuel : Nat) : serve ph l (fuel + 1) s = (t, true) := by
  rw [serve, h]

theorem serve_of_again (h : servePass ph l s = (t, .again)) (fuel : Nat) :
    serve ph l (fuel + 1) s = serve ph l fuel t := by
  rw [serve, h]

/-- A loop whose first pass ends it does not depend on the bound. -/
theorem serve_of_end (h : (servePass ph l s).2 ≠ .again) (fuel fuel' : Nat) :
    serve ph l (fuel + 1) s = serve ph l (fuel' + 1) s := by
  rcases hpass : servePass ph l s with ⟨t, _ | _ | _⟩
  · rw [serve_of_channelDone hpass, serve_of_channelDone hpass]
  · rw [serve_of_stop hpass, serve_of_stop hpass]
  · exact absurd (congrArg Prod.snd hpass) h

end

/-- More passes than the bound change nothing (log entry 11). -/
theorem serve_add_fuel {ph : Phase} {l : Nat} {s : State} (hl : l ≤ lcidSduMax) (hinv : EncInv s) (k : Nat)
    {fuel : Nat} (hfuel : s.params.maxSubh + 1 ≤ s.enc.nsub.toNat + fuel) :
    serve ph l (fuel + k) s = serve ph l fuel s := by
  refine serve_induction (ph := ph) (motive := fun fuel s => serve ph l (fuel + k) s = serve ph l fuel s) hl
    (fun fuel s _ hend => ?_) (fun fuel s t _ hpass ih => ?_) fuel s hinv hfuel
  · rw [Nat.add_right_comm]
    exact serve_of_end hend _ _
  · rw [Nat.add_right_comm, serve_of_again hpass, serve_of_again hpass, ih]

/-- In BUILD the loop of the model is the one of the rules (R266). -/
theorem servesChannel_serve {ph : Phase} {l : Nat} {s : State} (hl : l ≤ lcidSduMax) (hinv : EncInv s)
    (hm : s.enc.mode = .build) :
    ServesChannel ph l s (serve ph l (s.params.maxSubh + 1) s).1 (serve ph l (s.params.maxSubh + 1) s).2 := by
  refine serve_induction (ph := ph)
    (motive := fun fuel s => s.enc.mode = .build → ServesChannel ph l s (serve ph l fuel s).1 (serve ph l fuel s).2) hl
    (fun fuel s _ hend hm => ?_) (fun fuel s t _ hpass ih hm => ?_) (s.params.maxSubh + 1) s hinv (by omega) hm
  · rcases servePass_cases (ph := ph) hl hm with
      ⟨h, hpass⟩ | ⟨h, hfull, hpass⟩ | ⟨hask, hp, hpass⟩ | ⟨hask, hp, hslot, hpass⟩ | ⟨hask, hp, hslot, hc, hpass⟩ |
      ⟨-, -, -, -, hpass⟩
    · rw [serve_of_channelDone hpass]; exact .exhausted h
    · rw [serve_of_stop hpass]; exact .blockFull h hfull
    · rw [serve_of_channelDone hpass]; exact .noData hask hp
    · rw [serve_of_stop hpass]; exact .tableFull hask hp hslot
    · rw [serve_of_channelDone hpass]; exact .nothing hask rfl hp hslot rfl hc
    · exact absurd (congrArg Prod.snd hpass) hend
  · rw [serve_of_again hpass]
    obtain ⟨hask, hp, hslot, hc, rfl⟩ := servePass_again hl hpass
    exact .again hask rfl hp hslot rfl rfl hc (ih hm)

end Sys2Proof.Machine

namespace Sys2Proof.Proofs

open Sys2Proof.Machine Sys2Proof.Config

/-- Settles O48: the pass has committed the answer to its request, from the state in which the slot is open. -/
theorem servicePassTakesTokens : Obligations.ServicePassTakesTokens := by
  intro ph l s t hl hpass p
  obtain ⟨hask, hp, -, ⟨hk, hkq, hlen⟩, rfl⟩ := servePass_again hl hpass
  have hcast := passRequest_cast (p := (nextCountAnswer l s.agents).1) hask
  set q := passRequest ph l (nextCountAnswer l s.agents).1 s
  set a := (nextPduAnswer l q (s.countAsked l).agents).1
  set u := (s.countAsked l).pduAsked l q
  have hkn : (a.k.toNat : Int) = a.k := Int.toNat_of_nonneg (by omega)
  have hbytes : a.bytes.length = a.k.toNat := by omega
  have htok : s.limited l = true → (u.answerCommitted l a).tokOf l = max (-2 ^ 31) (s.tokOf l - a.k.toNat) :=
    fun hlim => by rw [hkn]; exact answerCommitted_tokOf_limited l a u hl hlim (by omega)
  refine ⟨a.k.toNat, q, hcast, hkn.symm, hbytes, by omega, by omega, ?_, rfl,
    answerCommitted_recAt_self l a u, fun j hj => answerCommitted_recAt_ne l a u hj, rfl, rfl,
    fun m hm => answerCommitted_tokOf_ne l a u hm, answerCommitted_tokOf_unlimited l a u, htok, fun hph hlim => ?_⟩
  · simp [u, State.answerCommitted, State.pduAsked, State.countAsked]
  · rw [if_pos ⟨hph, hlim⟩] at hcast
    rw [htok hlim]
    omega

/-- Settles O49: at most `MAX_SUBH` slots are free, and each pass that goes on fills one. -/
theorem serveFuelSuffices : Obligations.ServeFuelSuffices := by
  intro ph l s k hl hlegal henc
  exact serve_add_fuel hl ⟨hlegal, henc⟩ k (by omega)

end Sys2Proof.Proofs

/-! SUPPORT. The requests of a grant (44_mux.md R262, R269), its last step (R267), and a grant without room for a record
(R270). -/

namespace Sys2Proof.Machine

open Sys2Proof.Config

/-! ### The requests that a grant makes (R269) -/

/-- From `s` to `t` each request for SDU bytes is one that a block of `n` bytes allows: for a data LCID, at least 1 byte
and at most `n - 1` (R269). -/
def RequestsWithin (n : Nat) (s t : State) : Prop :=
  ∃ new, t.trace = s.trace ++ new ∧ ∀ l q, .readPdu l q ∈ new → l ≤ lcidSduMax ∧ 1 ≤ q ∧ q + 1 ≤ n

theorem consumeTokens_trace (l : Nat) (k : Int) (s : State) : (consumeTokens l k s).trace = s.trace := by
  unfold consumeTokens
  split <;> rfl

theorem newSubhBody_trace (s : State) : (newSubhBody s).1.trace = s.trace := by
  rcases newSubhBody_cases s with ⟨h, -⟩ | ⟨h, -⟩ | ⟨h, -⟩ | ⟨h, -⟩ <;> (rw [h]; rfl)

theorem ceSetter_trace (t : CeType) (pay : Bytes) (s : State) : (ceSetter t pay s).1.trace = s.trace := by
  rcases ceSetter_cases t pay s with ⟨h, -⟩ | ⟨-, -, -, -, h⟩
  · rw [h]
  · rw [h]; rfl

namespace RequestsWithin

variable {n : Nat} {s t u : State}

theorem of_trace_eq (h : t.trace = s.trace) : RequestsWithin n s t := ⟨[], by simp [h], by simp⟩

theorem of_other {o : Obs} (h : t.trace = s.trace ++ [o]) (ho : ∀ l q, o ≠ .readPdu l q) : RequestsWithin n s t :=
  ⟨[o], h, fun l q hmem => absurd (List.mem_singleton.1 hmem).symm (ho l q)⟩

theorem trans (h : RequestsWithin n s t) (k : RequestsWithin n t u) : RequestsWithin n s u := by
  obtain ⟨new₁, h₁, hall₁⟩ := h
  obtain ⟨new₂, h₂, hall₂⟩ := k
  refine ⟨new₁ ++ new₂, by rw [h₂, h₁, List.append_assoc], fun l q hmem => ?_⟩
  exact (List.mem_append.1 hmem).elim (hall₁ l q) (hall₂ l q)

theorem setSduBody {l q : Nat} (hl : l ≤ lcidSduMax) (h1 : 1 ≤ q) (hq : q + 1 ≤ n) :
    RequestsWithin n s (setSduBody l q s).1 := by
  have hasked : RequestsWithin n s (srcReadPdu l q s).2 := by
    refine ⟨[.readPdu l q], rfl, fun l' q' hmem => ?_⟩
    obtain ⟨rfl, rfl⟩ := Obs.readPdu.inj (List.mem_singleton.1 hmem)
    exact ⟨hl, h1, hq⟩
  rcases setSduBody_cases l q s with ⟨h, -⟩ | ⟨-, -, -, -, -, h, -⟩ | ⟨-, -, -, -, -, k, -, -, -, -, h⟩ <;> rw [h]
  · exact of_trace_eq rfl
  · exact hasked
  · exact hasked

theorem writeBody (n : Nat) (s : State) : RequestsWithin n s (writeBody s).1 := by
  rcases writeBody_cases s with ⟨-, h⟩ | ⟨-, e, -, h⟩ | ⟨-, -, h⟩ <;> rw [h]
  · exact of_trace_eq rfl
  · exact of_trace_eq rfl
  · exact of_other rfl (by simp)

theorem grantFinalise (n m : Nat) (msg3 : Bool) (s : State) : RequestsWithin n s (grantFinalise m msg3 s).1 := by
  unfold Machine.grantFinalise storeMsg3
  split
  · exact writeBody n s
  · exact (writeBody n s).trans (of_trace_eq (by split <;> rfl))

theorem msg3RetxBody (n m : Nat) (s : State) : RequestsWithin n s (msg3RetxBody m s).1 := by
  unfold Machine.msg3RetxBody
  split
  · exact of_trace_eq rfl
  split
  · exact of_trace_eq rfl
  · exact of_other rfl (by simp)

end RequestsWithin

/-- In the assembly of a grant of `n` bytes from `s`: the encoder's invariant, the size, and the requests so far. -/
structure GrantAsks (n : Nat) (s t : State) : Prop where
  inv : EncInv t
  size : t.enc.n = BitVec.ofNat 16 n
  asked : RequestsWithin n s t

/-- A request is within the space, which is less than what remains of the block (R121, R269). -/
theorem GrantAsks.assembly {n : Nat} (hn : (BitVec.ofNat 16 n).toNat = n) (s : State) :
    AssemblyKeeps (GrantAsks n s) where
  ask l _ hl h := ⟨EncInv.assembly.ask l _ hl h.inv, h.size, h.asked.trans (.of_other rfl (by simp))⟩
  slot t h := ⟨EncInv.assembly.slot t h.inv, (assembly_keeps_size _).slot t h.size,
    h.asked.trans (.of_trace_eq (newSubhBody_trace t))⟩
  pull l q t hl h1 hq h := by
    have hrem := h.inv.enc_ok.rem_le_size
    have hfits : q + 1 ≤ n := by
      rw [h.size, hn] at hrem
      rw [Enc.sduSpace] at hq
      omega
    exact ⟨EncInv.assembly.pull l q t hl h1 hq h.inv, (assembly_keeps_size _).pull l q t hl h1 hq h.size,
      h.asked.trans (.setSduBody hl h1 hfits)⟩
  consume l k t hl hk h := ⟨EncInv.assembly.consume l k t hl hk h.inv,
    (assembly_keeps_size _).consume l k t hl hk h.size, h.asked.trans (.of_trace_eq (consumeTokens_trace l k t))⟩
  ce c pay t hpay h := ⟨EncInv.assembly.ce c pay t hpay h.inv, (assembly_keeps_size _).ce c pay t hpay h.size,
    h.asked.trans (.of_trace_eq (ceSetter_trace c pay t))⟩

/-! ### The start of a grant (R123, R260) -/

/-- `s` with the empty PDU of a grant of `n` bytes (R123, R260). -/
def State.grantStarted (n : Nat) (s : State) : State :=
  { s with enc := { s.enc.start .build .ul (BitVec.ofNat 16 n) (BitVec.ofNat 16 n) with tbValid := false } }

/-- The three steps of `CePhase()` (R261). -/
def grantElements (ci bt pt : Bool) (rnti : BitVec 16) (ph : Int) (s : State) : State :=
  cePhasePhr pt ph (cePhaseBsr bt (cePhaseCrnti ci rnti s))

theorem initTxBody_legal {n : Nat} {s : State} (h1 : 1 ≤ n) (hn : n ≤ s.params.maxTbBytes) :
    initTxBody .ul n s = ok n (s.grantStarted n) :=
  if_neg (by omega)

section
variable {n : Nat} {s : State} (m3 ci bt pt : Bool) (rnti : BitVec 16) (ph : Int)

/-- A grant of a legal size assembles a new PDU and finalises it (R258). -/
theorem ulGrantBody_legal (h1 : 1 ≤ n) (hn : n ≤ s.params.maxTbBytes) :
    ulGrantBody n m3 false ci bt pt rnti ph s
      = grantFinalise n m3 (servePhases (grantElements ci bt pt rnti ph (s.grantStarted n))) := by
  rw [ulGrantBody, if_neg (by simp), if_neg (by omega), grantAssemble, initTxBody_legal h1 hn]
  rfl

theorem ulGrantBody_requestsWithin (n : Nat) (hinv : EncInv s) (retx : Bool) :
    RequestsWithin n s (ulGrantBody n m3 retx ci bt pt rnti ph s).1 := by
  cases retx with
  | true => exact .msg3RetxBody n n s
  | false =>
    by_cases hlegal : 1 ≤ n ∧ n ≤ s.params.maxTbBytes
    · have hstart : GrantAsks n s (initTxBody .ul n s).1 := by
        refine ⟨hinv.initTxBody .ul n, ?_, ?_⟩
        · rw [initTxBody_legal hlegal.1 hlegal.2]; rfl
        · rw [initTxBody_legal hlegal.1 hlegal.2]; exact .of_trace_eq rfl
      have hassembled := (GrantAsks.assembly (toNat_size hinv.params_legal hlegal.2) s).grantAssemble
        (ci := ci) (bt := bt) (pt := pt) (rnti := rnti) (ph := ph) hstart
      rw [grantAssemble, initTxBody_legal hlegal.1 hlegal.2] at hassembled
      rw [ulGrantBody_legal m3 ci bt pt rnti ph hlegal.1 hlegal.2]
      exact hassembled.asked.trans (.grantFinalise n n m3 _)
    · have hrefused : ulGrantBody n m3 false ci bt pt rnti ph s = fail .tbSize (-1) { s with enc := s.enc.toIdle } := by
        rw [ulGrantBody, if_neg (by simp), if_pos (by omega)]
      rw [hrefused]
      exact .of_trace_eq rfl

end

/-! ### The last step of a grant (R267) -/

@[simp] theorem storeMsg3_enc (m3 : Bool) (n : Nat) (s : State) : (storeMsg3 m3 n s).enc = s.enc := by
  cases m3 <;> rfl
@[simp] theorem storeMsg3_tok (m3 : Bool) (n : Nat) (s : State) : (storeMsg3 m3 n s).mux.tok = s.mux.tok := by
  cases m3 <;> rfl
@[simp] theorem storeMsg3_agents (m3 : Bool) (n : Nat) (s : State) : (storeMsg3 m3 n s).agents = s.agents := by
  cases m3 <;> rfl
@[simp] theorem storeMsg3_trace (m3 : Bool) (n : Nat) (s : State) : (storeMsg3 m3 n s).trace = s.trace := by
  cases m3 <;> rfl

theorem grantFinalise_commits {s : State} (h : writeBody s = writeCommit s) (n : Nat) (m3 : Bool) :
    grantFinalise n m3 s = ok n (storeMsg3 m3 n (writeCommit s).1) := by
  rw [grantFinalise, h]
  exact if_neg (by simp [writeCommit])

/-! ### The counts asked for a report (R262) -/

/-- `s` once the sources of the channels `ls` have answered their counts (R12, R262). -/
def State.countsAsked (ls : List Nat) (s : State) : State :=
  { s with
    agents := ls.foldl (fun a l => (nextCountAnswer l a).2) s.agents
    trace := s.trace ++ ls.map .bufferState }

theorem askCounts_eq (ls : List Nat) (s : State) : askCounts ls s = (countsAnswered ls s.agents, s.countsAsked ls) := by
  induction ls generalizing s with
  | nil => simp [askCounts, countsAnswered, State.countsAsked]
  | cons l rest ih =>
    rw [askCounts, ih]
    simp [countsAnswered, State.countsAsked, srcBufferState, emit]

/-! ### A grant without room for a record (R270) -/

theorem addCe_full {c : Nat} {s : State} (h : s.enc.ceFits c = false) (setter : State → State × Ret) :
    addCe c setter s = s :=
  if_pos h

theorem chooseBsr_full {s : State} (h3 : s.enc.ceFits 3 = false) (h1 : s.enc.ceFits 1 = false) (ps : List (Nat × Nat)) :
    chooseBsr s ps = none := by
  simp [chooseBsr, h3, h1]

/-- With one byte left no control element fits: at most the counts are asked (R261-R263). -/
theorem grantElements_full {s : State} (h : s.enc.rem.toNat = 1) (ci bt pt : Bool) (rnti : BitVec 16) (ph : Int) :
    grantElements ci bt pt rnti ph s = if bt then s.countsAsked (activeChannels s) else s := by
  have hfull : ∀ t : State, t.enc.rem = s.enc.rem → ∀ c, 1 ≤ c → t.enc.ceFits c = false := by
    intro t ht c hc
    simp only [Enc.ceFits, ht, h, decide_eq_false_iff_not]
    omega
  have hcrnti : cePhaseCrnti ci rnti s = s := by
    rw [cePhaseCrnti, addCe_full (hfull s rfl 2 (by decide)), ite_self]
  have hbsr : cePhaseBsr bt s = if bt then s.countsAsked (activeChannels s) else s := by
    have hnone := chooseBsr_full (hfull (s.countsAsked (activeChannels s)) rfl 3 (by decide))
      (hfull (s.countsAsked (activeChannels s)) rfl 1 (by decide))
    rw [cePhaseBsr, askCounts_eq]
    dsimp only
    rw [hnone]
  rw [grantElements, hcrnti, hbsr, cePhasePhr, addCe_full (hfull _ (by split <;> rfl) 1 (by decide)), ite_self]

/-- Without space no channel is asked and the state stays (R266). -/
theorem servePhase_full {s : State} (h : s.enc.sduSpace ≤ 0) (ph : Phase) (ls : List Nat) :
    (servePhase ph ls s).1 = s := by
  induction ls with
  | nil => rfl
  | cons l rest ih =>
    rw [servePhase]
    split
    · exact ih
    · rename_i htokens
      have hpass : servePass ph l s = (s, .stop) := by rw [servePass, if_neg htokens, if_pos h]
      rw [serve_of_stop hpass, if_pos rfl]

theorem servePhases_full {s : State} (h : s.enc.sduSpace ≤ 0) : servePhases s = s := by
  rw [servePhases, servePhase_full h, servePhase_full h, ite_self]

/-- WRITE of the empty PDU of one byte: its block is the padding subheader, all of it header (R181). -/
theorem writeBody_one {s c : State} (henc : c.enc = (s.grantStarted 1).enc) (hreserve : 1 ≤ c.params.hdrReserve) :
    c.enc.block = [0x1F] ∧ writeBody c = writeCommit c := by
  have hrem : c.enc.rem.toNat = 1 := by rw [henc]; rfl
  have hn : c.enc.n.toNat = 1 := by rw [henc]; rfl
  obtain ⟨-, hblock⟩ := assembleTb_of_empty (e := c.enc) (by rw [henc]; rfl) (by rw [henc]; rfl) (by rw [henc]; rfl)
    hrem.ge
  rw [hrem, show paddingBlock 1 = [0x1F] from rfl] at hblock
  have hlen := (assembleTb_length _ _ _ _).symm.trans (congrArg List.length hblock)
  rw [List.length_singleton] at hlen
  exact ⟨hblock, writeBody_commits (by rw [henc]; rfl) (by omega) (by rw [Enc.block, hblock, hn]; rfl)⟩

/-- A grant of one byte ends with the empty PDU, the counts of a report asked (R270). -/
theorem servePhases_grantElements_one (ci bt pt : Bool) (rnti : BitVec 16) (ph : Int) (s : State) :
    servePhases (grantElements ci bt pt rnti ph (s.grantStarted 1))
      = if bt then (s.grantStarted 1).countsAsked (activeChannels s) else s.grantStarted 1 := by
  rw [grantElements_full rfl]
  exact servePhases_full (by cases bt <;> exact le_rfl)

end Sys2Proof.Machine

namespace Sys2Proof.Proofs

open Sys2Proof.Machine Sys2Proof.Config

/-- Settles O47: what every sub-step of the assembly keeps, and the steps after it request nothing. -/
theorem grantRequestsBounded : Obligations.GrantRequestsBounded := by
  intro n m3 retx ci bt pt rnti ph s t new l q hinv ht hnew hmem
  obtain rfl := complete_inj (p := ulGrantBody n m3 retx ci bt pt rnti ph s) ht
  obtain ⟨new', hnew', hall⟩ := ulGrantBody_requestsWithin m3 ci bt pt rnti ph n
    ⟨hinv.params_legal, hinv.enc_ok⟩ retx
  obtain rfl : new' = new := List.append_cancel_left (hnew'.symm.trans hnew)
  exact hall l q hmem

/-- Settles O46: nothing fits beside the one subheader, so that at most the counts of a report are asked. -/
theorem grantOfOneByte : Obligations.GrantOfOneByte := by
  intro m3 ci bt pt rnti ph s hlegal hreserve
  obtain ⟨-, -, htb, -⟩ := legal_bounds hlegal
  obtain ⟨c, hc, henc, hparams, htok, hasked⟩ : ∃ c,
      servePhases (grantElements ci bt pt rnti ph (s.grantStarted 1)) = c ∧ c.enc = (s.grantStarted 1).enc ∧
        c.params = s.params ∧ c.mux.tok = s.mux.tok ∧ (bt = false → c.trace = s.trace ∧ c.agents = s.agents) := by
    refine ⟨_, servePhases_grantElements_one ci bt pt rnti ph s, ?_⟩
    cases bt <;> simp [State.countsAsked, State.grantStarted]
  obtain ⟨hblock, hwrite⟩ := writeBody_one henc (hparams ▸ hreserve)
  have hbody : ulGrantBody 1 m3 false ci bt pt rnti ph s = ok 1 (storeMsg3 m3 1 (writeCommit c).1) := by
    rw [ulGrantBody_legal m3 ci bt pt rnti ph le_rfl (by omega), hc, grantFinalise_commits hwrite]
    rfl
  refine ⟨_, congrArg complete hbody, rfl, rfl, ?_, ?_, fun hbt => ?_⟩
  · simpa [writeCommit] using hblock
  · simpa [writeCommit] using htok
  · obtain ⟨htrace, hagents⟩ := hasked hbt
    simp [writeCommit, hblock, htrace, hagents]

end Sys2Proof.Proofs

/-! SUPPORT. The control elements of a grant (44_mux.md R260-R263): the PDU that holds a list of them and nothing else,
one element added to it, and the report chosen from the counts. -/

namespace Sys2Proof.Machine

open Sys2Proof.Config

/-! ### A PDU that holds control elements alone -/

/-- `s` with the PDU of a grant of `n` bytes under construction, its record table at `sub`, `nsub` and `rem` (R260). -/
def State.grantTable (n : Nat) (sub : Vector SubRec 32) (nsub : BitVec 5) (rem : BitVec 16) (s : State) : State :=
  { s.grantStarted n with enc := { (s.grantStarted n).enc with sub := sub, nsub := nsub, rem := rem } }

/-- The bytes of a block of `n` that the elements `before` leave (R38). -/
def elementRoom (n : Nat) (before : List SubRec) : Nat := n - (before.map fun r => recLen r + 1).sum

/-- One element added to those before it, unless it does not fit or the table is full (R263). -/
def addElement (n maxSubh : Nat) (before : List SubRec) (r : SubRec) : List SubRec :=
  if recLen r + 1 ≤ elementRoom n before ∧ before.length < maxSubh then before ++ [r] else before

/-- The record of a control element (R127). -/
def ceElement (t : CeType) (pay : Bytes) : SubRec := .ce t (ceLcid t) (BitVec.ofNat 15 pay.length) pay

theorem recLen_ceElement {t : CeType} {pay : Bytes} (h : pay.length = ceSize t) :
    recLen (ceElement t pay) = pay.length := by
  have hsize : ceSize t ≤ 6 := by cases t <;> decide
  have hmod : pay.length % 2 ^ 15 = pay.length := by omega
  simpa [ceElement, recLen] using hmod

/-- `c` is `s` with the PDU of a grant of `n` bytes, which holds the elements `es` (R260, R263). -/
structure HoldsElements (n : Nat) (es : List SubRec) (s c : State) : Prop where
  params_legal : s.params.legal = true
  size_le : n ≤ s.params.maxTbBytes
  frame : ∃ sub nsub rem, c = s.grantTable n sub nsub rem
  enc_ok : EncOk s.params c.enc
  committed_eq : c.enc.committed = es

/-- `s` with a slot open (R124). -/
def State.slotOpened (s : State) : State := { s with enc := { s.enc with isOpen := true } }

/-- A control element that is allowed, with an open slot and with room, is committed (R127). -/
theorem ceSetter_commit {t : CeType} {pay : Bytes} {s : State} (hm : s.enc.mode = .build) (ho : s.enc.isOpen = true)
    (ht : allowed s.enc.dir t = true) (hroom : pay.length + 1 ≤ s.enc.rem.toNat) :
    ceSetter t pay s = ok pay.length { s with enc := s.enc.commitCe t pay } := by
  have hfits : s.enc.ceFits pay.length = true := decide_eq_true hroom
  rw [ceSetter_ready hm ho, setCe, if_neg (by simp [ht]), if_neg (by simp [hfits])]

namespace HoldsElements

variable {n : Nat} {es : List SubRec} {s c : State}

theorem start (h : EncInv s) (h1 : 1 ≤ n) (hn : n ≤ s.params.maxTbBytes) : HoldsElements n [] s (s.grantStarted n) := by
  have hinv := h.initTxBody .ul n
  rw [initTxBody_legal h1 hn] at hinv
  exact ⟨h.params_legal, hn, ⟨_, _, _, rfl⟩, hinv.enc_ok, committed_of_empty rfl⟩

theorem params_eq (h : HoldsElements n es s c) : c.params = s.params := by
  obtain ⟨sub, nsub, rem, rfl⟩ := h.frame
  rfl

theorem dec_eq (h : HoldsElements n es s c) : c.dec = s.dec := by
  obtain ⟨sub, nsub, rem, rfl⟩ := h.frame
  rfl

theorem cfg_eq (h : HoldsElements n es s c) : c.cfg = s.cfg := by
  obtain ⟨sub, nsub, rem, rfl⟩ := h.frame
  rfl

theorem mux_eq (h : HoldsElements n es s c) : c.mux = s.mux := by
  obtain ⟨sub, nsub, rem, rfl⟩ := h.frame
  rfl

theorem fault_eq (h : HoldsElements n es s c) : c.fault = s.fault := by
  obtain ⟨sub, nsub, rem, rfl⟩ := h.frame
  rfl

theorem host_eq (h : HoldsElements n es s c) : c.host = s.host := by
  obtain ⟨sub, nsub, rem, rfl⟩ := h.frame
  rfl

theorem agents_eq (h : HoldsElements n es s c) : c.agents = s.agents := by
  obtain ⟨sub, nsub, rem, rfl⟩ := h.frame
  rfl

theorem trace_eq (h : HoldsElements n es s c) : c.trace = s.trace := by
  obtain ⟨sub, nsub, rem, rfl⟩ := h.frame
  rfl

/-- The PDU is an uplink one of `n` bytes under construction, with no slot open (R260). -/
theorem enc_building (h : HoldsElements n es s c) :
    c.enc.mode = .build ∧ c.enc.isOpen = false ∧ c.enc.dir = .ul ∧ c.enc.n.toNat = n := by
  have hsize := toNat_size h.params_legal h.size_le
  obtain ⟨sub, nsub, rem, rfl⟩ := h.frame
  exact ⟨rfl, rfl, rfl, hsize⟩

theorem lastSdu_eq (h : HoldsElements n es s c) : c.enc.lastSdu = none := by
  obtain ⟨sub, nsub, rem, rfl⟩ := h.frame
  rfl

theorem nsub_eq (h : HoldsElements n es s c) : c.enc.nsub.toNat = es.length := by
  rw [← h.committed_eq, committed_length]

theorem not_sdu (h : HoldsElements n es s c) : ∀ r ∈ es, recIsSdu r = false := by
  have hlast := h.enc_ok.last_sdu
  rw [Enc.lastSduOk, h.lastSdu_eq, h.committed_eq] at hlast
  exact hlast

theorem filter_ce (h : HoldsElements n es s c) : es.filter (fun r => !recIsSdu r) = es :=
  List.filter_eq_self.2 fun r hr => by simp [h.not_sdu r hr]

/-- What remains of the block and what the elements take (R38). -/
theorem rem_add (h : HoldsElements n es s c) : c.enc.rem.toNat + (es.map fun r => recLen r + 1).sum = n := by
  obtain ⟨hmode, -, -, hsize⟩ := h.enc_building
  have hlast : c.enc.lastExtra = 0 := by rw [Enc.lastExtra, h.lastSdu_eq]
  have hextra := ceRecs_extra es
  have hacc := (accounted_iff h.enc_ok.last_sdu).1 (h.enc_ok.accounting hmode)
  rw [h.filter_ce] at hextra
  rw [h.committed_eq, hlast, hsize, hextra] at hacc
  simp only [Nat.add_comm _ 1]
  omega

theorem rem_eq (h : HoldsElements n es s c) : c.enc.rem.toNat = elementRoom n es := by
  have := h.rem_add
  unfold elementRoom
  omega

theorem encInv (h : HoldsElements n es s c) : EncInv c :=
  ⟨h.params_eq ▸ h.params_legal, h.params_eq ▸ h.enc_ok⟩

/-- Asking for counts leaves the PDU (R262). -/
theorem countsAsked (h : HoldsElements n es s c) (ls : List Nat) :
    HoldsElements n es (s.countsAsked ls) (c.countsAsked ls) := by
  obtain ⟨sub, nsub, rem, rfl⟩ := h.frame
  exact ⟨h.params_legal, h.size_le, ⟨sub, nsub, rem, rfl⟩, h.enc_ok, h.committed_eq⟩

/-- An uplink element that fits and finds a slot is committed (R127). -/
theorem commit (h : HoldsElements n es s c) {t : CeType} {pay : Bytes} (ht : allowed .ul t = true)
    (hpay : pay.length = ceSize t) (hroom : pay.length + 1 ≤ c.enc.rem.toNat) (hslot : es.length < s.params.maxSubh) :
    HoldsElements n (es ++ [ceElement t pay]) s { c.slotOpened with enc := c.slotOpened.enc.commitCe t pay } := by
  obtain ⟨-, hsubh, -⟩ := legal_bounds h.params_legal
  have hnsub := h.nsub_eq
  have hes := h.committed_eq
  obtain ⟨sub, nsub, rem, rfl⟩ := h.frame
  have hopen := encOk_setOpen h.enc_ok (o := true) fun _ => hnsub ▸ hslot
  have hlt : (s.grantTable n sub nsub rem).enc.nsub.toNat < 31 := by omega
  refine ⟨h.params_legal, h.size_le, ⟨_, _, _, rfl⟩, encOk_commitCe hsubh hopen rfl rfl ht hpay hroom, ?_⟩
  rw [← hes]
  exact committed_commitCe hlt t pay

/-- `AddCE` with a control-element setter adds its element (R263). -/
theorem addCe (h : HoldsElements n es s c) {t : CeType} {pay : Bytes} (ht : allowed .ul t = true)
    (hpay : pay.length = ceSize t) {k : Nat} (hk : k = pay.length) {setter : State → State × Ret}
    (hset : setter c.slotOpened = ceSetter t pay c.slotOpened) :
    HoldsElements n (addElement n s.params.maxSubh es (ceElement t pay)) s (addCe k setter c) := by
  subst hk
  have hrem := h.rem_eq
  have hnsub := h.nsub_eq
  have hle := h.enc_ok.nsub_le
  obtain ⟨hm, hclosed, hdir, -⟩ := h.enc_building
  rw [addElement, recLen_ceElement hpay, ← hrem]
  by_cases hroom : pay.length + 1 ≤ c.enc.rem.toNat
  · have hfits : ¬ c.enc.ceFits pay.length = false := by simp [Enc.ceFits, hroom]
    rw [Machine.addCe, if_neg hfits]
    rcases newSubhBody_build hm with ⟨hslot, hnew⟩ | ⟨hslot, hnew⟩ <;> rw [hnew]
    · have hfree : es.length < s.params.maxSubh := by
        have hne : c.enc.nsub.toNat ≠ c.params.maxSubh := hslot.resolve_left (by simp [hclosed])
        rw [h.params_eq] at hne
        omega
      have hcommit := ceSetter_commit (s := c.slotOpened) hm rfl (hdir ▸ ht) hroom
      rw [if_pos ⟨hroom, hfree⟩, if_neg (by simp), ok_fst, ← State.slotOpened, hset, hcommit]
      exact h.commit ht hpay hroom hfree
    · have hfull : ¬ es.length < s.params.maxSubh := by
        have heq : c.enc.nsub.toNat = c.params.maxSubh := not_not.1 fun hne => hslot (.inr hne)
        rw [h.params_eq] at heq
        omega
      rw [if_neg (fun hand => hfull hand.2), if_pos (by simp)]
      exact h
  · rw [if_neg (fun hand => hroom hand.1), addCe_full (by simp [Enc.ceFits, hroom])]
    exact h

end HoldsElements

/-! ### The report (R262) -/

/-- The group of a SHORT or TRUNC report selects that group's sum (R128, R262). -/
theorem groupOperand_groupSum (s : State) (ps : List (Nat × Nat)) (g : BitVec 2) :
    groupOperand g (groupSum s ps 0) (groupSum s ps 1) (groupSum s ps 2) (groupSum s ps 3) = groupSum s ps g := by
  obtain rfl | rfl | rfl | rfl : g = 0 ∨ g = 1 ∨ g = 2 ∨ g = 3 := by revert g; decide
  all_goals rfl

theorem setBsrBody_trunc (g : BitVec 2) (s t : State) (ps : List (Nat × Nat)) :
    setBsrBody .trunc g (groupSum s ps 0) (groupSum s ps 1) (groupSum s ps 2) (groupSum s ps 3) t
      = ceSetter .truncBsr (shortBsrBytes g (t.bsrLevel6 (groupSum s ps g))) t := by
  rw [← groupOperand_groupSum s ps g]
  rfl

theorem setBsrBody_short (g : BitVec 2) (s t : State) (ps : List (Nat × Nat)) :
    setBsrBody .short g (groupSum s ps 0) (groupSum s ps 1) (groupSum s ps 2) (groupSum s ps 3) t
      = ceSetter .shortBsr (shortBsrBytes g (t.bsrLevel6 (groupSum s ps g))) t := by
  rw [← groupOperand_groupSum s ps g]
  rfl

/-- The element of the report that the counts `ps` ask for, where `room` bytes remain (R262). -/
def bsrElement (s : State) (ps : List (Nat × Nat)) (room : Nat) : SubRec :=
  let level := fun g => s.bsrLevel6 (groupSum s ps g)
  let single := (nonEmptyGroups s ps).headD 0
  if 1 < (nonEmptyGroups s ps).length then
    if 4 ≤ room then ceElement .longBsr (longBsrBytes (level 0) (level 1) (level 2) (level 3))
    else ceElement .truncBsr (shortBsrBytes (firstPendingGroup s ps) (level (firstPendingGroup s ps)))
  else ceElement .shortBsr (shortBsrBytes single (level single))

section
variable {s : State} {ps : List (Nat × Nat)}

theorem chooseBsr_long (hgroups : 1 < (nonEmptyGroups s ps).length) (h3 : s.enc.ceFits 3 = true) :
    chooseBsr s ps = some ⟨.long, 0, groupSum s ps 0, groupSum s ps 1, groupSum s ps 2, groupSum s ps 3⟩ := by
  rw [chooseBsr, if_pos hgroups, if_pos h3]

theorem chooseBsr_trunc (hgroups : 1 < (nonEmptyGroups s ps).length) (h3 : ¬ s.enc.ceFits 3 = true) :
    chooseBsr s ps = if s.enc.ceFits 1 then some ⟨.trunc, firstPendingGroup s ps, groupSum s ps 0, groupSum s ps 1,
      groupSum s ps 2, groupSum s ps 3⟩ else none := by
  rw [chooseBsr, if_pos hgroups, if_neg h3]

theorem chooseBsr_short (hgroups : ¬ 1 < (nonEmptyGroups s ps).length) :
    chooseBsr s ps = if s.enc.ceFits 1 then some ⟨.short, (nonEmptyGroups s ps).headD 0, groupSum s ps 0,
      groupSum s ps 1, groupSum s ps 2, groupSum s ps 3⟩ else none := by
  rw [chooseBsr, if_neg hgroups]

end

/-- The report depends on the channel table and the thresholds alone. -/
theorem bsrElement_congr {s t : State} (hcfg : t.cfg = s.cfg) (hparams : t.params = s.params) :
    bsrElement t = bsrElement s := by
  funext ps room
  have hsum : groupSum t ps = groupSum s ps := by
    funext g
    rw [groupSum, lch_of_cfg_eq hcfg, groupSum]
  have hgroups : nonEmptyGroups t ps = nonEmptyGroups s ps := by rw [nonEmptyGroups, hsum, nonEmptyGroups]
  have hfirst : firstPendingGroup t ps = firstPendingGroup s ps := by
    rw [firstPendingGroup, serviceOrder_of_cfg_eq hcfg, lch_of_cfg_eq hcfg, firstPendingGroup]
  have hlevel : t.bsrLevel6 = s.bsrLevel6 := by
    funext b
    rw [State.bsrLevel6, hparams, State.bsrLevel6]
  rw [bsrElement, hsum, hgroups, hfirst, hlevel, bsrElement]

section
variable {s u : State} {ps : List (Nat × Nat)} {b : BsrChoice}

/-- With a report chosen, its setter adds the element (R261). -/
theorem cePhaseBsr_of_some (hask : askCounts (activeChannels s) s = (ps, u)) (hb : chooseBsr u ps = some b) :
    cePhaseBsr true s =
      addCe (if b.fmt = .long then 3 else 1) (setBsrBody b.fmt b.lcg b.s0 b.s1 b.s2 b.s3) u := by
  rw [cePhaseBsr, if_pos rfl, hask]
  dsimp only
  rw [hb]

/-- A report of one byte is chosen where it fits, and `AddCE` leaves it out where not. -/
theorem cePhaseBsr_of_oneByte (hask : askCounts (activeChannels s) s = (ps, u))
    (hb : chooseBsr u ps = if u.enc.ceFits 1 then some b else none) (hfmt : b.fmt ≠ .long) :
    cePhaseBsr true s = addCe 1 (setBsrBody b.fmt b.lcg b.s0 b.s1 b.s2 b.s3) u := by
  by_cases h1 : u.enc.ceFits 1 = true
  · rw [if_pos h1] at hb
    rw [cePhaseBsr_of_some hask hb, if_neg hfmt]
  · rw [if_neg h1] at hb
    rw [addCe_full (by simpa using h1), cePhaseBsr, if_pos rfl, hask]
    dsimp only
    rw [hb]

end

/-- The BSR step adds the report's element (R261-R263). -/
theorem HoldsElements.cePhaseBsr {n : Nat} {es : List SubRec} {s c : State} (h : HoldsElements n es s c) :
    HoldsElements n
      (addElement n s.params.maxSubh es
        (bsrElement s (countsAnswered (activeChannels s) s.agents) (elementRoom n es)))
      (s.countsAsked (activeChannels s)) (cePhaseBsr true c) := by
  have hu := h.countsAsked (activeChannels s)
  have hask : askCounts (activeChannels c) c
      = (countsAnswered (activeChannels s) s.agents, c.countsAsked (activeChannels s)) := by
    rw [activeChannels_of_cfg_eq h.cfg_eq, askCounts_eq, h.agents_eq]
  have hsame : bsrElement (c.countsAsked (activeChannels s)) = bsrElement s := bsrElement_congr h.cfg_eq h.params_eq
  rw [← hsame, ← hu.rem_eq]
  generalize c.countsAsked (activeChannels s) = u at hu hask
  generalize countsAnswered (activeChannels s) s.agents = ps at hask
  rw [bsrElement]
  dsimp only
  split
  · rename_i hgroups
    by_cases h3 : u.enc.ceFits 3 = true
    · rw [if_pos (of_decide_eq_true h3), cePhaseBsr_of_some hask (chooseBsr_long hgroups h3)]
      exact hu.addCe rfl rfl rfl rfl
    · rw [if_neg (fun hroom => h3 (decide_eq_true hroom)),
        cePhaseBsr_of_oneByte hask (chooseBsr_trunc hgroups h3) (by simp)]
      exact hu.addCe rfl rfl rfl (setBsrBody_trunc _ u _ ps)
  · rename_i hgroups
    rw [cePhaseBsr_of_oneByte hask (chooseBsr_short hgroups) (by simp)]
    exact hu.addCe rfl rfl rfl (setBsrBody_short _ u _ ps)

/-! ### The three steps (R261) -/

section
variable (n : Nat) (ci bt pt : Bool) (rnti : BitVec 16) (ph : Int) (s : State)

/-- The elements of a grant of `n` bytes from `s` after the C-RNTI step (R261). -/
def elementsWithCrnti : List SubRec :=
  if ci then addElement n s.params.maxSubh [] (ceElement .crnti (crntiBytes rnti)) else []

/-- The elements after the BSR step, which asks the sources of the active channels (R261, R262). -/
def elementsWithBsr : List SubRec :=
  if bt then addElement n s.params.maxSubh (elementsWithCrnti n ci rnti s)
      (bsrElement s (countsAnswered (activeChannels s) s.agents) (elementRoom n (elementsWithCrnti n ci rnti s)))
  else elementsWithCrnti n ci rnti s

/-- The elements after the PHR step: all of them (R261). -/
def elementsWithPhr : List SubRec :=
  if pt then addElement n s.params.maxSubh (elementsWithBsr n ci bt rnti s)
      (ceElement .phr (phrBytes (BitVec.ofNat 6 (phrLevelOf ph))))
  else elementsWithBsr n ci bt rnti s

end

/-- The channels whose sources the BSR step asks (R262). -/
def reportChannels (bt : Bool) (s : State) : List Nat := if bt then activeChannels s else []

theorem countsAsked_nil (s : State) : s.countsAsked [] = s := by simp [State.countsAsked]

theorem holdsElements_grantElements {n : Nat} {s : State} (h : EncInv s) (h1 : 1 ≤ n) (hn : n ≤ s.params.maxTbBytes)
    (ci bt pt : Bool) (rnti : BitVec 16) (ph : Int) :
    HoldsElements n (elementsWithPhr n ci bt pt rnti ph s) (s.countsAsked (reportChannels bt s))
      (grantElements ci bt pt rnti ph (s.grantStarted n)) := by
  have hcrnti : HoldsElements n (elementsWithCrnti n ci rnti s) s (cePhaseCrnti ci rnti (s.grantStarted n)) := by
    have hstart := HoldsElements.start h h1 hn
    cases ci with
    | false => exact hstart
    | true => exact hstart.addCe (t := .crnti) rfl rfl rfl rfl
  have hbsr : HoldsElements n (elementsWithBsr n ci bt rnti s) (s.countsAsked (reportChannels bt s))
      (cePhaseBsr bt (cePhaseCrnti ci rnti (s.grantStarted n))) := by
    cases bt with
    | false => exact (countsAsked_nil s).symm ▸ hcrnti
    | true => exact hcrnti.cePhaseBsr
  cases pt with
  | false => exact hbsr
  | true => exact hbsr.addCe (t := .phr) rfl rfl rfl rfl

end Sys2Proof.Machine

/-! SUPPORT. A whole grant of a legal size (44_mux.md R258-R273): what the two service phases keep of the PDU they find,
the phases as the rules write them, and the state a grant ends in. -/

namespace Sys2Proof.Machine

open Sys2Proof.Config

/-! ### What the service phases keep -/

/-- From `c`, the service phases have reached `t`: the encoder's invariant holds, the mode, the direction, the size and
the control elements are those of `c`, and so are the channel table and the tokens of unlimited channels (R264-R266). -/
structure ServedFrom (c t : State) : Prop where
  inv : EncInv t
  mode_eq : t.enc.mode = c.enc.mode
  dir_eq : t.enc.dir = c.enc.dir
  size_eq : t.enc.n = c.enc.n
  elements_eq : t.enc.ceRecs = c.enc.ceRecs
  cfg_eq : t.cfg = c.cfg
  tok_eq : ∀ l, c.limited l = false → t.tokOf l = c.tokOf l

/-- An SDU record is no control element (R126). -/
theorem ceRecs_commitSdu {e : Enc} (h : e.nsub.toNat < 31) (l k : Nat) (b : Bytes) :
    (e.commitSdu l k b).ceRecs = e.ceRecs := by
  rw [Enc.ceRecs, committed_commitSdu h, List.filter_append, List.filter_cons_of_neg (by simp [recIsSdu]),
    List.filter_nil, List.append_nil, Enc.ceRecs]

namespace ServedFrom

theorem refl {c : State} (h : EncInv c) : ServedFrom c c := ⟨h, rfl, rfl, rfl, rfl, rfl, fun _ _ => rfl⟩

theorem newSubhBody {c t : State} (h : ServedFrom c t) : ServedFrom c (newSubhBody t).1 := by
  have hinv := h.inv.newSubhBody
  rcases newSubhBody_cases t with ⟨h1, -⟩ | ⟨h1, -⟩ | ⟨h1, -⟩ | ⟨h1, -⟩ <;> rw [h1] at hinv ⊢
  · exact h
  · exact h
  · exact h
  · exact ⟨hinv, h.mode_eq, h.dir_eq, h.size_eq, h.elements_eq, h.cfg_eq, h.tok_eq⟩

theorem setSduBody {c t : State} (h : ServedFrom c t) (l q : Nat) : ServedFrom c (setSduBody l q t).1 := by
  have hinv := h.inv.setSduBody l q
  rcases setSduBody_cases l q t with
    ⟨h1, -⟩ | ⟨-, -, -, -, -, h1, -⟩ | ⟨-, hopen, -, -, -, k, -, -, -, -, h1⟩ <;> rw [h1] at hinv ⊢
  · exact h
  · exact ⟨hinv, h.mode_eq, h.dir_eq, h.size_eq, h.elements_eq, h.cfg_eq, h.tok_eq⟩
  · obtain ⟨-, hsubh, -⟩ := legal_bounds h.inv.params_legal
    have hfree := h.inv.enc_ok.open_slot_free hopen
    have hlt : t.enc.nsub.toNat < 31 := by omega
    exact ⟨hinv, h.mode_eq, h.dir_eq, h.size_eq, (ceRecs_commitSdu hlt l k _).trans h.elements_eq, h.cfg_eq, h.tok_eq⟩

theorem consumeTokens {c t : State} (h : ServedFrom c t) (l : Nat) (k : Int) : ServedFrom c (consumeTokens l k t) := by
  have hinv := h.inv.consumeTokens l k
  unfold Machine.consumeTokens at hinv ⊢
  split at hinv
  · rename_i hlim
    rw [if_pos hlim]
    refine ⟨hinv, h.mode_eq, h.dir_eq, h.size_eq, h.elements_eq, h.cfg_eq, fun m hm => ?_⟩
    have hne : m ≠ l := by
      rintro rfl
      rw [limited_of_cfg_eq h.cfg_eq, hm] at hlim
      cases hlim
    exact (tokOf_setTok_ne hne _).trans (h.tok_eq m hm)
  · rename_i hlim
    rw [if_neg hlim]
    exact h

/-- Every sub-step of the service phases keeps this of the state they began in. -/
theorem service (c : State) : ServiceKeeps (ServedFrom c) where
  ask l _ _ h := ⟨h.inv.srcBufferState l, h.mode_eq, h.dir_eq, h.size_eq, h.elements_eq, h.cfg_eq, h.tok_eq⟩
  slot _ h := h.newSubhBody
  pull l q _ _ _ _ h := h.setSduBody l q
  consume l k _ _ _ h := h.consumeTokens l k

end ServedFrom

/-! ### The phases as the rules write them (R264, R265) -/

theorem servesChannels_servePhase (ph : Phase) : ∀ (ls : List Nat) {s : State}, (∀ l ∈ ls, l ≤ lcidSduMax) → EncInv s →
    s.enc.mode = .build → ServesChannels ph ls s (servePhase ph ls s).1 (servePhase ph ls s).2
  | [], _, _, _, _ => ⟨rfl, rfl⟩
  | l :: rest, s, hls, hinv, hm => by
    have hl : l ≤ lcidSduMax := hls l (by simp)
    have hrest : ∀ x ∈ rest, x ≤ lcidSduMax := fun x hx => hls x (by simp [hx])
    rw [servePhase]
    split
    · rename_i htokens
      exact ⟨s, false, .exhausted (tokensExhausted_iff.1 htokens), servesChannels_servePhase ph rest hrest hinv hm⟩
    have hserve := servesChannel_serve (ph := ph) hl hinv hm
    split
    · rename_i hstop
      exact ⟨_, true, hstop ▸ hserve, rfl, hstop⟩
    · rename_i hgo
      have hserved := (ServedFrom.service s).serve (ph := ph) hl (s.params.maxSubh + 1) (.refl hinv)
      refine ⟨_, false, Bool.eq_false_iff.2 hgo ▸ hserve, ?_⟩
      exact servesChannels_servePhase ph rest hrest hserved.inv (hserved.mode_eq.trans hm)

/-- Both phases go over the same order, as no pass writes the channel table (R255). -/
theorem servesPhases_servePhases {s : State} (hinv : EncInv s) (hm : s.enc.mode = .build) :
    ServesPhases (serviceOrder s) s (servePhases s) := by
  have horder : ∀ l ∈ serviceOrder s, l ≤ lcidSduMax := fun l hl => activeChannels_le (mem_serviceOrder.1 hl)
  have hserved := (ServedFrom.service s).servePhase (ph := .guaranteed) _ horder (.refl hinv)
  refine ⟨_, _, servesChannels_servePhase .guaranteed _ horder hinv hm, ?_⟩
  rw [servePhases, serviceOrder_of_cfg_eq hserved.cfg_eq]
  split
  · rfl
  · exact ⟨_, servesChannels_servePhase .bestEffort _ horder hserved.inv (hserved.mode_eq.trans hm)⟩

/-! ### The state a grant ends in (R267, R273) -/

/-- The end of a grant whose assembly has reached `u`: the block is committed, and stored where MSG3 is set (R178, R267,
R273). -/
def State.granted (n : Nat) (m3 : Bool) (u : State) : State := (storeMsg3 m3 n (writeCommit u).1).answered .ok n

theorem granted_eq {n : Nat} {m3 : Bool} {u : State} {m : Msg3} (hm : u.mux.msg3 = m) :
    u.granted n m3 = ({ u with
      enc := { u.enc with isOpen := false, tbOut := u.enc.block, mode := .done, tbValid := true }
      mux := { u.mux with
        msg3 := if m3 then { valid := true, len := BitVec.ofNat 16 n, bytes := u.enc.block } else m }
      trace := u.trace ++ [.tbOut u.enc.block] } : State).answered .ok n := by
  subst hm
  cases m3 <;> rfl

/-- What a grant of a legal size does from a state of the invariant: the elements, the two phases, and WRITE (R258). -/
structure GrantRun (n : Nat) (m3 ci bt pt : Bool) (rnti : BitVec 16) (ph : Int) (s c u : State) : Prop where
  holds : HoldsElements n (elementsWithPhr n ci bt pt rnti ph s) (s.countsAsked (reportChannels bt s)) c
  serves : ServesPhases (serviceOrder s) c u
  served : ServedFrom c u
  port : KeepsPort c u
  changes : Changes [.enc, .block, .tok] c u
  fault_eq : u.fault = c.fault
  exec_eq : exec (.ulGrant n m3 false ci bt pt rnti ph) s = .next (u.granted n m3)

theorem exists_grantRun {n : Nat} {s : State} (h : BlockInv s) (hr : reserveSuffices s.params) (h1 : 1 ≤ n)
    (hn : n ≤ s.params.maxTbBytes) (m3 ci bt pt : Bool) (rnti : BitVec 16) (ph : Int) :
    ∃ c u, GrantRun n m3 ci bt pt rnti ph s c u := by
  have hholds := holdsElements_grantElements ⟨h.params_legal, h.enc_ok⟩ h1 hn ci bt pt rnti ph
  have hbody := ulGrantBody_legal m3 ci bt pt rnti ph h1 hn
  generalize grantElements ci bt pt rnti ph (s.grantStarted n) = c at hholds hbody
  have hserved := (ServedFrom.service c).servePhases (.refl hholds.encInv)
  have hport := (KeepsPort.assembly c).servePhases (.refl c)
  obtain ⟨hmode, -⟩ := hholds.enc_building
  have hparams : (servePhases c).params = s.params := hport.params_eq.trans hholds.params_eq
  have hwrite := writeBody_of_encOk hserved.inv.enc_ok (hparams ▸ hr) (hserved.mode_eq.trans hmode)
  refine ⟨c, servePhases c, hholds, ?_, hserved, hport, (Changes.assembly c).servePhases (.refl _ c),
    (EndsWell.assembly_keeps_fault _).servePhases rfl,
    congrArg complete (hbody.trans (grantFinalise_commits hwrite n m3))⟩
  have horder : serviceOrder c = serviceOrder s := serviceOrder_of_cfg_eq hholds.cfg_eq
  rw [← horder]
  exact servesPhases_servePhases hholds.encInv hmode

/-! ### The report as R262 writes it -/

theorem countsAnswered_channels (ls : List Nat) (a : Agents) : (countsAnswered ls a).map Prod.fst = ls := by
  induction ls generalizing a with
  | nil => rfl
  | cons l rest ih => rw [countsAnswered, List.map_cons, ih]

/-- Where each channel is asked once, the first answer found for a channel is its only one. -/
theorem pendingOf_pos_iff {ps : List (Nat × Nat)} (h : (ps.map Prod.fst).Nodup) (l : Nat) :
    pendingOf ps l > 0 ↔ ∃ p ∈ ps, p.1 = l ∧ 0 < p.2 := by
  induction ps with
  | nil => simp [pendingOf]
  | cons p rest ih =>
    obtain ⟨hp, hrest⟩ := List.nodup_cons.1 h
    by_cases hl : p.1 = l
    · have hfirst : pendingOf (p :: rest) l = p.2 := by simp [pendingOf, hl]
      have hother : ∀ q ∈ rest, q.1 ≠ l := fun q hq hql => hp (hl ▸ hql ▸ List.mem_map_of_mem hq)
      rw [hfirst]
      constructor
      · exact fun hpos => ⟨p, List.mem_cons_self, hl, hpos⟩
      · rintro ⟨q, hq, hql, hpos⟩
        rcases List.mem_cons.1 hq with rfl | hq
        · exact hpos
        · exact absurd hql (hother q hq)
    · have hskip : pendingOf (p :: rest) l = pendingOf rest l := by simp [pendingOf, hl]
      rw [hskip, ih hrest]
      simp [hl]

theorem firstPendingGroup_eq (s : State) {ps : List (Nat × Nat)} (h : (ps.map Prod.fst).Nodup) :
    firstPendingGroup s ps = (((serviceOrder s).find? fun l => ps.any fun p => decide (p.1 = l ∧ 0 < p.2)).map
      fun l => (s.lch l).lcg).getD 0 := by
  have hany : (fun l => decide (pendingOf ps l > 0)) = fun l => ps.any fun p => decide (p.1 = l ∧ 0 < p.2) := by
    funext l
    rw [Bool.eq_iff_iff, decide_eq_true_iff, pendingOf_pos_iff h]
    simp
  rw [firstPendingGroup, hany]
  cases (serviceOrder s).find? fun l => ps.any fun p => decide (p.1 = l ∧ 0 < p.2) <;> rfl

end Sys2Proof.Machine

namespace Sys2Proof.Proofs

open Sys2Proof.Machine Sys2Proof.Config

/-- Settles O44: `c` holds the elements, `u` is served from it, and WRITE commits the block of `u`. -/
theorem grantBuildsBlock : Obligations.GrantBuildsBlock := by
  intro n m3 ci bt pt rnti ph s hinv hr h1 hn asked
  obtain ⟨c, u, hrun⟩ := exists_grantRun hinv hr h1 hn m3 ci bt pt rnti ph
  have hholds := hrun.holds
  have hserved := hrun.served
  have helements : c.enc.committed = u.enc.ceRecs := by
    rw [hserved.elements_eq, Enc.ceRecs, hholds.committed_eq, hholds.filter_ce]
  have hrem := hholds.committed_eq ▸ hholds.rem_add
  obtain ⟨hmode, -, hdir, hsize⟩ := hholds.enc_building
  have hcfg : c.cfg = s.cfg := hholds.cfg_eq
  have hmux : c.mux = s.mux := hholds.mux_eq
  have htrace : c.trace = s.trace ++ asked.map .bufferState := hholds.trace_eq
  have hmsg3 : u.mux.msg3 = s.mux.msg3 := (hrun.changes .msg3 (by simp)).trans (congrArg Mux.msg3 hmux)
  have hblock : u.enc.block.length = n := by
    rw [block_length hserved.inv.enc_ok (hserved.mode_eq.trans hmode), hserved.size_eq, hsize]
  obtain ⟨new, hnew⟩ := hrun.port.trace_grows
  have hexec := hrun.exec_eq
  rw [granted_eq hmsg3] at hexec
  refine ⟨c, u, _, hexec, ?_, helements, hrem, hrun.serves, rfl, rfl, hblock, hserved.dir_eq.trans hdir,
    hrun.port.params_eq.trans hholds.params_eq, (hrun.changes .dec (by simp)).trans hholds.dec_eq,
    hserved.cfg_eq.trans hcfg, hrun.fault_eq.trans hholds.fault_eq, hrun.port.host_eq.trans hholds.host_eq,
    fun l hl => ?_, asked.map .bufferState ++ new, ?_⟩
  · obtain ⟨sub, nsub, rem, rfl⟩ := hholds.frame
    rfl
  · rw [← limited_of_cfg_eq hcfg] at hl
    refine (hserved.tok_eq l hl).trans ?_
    rw [State.tokOf, hmux, State.tokOf]
  · rw [← List.append_assoc, ← htrace, ← hnew]
    rfl

/-- Settles O45: the elements that the assembly adds one by one are the control elements of the PDU at its end. -/
theorem grantAddsControlElements : Obligations.GrantAddsControlElements := by
  intro n m3 ci bt pt rnti ph s hinv hr h1 hn active counts sum level groups first room add crnti bsr elements
  have hfirst : firstPendingGroup s counts = first := firstPendingGroup_eq s
    ((countsAnswered_channels active s.agents).symm ▸ activeChannels_nodup s)
  have hcrnti : elementsWithCrnti n ci rnti s = crnti := by cases ci <;> rfl
  have hbsr : elementsWithBsr n ci bt rnti s = bsr := by
    rw [elementsWithBsr, hcrnti]
    cases bt with
    | false => rfl
    | true =>
      have hreport : bsrElement s counts (room crnti) =
          if 1 < groups.length then
            if 4 ≤ room crnti then .ce .longBsr 30 3
              [level (sum 0) ++ (level (sum 1)).extractLsb 5 4,
               (level (sum 1)).extractLsb 3 0 ++ (level (sum 2)).extractLsb 5 2,
               (level (sum 2)).extractLsb 1 0 ++ level (sum 3)]
            else .ce .truncBsr 28 1 [first ++ level (sum first)]
          else .ce .shortBsr 29 1 [groups.headD 0 ++ level (sum (groups.headD 0))] := by
        rw [bsrElement, hfirst, longBsrBytes_eq]
        rfl
      change addElement n s.params.maxSubh crnti (bsrElement s counts (room crnti)) = bsr
      rw [hreport]
      unfold bsr
      split
      · split <;> rfl
      · rfl
  have helements : elementsWithPhr n ci bt pt rnti ph s = elements := by
    rw [elementsWithPhr, hbsr]
    cases pt <;> rfl
  obtain ⟨c, u, hrun⟩ := exists_grantRun hinv hr h1 hn m3 ci bt pt rnti ph
  have hholds := hrun.holds
  have hcommitted : u.enc.ceRecs = elements := by
    rw [hrun.served.elements_eq, Enc.ceRecs, hholds.committed_eq, hholds.filter_ce, helements]
  have htrace : c.trace = s.trace ++ if bt then active.map Obs.bufferState else [] :=
    hholds.trace_eq.trans (by cases bt <;> rfl)
  obtain ⟨new, hnew⟩ := hrun.port.trace_grows
  have hexec := hrun.exec_eq
  rw [granted_eq rfl] at hexec
  refine ⟨_, hexec, hcommitted, new ++ [.tbOut u.enc.block], ?_⟩
  rw [← htrace, ← List.append_assoc, ← hnew]
  rfl

end Sys2Proof.Proofs

/-! SUPPORT. DL_TB (45_demux.md R300-R305): an event word as a number, the payload of a record a parse delimits, the
dispatch of a record as what it appends to the observation, and the two ends of the command. -/

namespace Sys2Proof.Machine

open Sys2Proof.Config

/-! ### The event words (R303) -/

/-- A 64-bit word is the event word of the fields it is the sum of. -/
theorem eq_eventWord {w : BitVec 64} {type sub arg : Nat} (h : w.toNat = type * 2 ^ 56 + sub * 2 ^ 48 + arg) :
    w = eventWord type sub arg := by
  rw [eventWord, ← h, BitVec.ofNat_toNat, BitVec.setWidth_eq]

/-- The type, the sub-code and the argument of an event (R303). -/
def Event.fields : Event → Nat × Nat × Nat
  | .sdu lcid len => (0x01, 0, lcid.toNat * 2 ^ 16 + len.toNat)
  | .conres id => (0x02, 0, id.toNat)
  | .ta cmd => (0x03, 0, cmd.toNat)
  | .drx => (0x04, 0, 0)
  | .diagParse code => (0x80, 1, code.toNat)
  | .diagUnknownLcid lcid => (0x80, 2, lcid.toNat)
  | .diagEmptySdu lcid => (0x80, 3, lcid.toNat)

theorem Event.word_eq (e : Event) : e.word = eventWord e.fields.1 e.fields.2.1 e.fields.2.2 := by
  apply eq_eventWord
  cases e <;> simp only [Event.word, Event.fields, toNat_append_eq, BitVec.ofNat_eq_ofNat, BitVec.toNat_ofNat] <;> omega

/-- The code of a parse error as a number (R321). -/
theorem code_toNat_of_parseError {e : ErrCode} (h : isParseError e) : e.code.toNat =
    if e = .pTrunc then 0x10 else if e = .pLcid then 0x11 else if e = .pLen then 0x12 else 0x13 := by
  rcases h with rfl | rfl | rfl | rfl <;> rfl

/-! ### The payload of a record (R204, R302) -/

/-- A record of a received downlink block `d`: the kind of its LCID, a control element's size, and a payload that lies
within the block (R200, R203, R204). -/
structure DelimitedIn (d : Bytes) (r : DecRec) : Prop where
  wf : decRecWf .dl r
  payload_length : (parsedIn d r).payload.length = r.len.toNat

theorem delimitedIn_of_parse {maxRx : Nat} {d : Bytes} {recs : List DecRec} (hd : d.length < 65536)
    (hparse : parse .dl maxRx d.length d = .ok recs) : recs.length ≤ maxRx ∧ ∀ r ∈ recs, DelimitedIn d r := by
  rcases parse_cases .dl maxRx d hd with ⟨e, -, h⟩ | ⟨recs', h, -, hcount, ⟨hend, -, -, hcover⟩, hwf⟩
  · cases h.symm.trans hparse
  · obtain rfl : recs' = recs := Except.ok.inj (h.symm.trans hparse)
    obtain ⟨hlen, -⟩ := parsedIn_of_recsCover hcover
    exact ⟨hcount, fun r hr => ⟨hwf r hr, hlen _ (List.mem_map_of_mem hr)⟩⟩

theorem payload_getD (d : Bytes) {off k j : Nat} (h : j < k) :
    ((d.drop off).take k).getD j 0 = d.getD (off + j) 0 := by
  simp [List.getD_eq_getElem?_getD, h]

/-- Six bytes, the first one most significant (R99). -/
theorem conresId_toNat {p : Bytes} (h : p.length = 6) : (conresId p).toNat =
    (p.getD 0 0).toNat * 2 ^ 40 + (p.getD 1 0).toNat * 2 ^ 32 + (p.getD 2 0).toNat * 2 ^ 24
      + (p.getD 3 0).toNat * 2 ^ 16 + (p.getD 4 0).toNat * 2 ^ 8 + (p.getD 5 0).toNat := by
  match p, h with
  | [b0, b1, b2, b3, b4, b5], _ =>
    simp only [conresId, toNat_append_eq, List.getD_cons_zero, List.getD_cons_succ]
    omega

/-- The low six bits of the one byte (R100). -/
theorem taValue_toNat {p : Bytes} (h : p.length = 1) : (taValue p).toNat = (p.getD 0 0).toNat % 2 ^ 6 := by
  match p, h with
  | [b], _ =>
    simp only [taValue, BitVec.extractLsb_toNat, List.getD_cons_zero, Nat.shiftRight_zero]

/-- The identity in the payload of a CONRES record, from the bytes of the block (R302). -/
theorem conresId_payload {s : State} {r : DecRec} (h : DelimitedIn s.dec.data r) (hc : r.cls = .ce .conres) :
    let b := fun j => (s.dec.data.getD (r.off.toNat + j) 0).toNat
    (conresId (s.decPayload r)).toNat =
      b 0 * 2 ^ 40 + b 1 * 2 ^ 32 + b 2 * 2 ^ 24 + b 3 * 2 ^ 16 + b 4 * 2 ^ 8 + b 5 := by
  have hsize : r.len.toNat = 6 := h.wf.2 _ hc
  refine (conresId_toNat (h.payload_length.trans hsize)).trans ?_
  simp only [parsedIn, hsize, payload_getD, Nat.reduceLT]

/-- The command in the payload of a TA record, from the byte of the block (R302). -/
theorem taValue_payload {s : State} {r : DecRec} (h : DelimitedIn s.dec.data r) (hc : r.cls = .ce .ta) :
    (taValue (s.decPayload r)).toNat = (s.dec.data.getD r.off.toNat 0).toNat % 2 ^ 6 := by
  have hsize : r.len.toNat = 1 := h.wf.2 _ hc
  refine (taValue_toNat (h.payload_length.trans hsize)).trans ?_
  simp only [parsedIn, hsize, payload_getD, Nat.lt_one_iff, Nat.add_zero]

/-! ### The dispatch of the records (R302, R305) -/

/-- `s` with the items `outs` appended to the observation (R17). -/
def State.observing (outs : List Obs) (s : State) : State := { s with trace := s.trace ++ outs }

@[simp] theorem observing_nil (s : State) : s.observing [] = s := by simp [State.observing]
@[simp] theorem observing_dec (outs : List Obs) (s : State) : (s.observing outs).dec = s.dec := rfl
theorem observing_append (outs more : List Obs) (s : State) :
    (s.observing outs).observing more = s.observing (outs ++ more) := by
  simp [State.observing]

theorem emitEvent_eq (e : Event) (s : State) :
    emitEvent e s = s.observing [.event (eventWord e.fields.1 e.fields.2.1 e.fields.2.2)] := by
  rw [emitEvent, Event.word_eq]
  rfl

theorem sinkWritePdu_eq (l : Nat) (b : Bytes) (s : State) : sinkWritePdu l b s = s.observing [.writePdu l b] := rfl

/-- The outputs of a record do not depend on what has been observed. -/
theorem recordOutputs_observing (outs : List Obs) (s : State) : recordOutputs (s.observing outs) = recordOutputs s :=
  rfl

/-- The dispatch of a delimited record appends its outputs and counts its delivery (R302, R303). -/
theorem dispatch_eq {s : State} {r : DecRec} (h : DelimitedIn s.dec.data r) :
    dispatch r s = (s.observing (recordOutputs s s.dec.data r), (recordOutputs s s.dec.data r).countP isDelivery) := by
  unfold dispatch recordOutputs
  cases hc : r.cls with
  | sdu =>
    simp only
    split
    · rw [emitEvent_eq]; rfl
    split
    · rw [emitEvent_eq]; rfl
    · rw [emitEvent_eq, sinkWritePdu_eq, observing_append]; rfl
  | ce t =>
    cases t with
    | conres => simp only [emitEvent_eq, Event.fields, conresId_payload h hc]; rfl
    | ta => simp only [emitEvent_eq, Event.fields, taValue_payload h hc]; rfl
    | drx => simp only [emitEvent_eq]; rfl
    -- the uplink control elements and padding are ignored (R302)
    | _ => simp
  | pad => simp

theorem dispatchAll_eq : ∀ (rs : List DecRec) {s : State}, (∀ r ∈ rs, DelimitedIn s.dec.data r) →
    dispatchAll rs s = (s.observing (rs.flatMap (recordOutputs s s.dec.data)),
      (rs.flatMap (recordOutputs s s.dec.data)).countP isDelivery)
  | [], s, _ => by simp [dispatchAll]
  | r :: rest, s, h => by
    obtain ⟨hr, hrest⟩ := List.forall_mem_cons.1 h
    rw [dispatchAll, dispatch_eq hr, dispatchAll_eq rest (by simpa using hrest), observing_dec,
      recordOutputs_observing, observing_append, List.flatMap_cons, List.countP_append]

/-- A record delivers only its own payload, an SDU that is not empty, to its channel, an active one (R302). -/
theorem writePdu_mem_recordOutputs {s : State} {d : Bytes} {r : DecRec} {l : Nat} {b : Bytes}
    (h : .writePdu l b ∈ recordOutputs s d r) :
    r.cls = .sdu ∧ r.len.toNat ≠ 0 ∧ (s.lch r.lcid.toNat).active = true ∧ l = r.lcid.toNat ∧
      b = (parsedIn d r).payload := by
  unfold recordOutputs at h
  cases hc : r.cls with
  | sdu =>
    simp only [hc] at h
    split at h
    · simp at h
    rename_i hlen
    split at h
    · simp at h
    rename_i hactive
    obtain ⟨rfl, rfl⟩ : l = _ ∧ b = _ := by simpa using h
    exact ⟨rfl, hlen, by simpa using hactive, rfl, rfl⟩
  | pad => simp [hc] at h
  | ce t => cases t <;> simp [hc] at h

/-! ### The ends of DL_TB (R300, R301) -/

section
variable {n : Nat} {d : Bytes} {s u : State} {r : Int} (hd : s.refusesDin n d = false)
include hd

theorem dlTbBody_of_read_ok (hread : readBody .dl n d s = ok r u) : dlTbBody n d s = dlTbDeliver u := by
  rw [dlTbBody, if_neg (by simp [hd]), hread]
  rfl

theorem dlTbBody_of_read_fail {e : ErrCode} (he : e ≠ .ok) (hread : readBody .dl n d s = fail e r u) :
    dlTbBody n d s = parseDrop e u := by
  rw [dlTbBody, if_neg (by simp [hd]), hread]
  exact if_pos he

theorem readBody_of_parse_error {dir : Dir} {e : ErrCode} (hparse : parse dir s.params.maxSubhRx n d = .error e) :
    readBody dir n d s = fail e (-1) { s with
      dec := { s.dec with dir := dir, n := BitVec.ofNat 16 n, data := d, valid := false, nrec := 0, err := e } } := by
  rw [readBody, if_neg (by simp [hd]), hparse]

end

theorem parseError_of_parse {dir : Dir} {maxRx n : Nat} {d : Bytes} {e : ErrCode}
    (hparse : parse dir maxRx n d = .error e) : isParseError e := by
  rcases parse_ends dir maxRx n d with ⟨e', he, h⟩ | ⟨w, -, -, h⟩
  · obtain rfl : e' = e := Except.error.inj (h.symm.trans hparse)
    exact he
  · cases h.symm.trans hparse

/-- DL_TB of a block that parses: the table is written, its records are dispatched (R300). -/
theorem exec_dlTb_of_parse {s : State} {recs : List DecRec} (hp : s.params.legal = true)
    (hfit : s.host.din.length ≤ s.params.maxTbBytes)
    (hparse : parse .dl s.params.maxSubhRx s.host.din.length s.host.din = .ok recs) :
    exec (.dlTb s.host.din.length) s = .next (({ s with
      dec := { dir := .dl, n := BitVec.ofNat 16 s.host.din.length, data := s.host.din, valid := true,
               nrec := BitVec.ofNat 6 recs.length, recs := recs, err := .ok }
      trace := s.trace ++ recs.flatMap (recordOutputs s s.host.din) } : State).answered .ok
        ((recs.flatMap (recordOutputs s s.host.din)).countP isDelivery)) := by
  obtain ⟨-, -, -, htb, -, hrx⟩ := legal_bounds hp
  obtain ⟨hcount, hdelimited⟩ := delimitedIn_of_parse (by omega) hparse
  have htake : recs.take (BitVec.ofNat 6 recs.length).toNat = recs :=
    List.take_of_length_le (by rw [BitVec.toNat_ofNat]; omega)
  have hbody := dlTbBody_of_read_ok (refusesDin_false.2 ⟨rfl, hfit⟩) (readBody_of_parse rfl hfit hparse)
  refine (congrArg complete hbody).trans ?_
  simp only [dlTbDeliver, htake]
  rw [dispatchAll_eq recs hdelimited]
  rfl

/-- DL_TB of a block that does not parse: READ drops the block, one diagnostic is emitted (R301, R205). -/
theorem exec_dlTb_of_parse_error {s : State} {e : ErrCode} (hfit : s.host.din.length ≤ s.params.maxTbBytes)
    (hparse : parse .dl s.params.maxSubhRx s.host.din.length s.host.din = .error e) :
    exec (.dlTb s.host.din.length) s = .next (({ s with
      dec := { s.dec with
        dir := .dl, n := BitVec.ofNat 16 s.host.din.length, data := s.host.din, valid := false, nrec := 0, err := e }
      trace := s.trace ++ [.event (eventWord 0x80 1 e.code.toNat)] } : State).answered e (-1)) := by
  have hok : e ≠ .ok := by rintro rfl; simpa [isParseError] using parseError_of_parse hparse
  have htaken : s.refusesDin s.host.din.length s.host.din = false := refusesDin_false.2 ⟨rfl, hfit⟩
  have hbody := dlTbBody_of_read_fail htaken hok (readBody_of_parse_error htaken hparse)
  refine (congrArg complete hbody).trans ?_
  rw [parseDrop, emitEvent_eq]
  rfl

/-- What DL_TB delivers, it delivers for a record of the block (R300, R301). -/
theorem writePdu_of_dlTb {n l : Nat} {s t : State} {new : List Obs} {b : Bytes} (hp : s.params.legal = true)
    (ht : exec (.dlTb n) s = .next t) (hnew : t.trace = s.trace ++ new) (hmem : .writePdu l b ∈ new) :
    ∃ r, DelimitedIn s.host.din r ∧ .writePdu l b ∈ recordOutputs s s.host.din r := by
  obtain ⟨-, -, -, htb, -⟩ := legal_bounds hp
  have happended : ∀ outs u, exec (.dlTb n) s = .next u → u.trace = s.trace ++ outs → .writePdu l b ∈ outs := by
    rintro outs u hu houts
    obtain rfl := Host.Outcome.next.inj (hu.symm.trans ht)
    exact List.append_cancel_left (houts.symm.trans hnew) ▸ hmem
  cases hdin : s.refusesDin n s.host.din with
  | true =>
    have hnone := happended [] _ (congrArg complete (dlTbBody_refused hdin)) (List.append_nil _).symm
    simp at hnone
  | false =>
    obtain ⟨rfl, hfit⟩ := refusesDin_false.1 hdin
    rcases hparse : parse .dl s.params.maxSubhRx s.host.din.length s.host.din with e | recs
    · have hdiag := happended _ _ (exec_dlTb_of_parse_error hfit hparse) rfl
      simp at hdiag
    · have houts := happended _ _ (exec_dlTb_of_parse hp hfit hparse) rfl
      obtain ⟨r, hr, hout⟩ := List.mem_flatMap.1 houts
      exact ⟨r, (delimitedIn_of_parse (by omega) hparse).2 r hr, hout⟩

end Sys2Proof.Machine

namespace Sys2Proof.Proofs

open Sys2Proof.Machine

/-- Settles O50: the parse delimits every record, and the dispatch of a delimited record appends its outputs. -/
theorem dlTbDispatchesRecords : Obligations.DlTbDispatchesRecords := by
  rintro _ s recs hp hfit rfl hparse
  exact exec_dlTb_of_parse hp hfit hparse

/-- Settles O52: a delivery is an output of a delimited record, whose payload has the record's length. -/
theorem onlyActiveChannelsServed : Obligations.OnlyActiveChannelsServed := by
  intro n s t new l b hp ht hnew hmem
  obtain ⟨r, ⟨⟨hkind, -⟩, hlen⟩, hout⟩ := writePdu_of_dlTb hp ht hnew hmem
  obtain ⟨hsdu, hpos, hactive, rfl, rfl⟩ := writePdu_mem_recordOutputs hout
  refine ⟨classOf_eq_sdu_iff.1 (hsdu ▸ hkind), hactive, fun hempty => hpos ?_⟩
  rw [← hlen, hempty]
  rfl

/-- Settles O51: READ drops the block with a parse error, whose code the diagnostic carries. -/
theorem dlTbDropsMalformedBlock : Obligations.DlTbDropsMalformedBlock := by
  rintro _ s e rfl hfit hparse
  have he := parseError_of_parse hparse
  refine ⟨_, exec_dlTb_of_parse_error hfit hparse, ?_, he⟩
  rw [code_toNat_of_parseError he]
  rfl

end Sys2Proof.Proofs

/-! SUPPORT. SOFT_RESET as a power-on RESET that keeps the configuration and the observation (R350, R351). -/

namespace Sys2Proof.Machine

/-- SOFT_RESET is power-on RESET but for `CFG`, the host and the trace, which it keeps, and its answer (R350, R351). -/
theorem exec_softReset (s : State) : exec .softReset s =
    .next (({ powerOnReset s with cfg := s.cfg, host := s.host, trace := s.trace } : State).answered .ok 1) :=
  complete_ok 1 _

end Sys2Proof.Machine

namespace Sys2Proof.Proofs

open Sys2Proof.Machine

/-- Settles O55: the token counters and `STATUS` read only what SOFT_RESET shares with power-on RESET. -/
theorem softResetReinitialises : Obligations.SoftResetReinitialises := by
  intro s
  have hreset := hasResetValues_powerOnReset s
  exact ⟨_, exec_softReset s, rfl, rfl, fun l _ => hreset.tokOf_zero l, rfl, rfl, rfl, rfl, rfl, hreset.status_zero,
    rfl, rfl, rfl, rfl⟩

end Sys2Proof.Proofs
